-- ==== Sys2Proof/Word.lean ====
section
/-! DEFINITION. The word types of the codec core: 32-bit values and bitstream words (spec R9), 64-bit counts (R9,
R61), 6-bit fill counts of the bit buffers (R23, R30). -/

namespace Sys2Proof

/-- A 32-bit value or bitstream word (`VALUE_BITS`, `WORD_BITS`, R9). -/
abbrev Word := BitVec 32

/-- A 64-bit count or index (`COUNT_BITS` R9, `WORDCNT_BITS` R10, R61). -/
abbrev Count := BitVec 64

/-- A 64-bit bit buffer (`EBUF_BITS` R10, `DBUF_BITS` R9). -/
abbrev Buffer := BitVec 64

/-- The number of bits in a bit buffer, a 6-bit register (R23, R30). -/
abbrev Fill := BitVec 6

end Sys2Proof
end

