-- ==== Sys2Proof/Config.lean ====
section
/-! DEFINITION. What is fixed for the machine: the numeric parameters of spec R9 and R10, and the free values, which the
spec leaves open. A free value is an opaque constant: no proof can see it. -/

namespace Sys2Proof.Config

/-- `MARGIN` (R9, R193): batching stops when fewer than this many values remain. -/
def margin : Nat := 16

/-- `LANES` (R10, R208): lanes of the window vector, one per pattern entry (`NENT`, R9). -/
def lanes : Nat := 16

/-- `TAG_BITS` (R9). -/
def tagBits : Nat := 2

/-- `WINDOW_BITS` (R9, R195). -/
def windowBits : Nat := 32

/-- `MAXPAT` (R9): the most records one pattern entry decodes. -/
def maxPat : Nat := 4

/-- FREE VALUE (log 7): what word `i` of `WMEM` holds when nothing has written it. R281: "unspecified at power-up";
93_implementation_defined.md U13: any value. -/
opaque powerUpWord : Nat → Word

/-- FREE VALUE (log 8, log 23): what a decoder pulls as word `i` in its run number `n` after a word of `WMEM` below its
`WORD_COUNT` was written during that run (R290 H5: "undefined mixture of old and new words"; R78, R289), or when its run
was started while ENC was `BUSY` (R288, R290 H4, U7: "no claim"). -/
opaque mixedWord : Nat → Nat → Word

/-- FREE VALUE (log 23): what a decoder pulls as word `i` of `WMEM`, where the word `w` stands that ENC wrote and has not
been `DONE` since (R285 item 1: "no claim"; R286: "words already written are garbage"). It is a value of the
index and the word alone, so that two runs over the same `WMEM` pull the same (R67, R183). -/
opaque unfinishedWord : Nat → Word → Word

/-- FREE VALUE (log 2): at the `n`-th choice between two enabled decoders, true when SDEC takes the next step.
R75: "their steps may interleave in any order". -/
opaque arbiter : Nat → Bool

end Sys2Proof.Config
end

