-- ==== Sys2Proof/Syntax.lean ====
section
/-! DEFINITION. The instructions of the codec core: one constructor of `Instr` for each row of spec/opcode_table.json
(the four record formats R93 to R96, the sixteen pattern entries R220 to R235, the five host commands R109), and the
names of the width classes and of the two decoders. -/

namespace Sys2Proof

/-- The four width classes (R16); the tag of a class is its index. -/
inductive WClass where
  | c0 | c1 | c2 | c3
  deriving DecidableEq, Repr

/-- The two decoder agents (R8): the scalar and the batched decoder. -/
inductive DecId where
  | sdec | bdec
  deriving DecidableEq, Repr

/-- A command as the command port carries it (R109): the triple `(CMD[3:0], OPA[63:0], OPB[63:0])`. -/
structure CommandWord where
  /-- `CMD[3:0]`: bits 3..2 select the unit, bits 1..0 the operation. -/
  cmd : BitVec 4
  /-- `OPA[63:0]`. -/
  opa : BitVec 64
  /-- `OPB[63:0]`. -/
  opb : BitVec 64
  deriving DecidableEq, Repr

/-- The instructions. A record carries its payload. A pattern entry carries the payloads of the records it covers, in
stream order, and `x`, the window bits it does not test and does not extract. A command carries the operands it reads. -/
inductive Instr where
  /-- `REC.C0` (R93, R175): `00vvvv`. -/
  | recC0 (v : BitVec 4)
  /-- `REC.C1` (R94, R176): `01` and 11 payload bits. -/
  | recC1 (v : BitVec 11)
  /-- `REC.C2` (R95, R177): `10` and 24 payload bits. -/
  | recC2 (v : BitVec 24)
  /-- `REC.C3` (R96, R178): `11` and 32 payload bits. -/
  | recC3 (v : BitVec 32)
  /-- `PAT0` (R220): `[C0,C0,C0,C0]`. -/
  | pat0 (a b c d : BitVec 4) (x : BitVec 8)
  /-- `PAT1` (R221): `[C0,C0,C0,C1]`. -/
  | pat1 (a b c : BitVec 4) (d : BitVec 11) (x : BitVec 1)
  /-- `PAT2` (R222): `[C0,C0,C0]`, next tag `1x`. -/
  | pat2 (a b c : BitVec 4) (x : BitVec 13)
  /-- `PAT3` (R223): `[C0,C0,C1]`. -/
  | pat3 (a b : BitVec 4) (c : BitVec 11) (x : BitVec 7)
  /-- `PAT4` (R224): `[C0,C0]`, next tag `1x`. -/
  | pat4 (a b : BitVec 4) (x : BitVec 19)
  /-- `PAT5` (R225): `[C0,C1,C0]`. -/
  | pat5 (a : BitVec 4) (b : BitVec 11) (c : BitVec 4) (x : BitVec 7)
  /-- `PAT6` (R226): `[C0,C1,C1]`. -/
  | pat6 (a : BitVec 4) (b c : BitVec 11)
  /-- `PAT7` (R227): `[C0,C1]`, next tag `1x`. -/
  | pat7 (a : BitVec 4) (b : BitVec 11) (x : BitVec 12)
  /-- `PAT8` (R228): `[C0,C2]`. -/
  | pat8 (a : BitVec 4) (b : BitVec 24)
  /-- `PAT9` (R229): `[C0]`, next tag `11`. -/
  | pat9 (a : BitVec 4) (x : BitVec 24)
  /-- `PAT10` (R230): `[C1,C0,C0]`. -/
  | pat10 (a : BitVec 11) (b c : BitVec 4) (x : BitVec 7)
  /-- `PAT11` (R231): `[C1,C0,C1]`. -/
  | pat11 (a : BitVec 11) (b : BitVec 4) (c : BitVec 11)
  /-- `PAT12` (R232): `[C1,C0]`, next tag `1x`. -/
  | pat12 (a : BitVec 11) (b : BitVec 4) (x : BitVec 12)
  /-- `PAT13` (R233): `[C1,C1]`. -/
  | pat13 (a b : BitVec 11) (x : BitVec 6)
  /-- `PAT14` (R234): `[C1]`, next tag `1x`. -/
  | pat14 (a : BitVec 11) (x : BitVec 18)
  /-- `PAT15` (R235): `[C2]`. -/
  | pat15 (a : BitVec 24) (x : BitVec 6)
  /-- `ENC_START` (R122). -/
  | encStart
  /-- `ENC_PUSH(v)` (R123). -/
  | encPush (v : BitVec 32)
  /-- `ENC_FINISH` (R128). -/
  | encFinish
  /-- `SDEC_START(wc, vc)` (R171). -/
  | sdecStart (wc vc : BitVec 64)
  /-- `BDEC_START(wc, vc)` (R191). -/
  | bdecStart (wc vc : BitVec 64)
  deriving DecidableEq, Repr

end Sys2Proof
end

