-- ==== Sys2Proof/Machine/Operands.lean ====
section
/-! DEFINITION. The operand forms: the class tables (R41, R42, R121), the payload of a record (R104), the pattern table
`PT` (R203) with its construction rule (R200, R202), and BDEC's vector operations (R208). All arithmetic is unsigned
(R11, R138, R161, R239). -/

namespace Sys2Proof

/-! ## Classes -/

/-- `TAG[c]` (R9, R16): the class index as a 2-bit tag. -/
def WClass.tag : WClass → BitVec 2
  | .c0 => 0b00#2
  | .c1 => 0b01#2
  | .c2 => 0b10#2
  | .c3 => 0b11#2

/-- The opcode map (R106): the class of a tag; all four tags are assigned. -/
def WClass.ofTag (t : BitVec 2) : WClass :=
  if t = 0b00#2 then .c0 else if t = 0b01#2 then .c1 else if t = 0b10#2 then .c2 else .c3

/-- `WIDTH[c]` (R9, R41): payload width. -/
def WClass.width : WClass → Nat
  | .c0 => 4
  | .c1 => 11
  | .c2 => 24
  | .c3 => 32

/-- `RECLEN[c] = 2 + WIDTH[c]` (R9, R41): record length. -/
def WClass.recLen (c : WClass) : Nat := Config.tagBits + c.width

/-- Leading zeros among the low `n` bits of `v`. -/
def clzBelow (v : Word) : Nat → Nat
  | 0 => 0
  | n + 1 => if v.getLsbD n then 0 else clzBelow v n + 1

/-- `clz32(v)` (R14): leading-zero count of a 32-bit value; `clz32(0) = 32`. -/
def clz32 (v : Word) : Nat := clzBelow v 32

/-- `CLZ2CLASS[z]` (R42, R121). -/
def clz2class (z : Nat) : WClass :=
  if 28 ≤ z then .c0 else if 21 ≤ z then .c1 else if 8 ≤ z then .c2 else .c3

/-- `class(v)` (R121). -/
def classOf (v : Word) : WClass := clz2class (clz32 v)

/-- `mask(w) = 2^w - 1` for `0 ≤ w ≤ 32` (R14). -/
def maskBits (w : Nat) : Word := BitVec.ofNat 32 (2 ^ w - 1)

/-- `v[w-1:0]` (R104): the payload of `v` in a field of `w` bits, held in 32 bits. -/
def payloadOf (v : Word) (w : Nat) : Word := v &&& maskBits w

/-! ## The pattern table -/

/-- Four lanes, `lane[0]` to `lane[3]` (R46, R208). -/
structure Lanes4 (α : Type) where
  l0 : α
  l1 : α
  l2 : α
  l3 : α
  deriving DecidableEq, Repr

/-- An entry of the pattern table (R43): `MASK`, `EXPECT`, `COUNT`, `CONSUMED`, `SHIFT[0..3]`, `WID[0..3]`. -/
structure PatEntry where
  mask : Word
  expect : Word
  count : Nat
  consumed : Nat
  shift : Lanes4 Nat
  wid : Lanes4 Nat
  deriving DecidableEq, Repr

/-- `PT[0]` (R203). -/
def pt0 : PatEntry := ⟨0xC30C3000#32, 0x00000000#32, 4, 24, ⟨26, 20, 14, 8⟩, ⟨4, 4, 4, 4⟩⟩
/-- `PT[1]` (R203). -/
def pt1 : PatEntry := ⟨0xC30C3000#32, 0x00001000#32, 4, 31, ⟨26, 20, 14, 1⟩, ⟨4, 4, 4, 11⟩⟩
/-- `PT[2]` (R203). -/
def pt2 : PatEntry := ⟨0xC30C2000#32, 0x00002000#32, 3, 18, ⟨26, 20, 14, 0⟩, ⟨4, 4, 4, 0⟩⟩
/-- `PT[3]` (R203). -/
def pt3 : PatEntry := ⟨0xC30C0000#32, 0x00040000#32, 3, 25, ⟨26, 20, 7, 0⟩, ⟨4, 4, 11, 0⟩⟩
/-- `PT[4]` (R203). -/
def pt4 : PatEntry := ⟨0xC3080000#32, 0x00080000#32, 2, 12, ⟨26, 20, 0, 0⟩, ⟨4, 4, 0, 0⟩⟩
/-- `PT[5]` (R203). -/
def pt5 : PatEntry := ⟨0xC3001800#32, 0x01000000#32, 3, 25, ⟨26, 13, 7, 0⟩, ⟨4, 11, 4, 0⟩⟩
/-- `PT[6]` (R203). -/
def pt6 : PatEntry := ⟨0xC3001800#32, 0x01000800#32, 3, 32, ⟨26, 13, 0, 0⟩, ⟨4, 11, 11, 0⟩⟩
/-- `PT[7]` (R203). -/
def pt7 : PatEntry := ⟨0xC3001000#32, 0x01001000#32, 2, 19, ⟨26, 13, 0, 0⟩, ⟨4, 11, 0, 0⟩⟩
/-- `PT[8]` (R203). -/
def pt8 : PatEntry := ⟨0xC3000000#32, 0x02000000#32, 2, 32, ⟨26, 0, 0, 0⟩, ⟨4, 24, 0, 0⟩⟩
/-- `PT[9]` (R203). -/
def pt9 : PatEntry := ⟨0xC3000000#32, 0x03000000#32, 1, 6, ⟨26, 0, 0, 0⟩, ⟨4, 0, 0, 0⟩⟩
/-- `PT[10]` (R203). -/
def pt10 : PatEntry := ⟨0xC0061800#32, 0x40000000#32, 3, 25, ⟨19, 13, 7, 0⟩, ⟨11, 4, 4, 0⟩⟩
/-- `PT[11]` (R203). -/
def pt11 : PatEntry := ⟨0xC0061800#32, 0x40000800#32, 3, 32, ⟨19, 13, 0, 0⟩, ⟨11, 4, 11, 0⟩⟩
/-- `PT[12]` (R203). -/
def pt12 : PatEntry := ⟨0xC0061000#32, 0x40001000#32, 2, 19, ⟨19, 13, 0, 0⟩, ⟨11, 4, 0, 0⟩⟩
/-- `PT[13]` (R203). -/
def pt13 : PatEntry := ⟨0xC0060000#32, 0x40020000#32, 2, 26, ⟨19, 6, 0, 0⟩, ⟨11, 11, 0, 0⟩⟩
/-- `PT[14]` (R203). -/
def pt14 : PatEntry := ⟨0xC0040000#32, 0x40040000#32, 1, 13, ⟨19, 0, 0, 0⟩, ⟨11, 0, 0, 0⟩⟩
/-- `PT[15]` (R203). -/
def pt15 : PatEntry := ⟨0xC0000000#32, 0x80000000#32, 1, 26, ⟨6, 0, 0, 0⟩, ⟨24, 0, 0, 0⟩⟩

/-- `PT[0..15]`, the pattern table (R43, R203). -/
def patTable : List PatEntry :=
  [pt0, pt1, pt2, pt3, pt4, pt5, pt6, pt7] ++ [pt8, pt9, pt10, pt11, pt12, pt13, pt14, pt15]

/-! ## The construction of the table (R200, R202) -/

/-- The stop check of an entry (R200, R202). -/
inductive StopCheck where
  /-- No stop check: a leaf. -/
  | none
  /-- The next tag is `1x`. -/
  | oneX
  /-- The next tag is `11`. -/
  | oneOne
  deriving DecidableEq, Repr

/-- Window offset behind the records of the classes `cs`: `OFF[n]` (R200). -/
def seqBits : List WClass → Nat
  | [] => 0
  | c :: cs => c.recLen + seqBits cs

/-- The field `v` of two window bits whose upper one stands at window offset `off` (R200: bits `31-off`, `30-off`). -/
def tagAt (v : BitVec 2) (off : Nat) : Word := (v.setWidth 32) <<< (30 - off)

/-- The `MASK`, `EXPECT`, `SHIFT` and `WID` contributions of the records `cs` from window offset `off` on (R200). -/
def layRecords : List WClass → Nat → Word × Word × List Nat × List Nat
  | [], _ => (0, 0, [], [])
  | c :: cs, off =>
    let r := layRecords cs (off + c.recLen)
    (tagAt 0b11#2 off ||| r.1, tagAt c.tag off ||| r.2.1, (30 - off - c.width) :: r.2.2.1, c.width :: r.2.2.2)

/-- Four lanes of a list, 0 where the list ends (R198: `SHIFT[j] = 0`, `WID[j] = 0` for `j ≥ COUNT`). -/
def lanesOfList (xs : List Nat) : Lanes4 Nat := ⟨xs.getD 0 0, xs.getD 1 0, xs.getD 2 0, xs.getD 3 0⟩

/-- The entry of the classes `cs` with the stop check `stop` (R200). -/
def entryOf (cs : List WClass) (stop : StopCheck) : PatEntry :=
  let r := layRecords cs 0
  let off := seqBits cs
  let check : BitVec 2 := match stop with
    | .none => 0b00#2
    | .oneX => 0b10#2
    | .oneOne => 0b11#2
  ⟨r.1 ||| tagAt check off, r.2.1 ||| tagAt check off, cs.length, off, lanesOfList r.2.2.1, lanesOfList r.2.2.2⟩

/-- `build(seq, used)` (R202), `fuel` bounding the depth (at most `MAXPAT` records). -/
def buildEntries : Nat → List WClass → Nat → List PatEntry
  | 0, cs, _ => [entryOf cs .none]
  | fuel + 1, cs, used =>
    if cs.length = Config.maxPat ∨ Config.windowBits - used < 13 then [entryOf cs .none]
    else
      let extend := fun c : WClass =>
        if used + c.recLen ≤ Config.windowBits then buildEntries fuel (cs ++ [c]) (used + c.recLen) else []
      let stop := if used + WClass.c2.recLen ≤ Config.windowBits then StopCheck.oneOne else StopCheck.oneX
      extend .c0 ++ extend .c1 ++ extend .c2 ++ [entryOf cs stop]

/-- The table R202 constructs: `build([C0], 6); build([C1], 13); build([C2], 26)`. -/
def builtTable : List PatEntry :=
  buildEntries 4 [.c0] 6 ++ buildEntries 4 [.c1] 13 ++ buildEntries 4 [.c2] 26

/-! ## Vector operations (R208) -/

/-- `VBROADCAST(x)`: 16 lanes equal to `x`. -/
def vbroadcast (x : Word) : List Word := List.replicate Config.lanes x

/-- `VAND(a, b)`, lane by lane. -/
def vand (a b : List Word) : List Word := List.zipWith (fun x y => x &&& y) a b

/-- A bit mask from its bits, bit 0 first. -/
def maskOfBools : List Bool → Nat
  | [] => 0
  | b :: bs => b.toNat + 2 * maskOfBools bs

/-- `VCMPEQ(a, b)`: the 16-bit match mask `K`, bit `i` set when the lanes `i` are equal. -/
def vcmpeq (a b : List Word) : BitVec 16 :=
  BitVec.ofNat 16 (maskOfBools (List.zipWith (fun x y => decide (x = y)) a b))

/-- `KSELECT(K)` (R197): the lowest set bit of `K`; none where `K = 0`. -/
def kselect (k : BitVec 16) : Option Nat := (List.range 16).find? fun i => k.getLsbD i

/-- `VSRLV4(x, s[0..3])`: logical right shift per lane. -/
def vsrlv4 (x : Word) (s : Lanes4 Nat) : Lanes4 Word := ⟨x >>> s.l0, x >>> s.l1, x >>> s.l2, x >>> s.l3⟩

/-- `VAND4(a, w[0..3])`: `lane[j] = a.lane[j] & mask(w[j])`. -/
def vand4 (a : Lanes4 Word) (w : Lanes4 Nat) : Lanes4 Word :=
  ⟨a.l0 &&& maskBits w.l0, a.l1 &&& maskBits w.l1, a.l2 &&& maskBits w.l2, a.l3 &&& maskBits w.l3⟩

/-- Detection (R195, R196): `K = VCMPEQ(VAND(VBROADCAST(win), PT.MASK), PT.EXPECT)`. -/
def matchMask (win : Word) : BitVec 16 :=
  vcmpeq (vand (vbroadcast win) (patTable.map PatEntry.mask)) (patTable.map PatEntry.expect)

/-- Extraction (R198): `LANE = VAND4(VSRLV4(win, PT[i].SHIFT), PT[i].WID)`. -/
def extractLanes (e : PatEntry) (win : Word) : Lanes4 Word := vand4 (vsrlv4 win e.shift) e.wid

end Sys2Proof
end

