-- ==== Sys2Proof/Decode.lean ====
section
/-! DEFINITION. Decoding and encoding (30_encoding.md). The hardware reads three kinds of words: a record's bits in
the stream (R92), a 32-bit lookahead window (R195, R108), a command at the port (R109). `decode` is total on all three
and rejects by name; `encode` gives the encoding of an instruction back, from the same rules. -/

namespace Sys2Proof

/-- Why a word is no instruction. -/
inductive DecodeError where
  /-- Fewer bits than the record its tag announces (R103). -/
  | truncatedRecord
  /-- Bits are left over behind one record. -/
  | trailingBits
  /-- The leading tag of the window is `11`: no pattern entry matches (R199, R205). -/
  | noPattern
  /-- A reserved command code (R110). -/
  | reservedCommand (cmd : BitVec 4)
  deriving DecidableEq, Repr

/-- What the hardware reads as one unit: a record's bits in stream order (R92), a window (R195), a command (R109). -/
inductive Encoding where
  | record (bits : List Bool)
  | window (win : Word)
  | command (c : CommandWord)
  deriving DecidableEq, Repr

/-! ## Records (R92 to R96, R103, R104) -/

/-- The `n` low bits of `v`, most significant first. -/
def bitsOf : Nat → Nat → List Bool
  | 0, _ => []
  | n + 1, v => v.testBit n :: bitsOf n v

/-- The number whose bits, most significant first, are `acc` followed by `bits`. -/
def numOf (bits : List Bool) (acc : Nat) : Nat := bits.foldl (fun a b => 2 * a + b.toNat) acc

/-- Take `n` bits off the front; none where there are fewer. -/
def takeBits (n : Nat) (bits : List Bool) : Option (Nat × List Bool) :=
  if n ≤ bits.length then some (numOf (bits.take n) 0, bits.drop n) else none

/-- The record instruction of tag `t` and payload `p` (R106). -/
def recordInstr (t : BitVec 2) (p : Word) : Instr :=
  match WClass.ofTag t with
  | .c0 => .recC0 (p.setWidth 4)
  | .c1 => .recC1 (p.setWidth 11)
  | .c2 => .recC2 (p.setWidth 24)
  | .c3 => .recC3 p

/-- Decode one record at the front of a bit string and give the bits behind it (R103: the tag alone fixes the length). -/
def decodeRecord (bits : List Bool) : Except DecodeError (Instr × List Bool) :=
  match takeBits Config.tagBits bits with
  | none => .error .truncatedRecord
  | some (t, rest) =>
    match takeBits (WClass.ofTag (BitVec.ofNat 2 t)).width rest with
    | none => .error .truncatedRecord
    | some (p, behind) => .ok (recordInstr (BitVec.ofNat 2 t) (BitVec.ofNat 32 p), behind)

/-! ## Windows (R196, R197, R203) -/

/-- The instruction of table entry `i` read from the window `win`: the payloads at the entry's offsets (R198, R220 to
R235) and the untested bits. -/
def patInstr (i : Nat) (win : Word) : Option Instr :=
  match i with
  | 0 => some (.pat0 (win.extractLsb' 26 4) (win.extractLsb' 20 4) (win.extractLsb' 14 4) (win.extractLsb' 8 4)
      (win.extractLsb' 0 8))
  | 1 => some (.pat1 (win.extractLsb' 26 4) (win.extractLsb' 20 4) (win.extractLsb' 14 4) (win.extractLsb' 1 11)
      (win.extractLsb' 0 1))
  | 2 => some (.pat2 (win.extractLsb' 26 4) (win.extractLsb' 20 4) (win.extractLsb' 14 4) (win.extractLsb' 0 13))
  | 3 => some (.pat3 (win.extractLsb' 26 4) (win.extractLsb' 20 4) (win.extractLsb' 7 11) (win.extractLsb' 0 7))
  | 4 => some (.pat4 (win.extractLsb' 26 4) (win.extractLsb' 20 4) (win.extractLsb' 0 19))
  | 5 => some (.pat5 (win.extractLsb' 26 4) (win.extractLsb' 13 11) (win.extractLsb' 7 4) (win.extractLsb' 0 7))
  | 6 => some (.pat6 (win.extractLsb' 26 4) (win.extractLsb' 13 11) (win.extractLsb' 0 11))
  | 7 => some (.pat7 (win.extractLsb' 26 4) (win.extractLsb' 13 11) (win.extractLsb' 0 12))
  | 8 => some (.pat8 (win.extractLsb' 26 4) (win.extractLsb' 0 24))
  | 9 => some (.pat9 (win.extractLsb' 26 4) (win.extractLsb' 0 24))
  | 10 => some (.pat10 (win.extractLsb' 19 11) (win.extractLsb' 13 4) (win.extractLsb' 7 4) (win.extractLsb' 0 7))
  | 11 => some (.pat11 (win.extractLsb' 19 11) (win.extractLsb' 13 4) (win.extractLsb' 0 11))
  | 12 => some (.pat12 (win.extractLsb' 19 11) (win.extractLsb' 13 4) (win.extractLsb' 0 12))
  | 13 => some (.pat13 (win.extractLsb' 19 11) (win.extractLsb' 6 11) (win.extractLsb' 0 6))
  | 14 => some (.pat14 (win.extractLsb' 19 11) (win.extractLsb' 0 18))
  | 15 => some (.pat15 (win.extractLsb' 6 24) (win.extractLsb' 0 6))
  | _ => none

/-- Decode a window (R196, R197): the entry that matches, selected from the match mask `K`; rejected where `K = 0`. -/
def decodeWindow (win : Word) : Except DecodeError Instr :=
  match (kselect (matchMask win)).bind fun i => patInstr i win with
  | some i => .ok i
  | none => .error .noPattern

/-! ## Commands (R109, R110) -/

/-- Decode a command. Operand bits that a command does not read are ignored (R109). -/
def decodeCommand (c : CommandWord) : Except DecodeError Instr :=
  if c.cmd = 0b0000#4 then .ok .encStart
  else if c.cmd = 0b0001#4 then .ok (.encPush (c.opa.setWidth 32))
  else if c.cmd = 0b0010#4 then .ok .encFinish
  else if c.cmd = 0b0100#4 then .ok (.sdecStart c.opa c.opb)
  else if c.cmd = 0b1000#4 then .ok (.bdecStart c.opa c.opb)
  else .error (.reservedCommand c.cmd)

/-- Decode one unit, whole. -/
def decode : Encoding → Except DecodeError Instr
  | .record bits =>
    match decodeRecord bits with
    | .ok (i, []) => .ok i
    | .ok (_, _ :: _) => .error .trailingBits
    | .error e => .error e
  | .window win => decodeWindow win
  | .command c => decodeCommand c

/-! ## The encoder -/

/-- The bits of a record of class `c` with the payload `p` (R92, R97): tag first, then payload, each most significant
bit first. -/
def recordBits (c : WClass) (p : Nat) : List Bool := bitsOf Config.tagBits c.tag.toNat ++ bitsOf c.width p

/-- The window of `PAT0` (R203, R220). -/
def winPat0 (a b c d : BitVec 4) (x : BitVec 8) : Word := 0b00#2 ++ a ++ 0b00#2 ++ b ++ 0b00#2 ++ c ++ 0b00#2 ++ d ++ x
/-- The window of `PAT1` (R203, R221). -/
def winPat1 (a b c : BitVec 4) (d : BitVec 11) (x : BitVec 1) : Word :=
  0b00#2 ++ a ++ 0b00#2 ++ b ++ 0b00#2 ++ c ++ 0b01#2 ++ d ++ x
/-- The window of `PAT2` (R203, R222). -/
def winPat2 (a b c : BitVec 4) (x : BitVec 13) : Word := 0b00#2 ++ a ++ 0b00#2 ++ b ++ 0b00#2 ++ c ++ 0b1#1 ++ x
/-- The window of `PAT3` (R203, R223). -/
def winPat3 (a b : BitVec 4) (c : BitVec 11) (x : BitVec 7) : Word := 0b00#2 ++ a ++ 0b00#2 ++ b ++ 0b01#2 ++ c ++ x
/-- The window of `PAT4` (R203, R224). -/
def winPat4 (a b : BitVec 4) (x : BitVec 19) : Word := 0b00#2 ++ a ++ 0b00#2 ++ b ++ 0b1#1 ++ x
/-- The window of `PAT5` (R203, R225). -/
def winPat5 (a : BitVec 4) (b : BitVec 11) (c : BitVec 4) (x : BitVec 7) : Word :=
  0b00#2 ++ a ++ 0b01#2 ++ b ++ 0b00#2 ++ c ++ x
/-- The window of `PAT6` (R203, R226). -/
def winPat6 (a : BitVec 4) (b c : BitVec 11) : Word := 0b00#2 ++ a ++ 0b01#2 ++ b ++ 0b01#2 ++ c
/-- The window of `PAT7` (R203, R227). -/
def winPat7 (a : BitVec 4) (b : BitVec 11) (x : BitVec 12) : Word := 0b00#2 ++ a ++ 0b01#2 ++ b ++ 0b1#1 ++ x
/-- The window of `PAT8` (R203, R228). -/
def winPat8 (a : BitVec 4) (b : BitVec 24) : Word := 0b00#2 ++ a ++ 0b10#2 ++ b
/-- The window of `PAT9` (R203, R229). -/
def winPat9 (a : BitVec 4) (x : BitVec 24) : Word := 0b00#2 ++ a ++ 0b11#2 ++ x
/-- The window of `PAT10` (R203, R230). -/
def winPat10 (a : BitVec 11) (b c : BitVec 4) (x : BitVec 7) : Word := 0b01#2 ++ a ++ 0b00#2 ++ b ++ 0b00#2 ++ c ++ x
/-- The window of `PAT11` (R203, R231). -/
def winPat11 (a : BitVec 11) (b : BitVec 4) (c : BitVec 11) : Word := 0b01#2 ++ a ++ 0b00#2 ++ b ++ 0b01#2 ++ c
/-- The window of `PAT12` (R203, R232). -/
def winPat12 (a : BitVec 11) (b : BitVec 4) (x : BitVec 12) : Word := 0b01#2 ++ a ++ 0b00#2 ++ b ++ 0b1#1 ++ x
/-- The window of `PAT13` (R203, R233). -/
def winPat13 (a b : BitVec 11) (x : BitVec 6) : Word := 0b01#2 ++ a ++ 0b01#2 ++ b ++ x
/-- The window of `PAT14` (R203, R234). -/
def winPat14 (a : BitVec 11) (x : BitVec 18) : Word := 0b01#2 ++ a ++ 0b1#1 ++ x
/-- The window of `PAT15` (R203, R235). -/
def winPat15 (a : BitVec 24) (x : BitVec 6) : Word := 0b10#2 ++ a ++ x

/-- The command word with the code `cmd` and the operands given (R109). -/
def commandOf (cmd : BitVec 4) (opa opb : BitVec 64) : Encoding := .command ⟨cmd, opa, opb⟩

/-- The encoding of an instruction: a record's bits (R92 to R96), a pattern entry's window (R203), a command's code and
operands, operand bits it ignores 0 (R109). -/
def encode : Instr → Encoding
  | .recC0 v => .record (recordBits .c0 v.toNat)
  | .recC1 v => .record (recordBits .c1 v.toNat)
  | .recC2 v => .record (recordBits .c2 v.toNat)
  | .recC3 v => .record (recordBits .c3 v.toNat)
  | .pat0 a b c d x => .window (winPat0 a b c d x)
  | .pat1 a b c d x => .window (winPat1 a b c d x)
  | .pat2 a b c x => .window (winPat2 a b c x)
  | .pat3 a b c x => .window (winPat3 a b c x)
  | .pat4 a b x => .window (winPat4 a b x)
  | .pat5 a b c x => .window (winPat5 a b c x)
  | .pat6 a b c => .window (winPat6 a b c)
  | .pat7 a b x => .window (winPat7 a b x)
  | .pat8 a b => .window (winPat8 a b)
  | .pat9 a x => .window (winPat9 a x)
  | .pat10 a b c x => .window (winPat10 a b c x)
  | .pat11 a b c => .window (winPat11 a b c)
  | .pat12 a b x => .window (winPat12 a b x)
  | .pat13 a b x => .window (winPat13 a b x)
  | .pat14 a x => .window (winPat14 a x)
  | .pat15 a x => .window (winPat15 a x)
  | .encStart => commandOf 0b0000#4 0 0
  | .encPush v => commandOf 0b0001#4 (v.setWidth 64) 0
  | .encFinish => commandOf 0b0010#4 0 0
  | .sdecStart wc vc => commandOf 0b0100#4 wc vc
  | .bdecStart wc vc => commandOf 0b1000#4 wc vc

/-! ## Words of the opcode table -/

/-- Whether a number is one of the five assigned command codes (R109, R110). -/
def assignedCode (w : Nat) : Bool := w = 0 || w = 1 || w = 2 || w = 4 || w = 8

/-- Whether the `w` of 32 bits is the 26-bit number of a `REC.C2`: its upper six bits 0, the tag 10 below them. -/
def isC2Number (w : Nat) : Bool := w / 2 ^ 24 = 2

/-- The record whose `n` bits are the number `w`, its first bit the most significant. -/
def recordForm (n w : Nat) : Option Encoding := if w < 2 ^ n then some (.record (bitsOf n w)) else none

/-- The command with the code `w`, its operands 0. -/
def commandForm (w : Nat) : Option Encoding := if w < 2 ^ 4 then some (commandOf (BitVec.ofNat 4 w) 0 0) else none

/-- The unit that an opcode-table number stands for (log 14). The table numbers rows of three kinds, and rows of two
kinds meet where `nbits` is rounded up to whole bytes: the narrower row is taken first (a command of 4 bits before a
`REC.C0` of 6, a `REC.C2` of 26 bits before a window of 32). Operand words above `nbits` are 0. -/
def tableForm (nbits w : Nat) : Option Encoding :=
  match nbits with
  | 4 => commandForm w
  | 6 => recordForm 6 w
  | 8 => if assignedCode w then commandForm w else recordForm 6 w
  | 13 => recordForm 13 w
  | 16 => recordForm 13 w
  | 26 => recordForm 26 w
  | 32 => if isC2Number w then recordForm 26 w else if w < 2 ^ 32 then some (.window (BitVec.ofNat 32 w)) else none
  | 34 => recordForm 34 w
  | 40 => recordForm 34 w
  | _ => none

/-- The instruction the decoder reads from the opcode-table number `w` of `nbits` bits; none where it rejects it. -/
def decodeTableWord (nbits w : Nat) : Option Instr :=
  (tableForm nbits w).bind fun e => (decode e).toOption

end Sys2Proof
end

