-- ==== Sys2Proof/Machine/State.lean ====
section
/-! DEFINITION. The state of the codec core as plain data (10_state.md, 20_memory.md), the state after `RESET`, and the
reasons a step can stop. Fields that are the model's own are marked with their log entry. -/

namespace Sys2Proof.Machine

/-- `ENC.STATE` (R27). -/
inductive EncState where
  | idle | busy | done
  deriving DecidableEq, Repr

/-- `DEC.STATE` (R37). -/
inductive DecState where
  | idle | run | done | fault
  deriving DecidableEq, Repr

/-- `DEC.FAULT_CODE` (R38). -/
inductive FaultCode where
  | none | wordUnderrun
  deriving DecidableEq, Repr

/-- A word-indexed memory (R60): the elements that have been written, as (index, element) pairs, indices strictly
rising; an index that is not listed has not been written (log 7, log 9). -/
abbrev Mem := List (Nat × Word)

/-- The encoder's registers (R22 to R27). -/
structure Enc where
  /-- `ENC.ACC` (R22). -/
  acc : Buffer
  /-- `ENC.NBITS` (R23). -/
  nbits : Fill
  /-- `ENC.WCOUNT` (R24). -/
  wcount : Count
  /-- `ENC.BIT_COUNT` (R25). -/
  bitCount : Count
  /-- `ENC.VALUE_COUNT` (R26). -/
  valueCount : Count
  /-- `ENC.STATE` (R27). -/
  state : EncState
  /-- ENC is stuck at a word write beyond `WMEM_CAP` (R69, R286; log 4). -/
  stuck : Bool
  deriving DecidableEq, Repr

/-- A decoder's bit buffer registers (R29 to R31). -/
structure BB where
  /-- `BB.BUF` (R29). -/
  buf : Buffer
  /-- `BB.NAVAIL` (R30). -/
  navail : Fill
  /-- `BB.WIDX` (R31). -/
  widx : Count
  deriving DecidableEq, Repr

/-- A decoder's registers (R34 to R38), its bit buffer and its output memory (R60). -/
structure Dec where
  /-- `DEC.BB` (R32). -/
  bb : BB
  /-- `DEC.WORD_COUNT` (R34). -/
  wordCount : Count
  /-- `DEC.VALUE_COUNT` (R35). -/
  valueCount : Count
  /-- `DEC.OCUR` (R36). -/
  ocur : Count
  /-- `DEC.STATE` (R37). -/
  state : DecState
  /-- `DEC.FAULT_CODE` (R38). -/
  faultCode : FaultCode
  /-- The decoder is stuck at a slot write beyond `VOUT_CAP` (R69, R287; log 4). -/
  stuck : Bool
  /-- Some `n` when no claim is made about the words of this run, its free-value number being `n`: `WMEM[0..WORD_COUNT)` was
  written during the run (R78, R289; log 8), or the run was started while ENC was `BUSY` (R288; log 23). -/
  taint : Option Nat
  /-- `VOUT` (R60). -/
  vout : Mem
  /-- `VOUT_CAP` (R10, R61; log 5). -/
  voutCap : Nat
  deriving DecidableEq, Repr

/-- What the host does at one time step besides `RESET`. -/
inductive HostAction where
  /-- A command on the command port (R109). -/
  | command (c : CommandWord)
  /-- The host writes word `i` of `WMEM` (R60: "or the host when it supplies an artifact made elsewhere"). -/
  | writeWord (i : Count) (v : Word)
  /-- Nothing: the agents take their own steps. -/
  | none
  deriving DecidableEq, Repr

/-- The block's inputs at one time step: the `RESET` input (R280) and what the host does. What becomes of a host write
that comes with `RESET` the spec leaves open; the model drops it (log 22). -/
structure Input where
  reset : Bool
  action : HostAction
  deriving DecidableEq, Repr

/-- The state of the machine. -/
structure State where
  /-- ENC. -/
  enc : Enc
  /-- SDEC. -/
  sdec : Dec
  /-- BDEC. -/
  bdec : Dec
  /-- `WMEM` (R60). -/
  wmem : Mem
  /-- `WMEM_CAP` (R10, R61; log 5). -/
  wmemCap : Nat
  /-- The model's own: the indices, strictly rising, of the words of `WMEM` that ENC wrote without having been `DONE` since,
  and that the host has not supplied since, nor word 0 (R285 item 1, U7; log 23). -/
  unfinished : List Nat
  /-- The model's own: the inputs of the coming time steps, next first (log 1). -/
  inputs : List Input
  /-- The model's own: the decoder that executes a record instruction (log 3). -/
  actor : DecId
  /-- The model's own: the number the next free value is taken at (log 2). -/
  free : Nat
  deriving DecidableEq, Repr

/-- The ENC registers after `RESET` (R49, R280). -/
def Enc.reset : Enc :=
  { acc := 0, nbits := 0, wcount := 0, bitCount := 0, valueCount := 0, state := .idle, stuck := false }

/-- A decoder's bit buffer after `RESET` and after `BB.init` (R49, R151). -/
def BB.reset : BB := { buf := 0, navail := 0, widx := 0 }

/-- A decoder after `RESET` (R49, R280): `VOUT` and its capacity are not touched (R281). -/
def Dec.resetOver (vout : Mem) (cap : Nat) : Dec :=
  { bb := BB.reset, wordCount := 0, valueCount := 0, ocur := 0, state := .idle, faultCode := .none, stuck := false,
    taint := none, vout := vout, voutCap := cap }

/-- The machine right after the first `RESET` (R49, R280 to R283): every register as R49 says, no word and no slot
written (log 7), capacities the whole index space (log 5), no encode left unfinished (log 23), no input waiting (log 1). -/
def State.reset : State :=
  { enc := Enc.reset
    sdec := Dec.resetOver [] (2 ^ 64)
    bdec := Dec.resetOver [] (2 ^ 64)
    wmem := []
    wmemCap := 2 ^ 64
    unfinished := []
    inputs := []
    actor := .sdec
    free := 0 }

/-- Why the machine stops with a fault. `WordUnderrun`, the hardware's one fault (R252), is not among these: it is taken,
as a next state (R256). -/
inductive Fault where
  /-- A decoder's refill asks for word `i` of `WMEM`, `WMEM_CAP ≤ i < WORD_COUNT`: the word does not exist. Raised by a
  record or a pattern entry of decoder `d`, and by its fetch. R285 item 3 (`wc <= WMEM_CAP`): "If 1, 3 or 4 fails the
  model refuses (no claim)". Safe: the model stops where hardware may go on. -/
  | noWordToPull (d : DecId) (i : Nat)
  /-- The host writes word `i` of `WMEM`, `WMEM_CAP ≤ i`: the word does not exist (R60). Raised by the step that takes
  that input. Safe: the model stops where hardware may go on. -/
  | noWordToWrite (i : Nat)
  deriving DecidableEq, Repr

/-- Why an instruction is refused. -/
inductive Refusal where
  /-- The instruction has no meaning yet in this model. Raised by an arm of `exec`; no arm raises it. Safe. -/
  | notModelled (mnemonic : String)
  deriving DecidableEq, Repr

end Sys2Proof.Machine
end

