-- ==== Sys2Proof/Machine/Flags.lean ====
section
/-! DEFINITION. The block has no arithmetic flags (R40). Its status is the state fields with their codes (R27, R37, R38),
the derived bit position `POS` (R33), the derived `BDEC.TAIL` (R39), the `DONE` test (R172, R192), and which agents have
an enabled step (R172, R192, R271). -/

namespace Sys2Proof.Machine

/-- The code of `ENC.STATE` (R27, D23): `IDLE = 0`, `BUSY = 1`, `DONE = 2`. -/
def EncState.code : EncState → BitVec 2
  | .idle => 0
  | .busy => 1
  | .done => 2

/-- The code of `DEC.STATE` (R37, D23): `IDLE = 0`, `RUN = 1`, `DONE = 2`, `FAULT = 3`. -/
def DecState.code : DecState → BitVec 2
  | .idle => 0
  | .run => 1
  | .done => 2
  | .fault => 3

/-- The code of `DEC.FAULT_CODE` (R38, D13): 0 no fault, 1 `WordUnderrun`. -/
def FaultCode.code : FaultCode → BitVec 2
  | .none => 0
  | .wordUnderrun => 1

/-- `POS = 32 * BB.WIDX - BB.NAVAIL` (R33), a natural number. -/
def BB.pos (bb : BB) : Nat := 32 * bb.widx.toNat - bb.navail.toNat

/-- The encoder's analogue of `POS` (R33): the number of bits appended so far. -/
def Enc.bitsAppended (e : Enc) : Nat := 32 * e.wcount.toNat + e.nbits.toNat

/-- `rem = VALUE_COUNT - OCUR` (R192 sub-step 1). -/
def Dec.remaining (dec : Dec) : Count := dec.valueCount - dec.ocur

/-- `BDEC.TAIL` (R39): fewer than `MARGIN` values remain. -/
def Dec.tail (dec : Dec) : Bool := dec.remaining.toNat < Config.margin

/-- Whether the step of decoder `d` is a batch-mode step (R193): BDEC, `rem ≥ 16`. -/
def Dec.batchMode (dec : Dec) (d : DecId) : Bool := d = .bdec && !dec.tail

/-- A decoder has an enabled step (R172, R192: exactly when `STATE = RUN`), unless it is stuck (R69, R292). -/
def Dec.enabled (dec : Dec) : Bool := dec.state = .run && !dec.stuck

/-- ENC accepts `ENC_PUSH` and `ENC_FINISH` (R123, R128: exactly when `STATE = BUSY`), unless it is stuck (R69). -/
def Enc.accepts (e : Enc) : Bool := e.state = .busy && !e.stuck

/-- The state a START leaves a decoder in (R171, R191): `RUN` if `vc > 0`, `DONE` if `vc = 0`. -/
def startState (vc : Count) : DecState := if vc = 0 then .done else .run

/-- Advance `OCUR` by `n`, then the `DONE` test: `if OCUR = VALUE_COUNT then STATE <- DONE` (R172, R192). -/
def Dec.advance (dec : Dec) (n : Nat) : Dec :=
  { dec with
    ocur := dec.ocur + BitVec.ofNat 64 n
    state := if dec.ocur + BitVec.ofNat 64 n = dec.valueCount then .done else dec.state }

end Sys2Proof.Machine
end

