-- ==== Sys2Proof/Machine/Ops.lean ====
section
/-! DEFINITION. The named operations over memories and registers: element reads and writes (R60 to R69), ENC's append and
flush (R124 to R126), BB's primitives (R151 to R159), `DEC.record` (R179), the decoders' slot and chunk writes (R68,
R173), taking the one exception `WordUnderrun` (R256), the ways out of it (R260), and `RESET` (R280). -/

namespace Sys2Proof.Machine

/-! ## Memories -/

/-- Element `a` of a memory; none where nothing has written it. -/
def Mem.read : Mem → Nat → Option Word
  | [], _ => none
  | (b, w) :: m, a => if a = b then some w else Mem.read m a

/-- `MemWrite(m, a, v)` (R15): write one element, keeping the indices strictly rising. -/
def Mem.write : Mem → Nat → Word → Mem
  | [], a, v => [(a, v)]
  | (b, w) :: m, a, v =>
    if a < b then (a, v) :: (b, w) :: m else if a = b then (a, v) :: m else (b, w) :: Mem.write m a v

/-- Every listed index is above `a`. -/
def Mem.above (a : Nat) : Mem → Bool
  | [] => true
  | (b, _) :: m => decide (a < b) && Mem.above a m

/-- The canonical form (log 9): indices strictly rising. -/
def Mem.wf : Mem → Bool
  | [] => true
  | (a, _) :: m => Mem.above a m && Mem.wf m

/-- Consecutive `MemWrite`s from index `a` on, in rising order. -/
def Mem.writeAll (m : Mem) (a : Nat) : List Word → Mem
  | [] => m
  | v :: vs => Mem.writeAll (m.write a v) (a + 1) vs

/-! ## The decoders in the state -/

/-- The registers of decoder `d`. -/
def State.dec (s : State) : DecId → Dec
  | .sdec => s.sdec
  | .bdec => s.bdec

/-- Replace the registers of decoder `d`. -/
def State.setDec (s : State) (d : DecId) (x : Dec) : State :=
  match d with
  | .sdec => { s with sdec := x }
  | .bdec => { s with bdec := x }

/-! ## `WMEM` -/

/-- The decoder is in a run that reads word `i` of `WMEM` (R289: `WMEM[0..WORD_COUNT)` while in `RUN`). -/
def Dec.readsWord (dec : Dec) (i : Nat) : Bool := dec.state = .run && decide (i < dec.wordCount.toNat)

/-- A write of word `i` during a run that reads it: what the decoder pulls from then on is free value number `n` (R78,
R289; log 8). -/
def Dec.noteWrite (dec : Dec) (i n : Nat) : Dec := if dec.readsWord i then { dec with taint := some n } else dec

/-- `MemWrite(WMEM, i, v)` (R66, R70); none where the word does not exist (R69). -/
def State.writeWmem (s : State) (i : Nat) (v : Word) : Option State :=
  if i < s.wmemCap then
    some { s with
      wmem := s.wmem.write i v
      sdec := s.sdec.noteWrite i s.free
      bdec := s.bdec.noteWrite i (s.free + 1)
      free := if s.sdec.readsWord i || s.bdec.readsWord i then s.free + 2 else s.free }
  else none

/-- The word that stands in `WMEM` at index `i` (R101: every index holds one); one that nothing has written holds a free
value (R281; log 7). -/
def State.held (s : State) (i : Nat) : Word := (s.wmem.read i).getD (Config.powerUpWord i)

/-- The words of `WMEM` as decoders find them: the word that stands there, but for a word of an unfinished encode, of which
no claim is made (R285 item 1; log 23). -/
def State.words (s : State) (i : Nat) : Word :=
  if i ∈ s.unfinished then Config.unfinishedWord i (s.held i) else s.held i

/-- `MemRead(WMEM, i)` by decoder `d` (R66); none where the word does not exist. In a run of whose words no claim is made it
is a free value (R78, log 8; R288, log 23). -/
def State.wordAt (s : State) (d : DecId) (i : Nat) : Option Word :=
  if i < s.wmemCap then
    some (match (s.dec d).taint with
      | some n => Config.mixedWord n i
      | none => s.words i)
  else none

/-! ## Words of an unfinished encode (R285 item 1, R288, U7; log 23) -/

/-- `i` put into a list of indices, keeping them strictly rising. -/
def markIndex : List Nat → Nat → List Nat
  | [], i => [i]
  | j :: js, i => if i < j then i :: j :: js else if i = j then j :: js else j :: markIndex js i

/-- The words of unfinished encodes after the host has supplied word `i`: that word is none. With word 0, where every
artifact begins (R62), the artifact in `WMEM` is the host's, and what an abandoned encode left behind it is garbage that
decoders parse as it stands (R255; log 23). -/
def unmarkIndex (l : List Nat) (i : Nat) : List Nat := if i = 0 then [] else l.filter (· ≠ i)

/-- ENC is `BUSY` and may write words of `WMEM[0..wc)`: it "owns its output buffer exclusively during construction", and
no decoder may be started on them (R288, R290 H4). -/
def State.encOwns (s : State) (wc : Count) : Bool := decide (s.enc.state = .busy) && decide (0 < wc.toNat)

/-! ## ENC's primitives -/

/-- `mask64(n) = 2^n - 1` (R125). -/
def mask64 (n : Nat) : Buffer := BitVec.ofNat 64 (2 ^ n - 1)

/-- `ENC.append(b, k)` (R124). -/
def Enc.append (e : Enc) (b : Buffer) (k : Nat) : Enc :=
  { e with acc := (e.acc <<< k) ||| b, nbits := e.nbits + BitVec.ofNat 6 k }

/-- The word a flush emits (R125): `ENC.ACC[NBITS-1 : NBITS-32]`. -/
def Enc.topWord (e : Enc) : Word := (e.acc >>> (e.nbits.toNat - 32)).setWidth 32

/-- ENC behind the emission of a full word (R125 sub-step 3). -/
def Enc.emitted (e : Enc) : Enc :=
  { e with
    wcount := e.wcount + 1
    nbits := e.nbits - 32
    acc := e.acc &&& mask64 (e.nbits.toNat - 32) }

/-- `ENC.append(b, k)` on the state. -/
def State.encAppend (s : State) (b : Buffer) (k : Nat) : State := { s with enc := s.enc.append b k }

/-- `MemWrite(WMEM, ENC.WCOUNT, v)` (R70, R125): the word is one of an encode that is not finished (log 23); none where it
does not exist (R69). -/
def State.encWrite (s : State) (v : Word) : Option State :=
  (s.writeWmem s.enc.wcount.toNat v).map fun s' =>
    { s' with unfinished := markIndex s'.unfinished s.enc.wcount.toNat }

/-- `ENC.flush()` (R125); none where the word write goes beyond `WMEM_CAP` (R69). -/
def State.encFlush (s : State) : Option State :=
  if 32 ≤ s.enc.nbits.toNat then
    (s.encWrite s.enc.topWord).map fun s' => { s' with enc := s'.enc.emitted }
  else some s

/-- The counter update of a push of class `c` (R126). -/
def Enc.count (e : Enc) (c : WClass) : Enc :=
  { e with bitCount := e.bitCount + BitVec.ofNat 64 c.recLen, valueCount := e.valueCount + 1 }

/-- The sub-steps of `ENC_PUSH(v)` (R123); none where a word write goes beyond `WMEM_CAP` (R69). -/
def State.pushValue (s : State) (v : Word) : Option State :=
  let c := classOf v
  ((s.encAppend (c.tag.setWidth 64) Config.tagBits).encFlush).bind fun s1 =>
    ((s1.encAppend ((payloadOf v c.width).setWidth 64) c.width).encFlush).map fun s2 =>
      { s2 with enc := s2.enc.count c }

/-- The final word (R128): the pending bits in `[31 : 32-NBITS]`, zeros below. -/
def Enc.lastWord (e : Enc) : Word := (e.acc <<< (32 - e.nbits.toNat)).setWidth 32

/-- A decoder whose run reads a word of the list `l`, which ceases to be unfinished: what it pulls from then on is free
value number `n` (R288: no decoder is left running on words that ENC may write; log 23). -/
def Dec.noteFinish (dec : Dec) (l : List Nat) (n : Nat) : Dec :=
  if l.any dec.readsWord then { dec with taint := some n } else dec

/-- `ENC.STATE <- DONE` with ENC's registers `e` (R128): no word is one of an unfinished encode any longer. The artifact's
words, `WMEM[0..WCOUNT)`, are completely written (R74, R285 item 1), and the words behind it that an abandoned encode left
are garbage that decoders parse as it stands (R122, R255; log 23). -/
def State.completeArtifact (s : State) (e : Enc) : State :=
  { s with
    enc := { e with state := .done }
    sdec := s.sdec.noteFinish s.unfinished s.free
    bdec := s.bdec.noteFinish s.unfinished (s.free + 1)
    unfinished := []
    free := if s.unfinished.any s.sdec.readsWord || s.unfinished.any s.bdec.readsWord then s.free + 2 else s.free }

/-- The sub-steps of `ENC_FINISH` (R128); none where the word write goes beyond `WMEM_CAP` (R69). -/
def State.finishStream (s : State) : Option State :=
  if s.enc.nbits = 0 then some (s.completeArtifact s.enc)
  else
    (s.writeWmem s.enc.wcount.toNat s.enc.lastWord).map fun s' =>
      s'.completeArtifact { s'.enc with wcount := s'.enc.wcount + 1, nbits := 0, acc := 0 }

/-- ENC stuck at a word write beyond `WMEM_CAP` (R69, R286): nothing else changes, the step that needs the write does not
take place (R15 `refuse`; log 4). -/
def State.stickEnc (s : State) : State := { s with enc := { s.enc with stuck := true } }

/-! ## BB's primitives (41_bitbuffer.md) -/

/-- What a primitive that may pull a word leaves. -/
inductive Pull where
  /-- Done: the bit buffer behind it. -/
  | ok (bb : BB)
  /-- `raise WordUnderrun` (R152); `bb` is what the sub-steps before the `raise` left (R257). -/
  | underrun (bb : BB)
  /-- The word to pull, `i`, is below `WORD_COUNT` and does not exist (log 6). -/
  | noWord (i : Nat)
  deriving DecidableEq, Repr

/-- Go on with `f` where the primitive is done. -/
def Pull.andThen (p : Pull) (f : BB → Pull) : Pull :=
  match p with
  | .ok bb => f bb
  | .underrun bb => .underrun bb
  | .noWord i => .noWord i

/-- The bit buffer with `word` pulled into its free bits (R152 sub-step 3). -/
def BB.pulled (bb : BB) (word : Word) : BB :=
  { buf := bb.buf ||| (word.setWidth 64 <<< (32 - bb.navail.toNat)), navail := bb.navail + 32, widx := bb.widx + 1 }

/-- `BB.refill()` (R152) over the words `src` with `WORD_COUNT = wc`. -/
def BB.refill (bb : BB) (src : Nat → Option Word) (wc : Count) : Pull :=
  if wc ≤ bb.widx then .underrun bb
  else
    match src bb.widx.toNat with
    | some word => .ok (bb.pulled word)
    | none => .noWord bb.widx.toNat

/-- `BB.need(k)` (R153). -/
def BB.need (bb : BB) (src : Nat → Option Word) (wc : Count) (k : Nat) : Pull :=
  if bb.navail.toNat < k then bb.refill src wc else .ok bb

/-- `BB.peek(w)` (R154): `BB.BUF[63 : 64-w]`. -/
def BB.peek (bb : BB) (w : Nat) : Word := (bb.buf >>> (64 - w)).setWidth 32

/-- `BB.consume(w)` (R155). -/
def BB.consume (bb : BB) (w : Nat) : BB :=
  { bb with buf := bb.buf <<< w, navail := bb.navail - BitVec.ofNat 6 w }

/-- `BB.need(w); BB.consume(w)`: what `BB.read(w)` (R159) does to the registers. -/
def BB.take (bb : BB) (src : Nat → Option Word) (wc : Count) (w : Nat) : Pull :=
  (bb.need src wc w).andThen fun b => .ok (b.consume w)

/-- What `DEC.record()` does to the registers for a record of class `c` (R179 sub-steps 1, 3, 5, 7): `POS` moves by
`RECLEN[c]`. -/
def BB.passRecord (bb : BB) (src : Nat → Option Word) (wc : Count) (c : WClass) : Pull :=
  (bb.take src wc Config.tagBits).andThen fun b => b.take src wc c.width

/-- What `DEC.record()` answers: the tag, the payload zero-extended and the bit buffer behind the record, or the stop. -/
inductive RecordRead where
  | value (tag : BitVec 2) (payload : Word) (bb : BB)
  | underrun (bb : BB)
  | noWord (i : Nat)
  deriving DecidableEq, Repr

/-- `DEC.record()` from sub-step 5 on (R179), its tag `t` read and consumed. -/
def BB.payload (bb : BB) (src : Nat → Option Word) (wc : Count) (t : BitVec 2) : RecordRead :=
  match bb.need src wc (WClass.ofTag t).width with
  | .ok b => .value t (b.peek (WClass.ofTag t).width) (b.consume (WClass.ofTag t).width)
  | .underrun b => .underrun b
  | .noWord i => .noWord i

/-- `DEC.record()` (R179). -/
def BB.record (bb : BB) (src : Nat → Option Word) (wc : Count) : RecordRead :=
  match bb.need src wc Config.tagBits with
  | .ok b => (b.consume Config.tagBits).payload src wc ((b.peek Config.tagBits).setWidth 2)
  | .underrun b => .underrun b
  | .noWord i => .noWord i

/-- BDEC's window fill (R192 2a, R194) where the step is a batch-mode step; nothing otherwise. -/
def Dec.windowFill (dec : Dec) (d : DecId) (src : Nat → Option Word) : Pull :=
  if dec.batchMode d then dec.bb.need src dec.wordCount Config.windowBits else .ok dec.bb

/-! ## `VOUT` -/

/-- `MemWrite(VOUT, i, v)` (R66); none where the slot does not exist (R69). -/
def Dec.writeSlot (dec : Dec) (i : Nat) (v : Word) : Option Dec :=
  if i < dec.voutCap then some { dec with vout := dec.vout.write i v } else none

/-- `MemWrite4(VOUT, i, v0, v1, v2, v3)` (R68): four slot writes in ascending order; none where one does not exist. -/
def Dec.writeChunk (dec : Dec) (i : Nat) (v : Lanes4 Word) : Option Dec :=
  (dec.writeSlot i v.l0).bind fun d1 =>
    (d1.writeSlot (i + 1) v.l1).bind fun d2 =>
      (d2.writeSlot (i + 2) v.l2).bind fun d3 => d3.writeSlot (i + 3) v.l3

/-- A decoder stuck at a slot write beyond `VOUT_CAP` (R69, R287): nothing else changes, the step that needs the write
does not take place (R15 `refuse`; log 4). -/
def Dec.stick (dec : Dec) : Dec := { dec with stuck := true }

/-- The end of a step that decoded one value `v` and left the bit buffer `bb` (R172 sub-steps 2 to 4). -/
def Dec.storeValue (dec : Dec) (bb : BB) (v : Word) : Dec :=
  match ({ dec with bb := bb }).writeSlot dec.ocur.toNat v with
  | some x => x.advance 1
  | none => dec.stick

/-- The end of a matched step of the entry `e` with the lanes `v`, `bb` being the filled bit buffer (R192 2d, R198,
R213). -/
def Dec.storeLanes (dec : Dec) (e : PatEntry) (bb : BB) (v : Lanes4 Word) : Dec :=
  match ({ dec with bb := bb.consume e.consumed }).writeChunk dec.ocur.toNat v with
  | some x => x.advance e.count
  | none => dec.stick

/-! ## The exception, and the ways out of it -/

/-- Fault entry (R256): `STATE <- FAULT; FAULT_CODE <- 1`, nothing else. -/
def Dec.raiseUnderrun (dec : Dec) : Dec := { dec with state := .fault, faultCode := .wordUnderrun }

/-- `raise WordUnderrun` in a step of decoder `d` whose sub-steps before the `raise` left the bit buffer `bb` (R256,
R257). -/
def State.takeUnderrun (s : State) (d : DecId) (bb : BB) : State :=
  s.setDec d ({ s.dec d with bb := bb }).raiseUnderrun

/-- `D_START(wc, vc)` (R171, R191): every register the decoder's steps read is initialised (R284); with `RESET`, the one
way out of `FAULT` (R260). -/
def Dec.start (dec : Dec) (wc vc : Count) : Dec :=
  { dec with
    wordCount := wc
    valueCount := vc
    ocur := 0
    faultCode := .none
    bb := BB.reset
    state := startState vc
    stuck := false
    taint := none }

/-- What a START with `WORD_COUNT = wc` notes of its run: a free-value number where ENC owns the words, so that no claim is
made about what the run reads (R288, U7; log 23). -/
def State.startNote (s : State) (wc : Count) : Option Nat := if s.encOwns wc then some s.free else none

/-- `D_START` at the command port: refused while in `RUN`, nothing changes (R184, R238, R262; log 10). -/
def State.startDec (s : State) (d : DecId) (wc vc : Count) : State :=
  if (s.dec d).state = .run then s
  else
    ({ s with free := if s.encOwns wc then s.free + 1 else s.free }).setDec d
      { (s.dec d).start wc vc with taint := s.startNote wc }

/-- `RESET` (R280, R281): every register as R49 says; the memories and their capacities are not touched. The words of an
encode that it abandons stay unfinished (log 23). -/
def State.resetRegisters (s : State) : State :=
  { s with
    enc := Enc.reset
    sdec := Dec.resetOver s.sdec.vout s.sdec.voutCap
    bdec := Dec.resetOver s.bdec.vout s.bdec.voutCap }

/-! ## Steps of a decoder -/

/-- End a step of decoder `d`: go on with `k` where every word was there, else take the exception (R256). -/
def State.settle (s : State) (d : DecId) (p : Pull) (k : BB → State) : Host.Outcome State Fault Refusal :=
  match p with
  | .ok bb => .next (k bb)
  | .underrun bb => .next (s.takeUnderrun d bb)
  | .noWord i => .fault (.noWordToPull d i)

/-- The step in which decoder `s.actor` executes a record of class `c` with the value `v`: `SDEC.STEP` (R172), and
BDEC's tail and no-match steps (R192, R199, R211). Where the decoder has no enabled step nothing changes (R15, R271). -/
def State.recordStep (s : State) (c : WClass) (v : Word) : Host.Outcome State Fault Refusal :=
  let d := s.actor
  let dec := s.dec d
  if dec.enabled then
    s.settle d
      ((dec.windowFill d (s.wordAt d)).andThen fun b => b.passRecord (s.wordAt d) dec.wordCount c)
      fun bb => s.setDec d (dec.storeValue bb v)
  else .next s

/-- The matched batch step of BDEC for the entry `e` on the window `win` (R192 2a to 2d, R198, R213). A pattern entry
exists in batch mode only: otherwise nothing changes (R15, R68, R193). -/
def State.matchedStep (s : State) (e : PatEntry) (win : Word) : Host.Outcome State Fault Refusal :=
  if s.bdec.enabled && s.bdec.batchMode .bdec then
    s.settle .bdec (s.bdec.windowFill .bdec (s.wordAt .bdec)) fun bb =>
      s.setDec .bdec (s.bdec.storeLanes e bb (extractLanes e win))
  else .next s

end Sys2Proof.Machine
end

