-- ==== Sys2Proof/Machine/Encoder.lean ====
section
/-! DEFINITION. The meanings of ENC's commands (40_encoder.md). ENC raises nothing (R135, R251). -/

namespace Sys2Proof.Machine

/-- `ENC_START` (R122): accepted in every state. -/
def execEncStart (s : State) : Host.Outcome State Fault Refusal :=
  .next { s with
    enc := { acc := 0, nbits := 0, wcount := 0, bitCount := 0, valueCount := 0, state := .busy, stuck := false } }

/-- `ENC_PUSH(v)` (R123): refused unless `BUSY`, nothing changes (R129, R262); stuck where a word does not fit (R69). -/
def execEncPush (v : BitVec 32) (s : State) : Host.Outcome State Fault Refusal :=
  if s.enc.accepts then .next ((s.pushValue v).getD s.stickEnc) else .next s

/-- `ENC_FINISH` (R128): refused unless `BUSY`, nothing changes (R129, R262); stuck where the word does not fit (R69). -/
def execEncFinish (s : State) : Host.Outcome State Fault Refusal :=
  if s.enc.accepts then .next (s.finishStream.getD s.stickEnc) else .next s

end Sys2Proof.Machine
end

