-- ==== Sys2Proof/Machine/Patterns.lean ====
section
/-! DEFINITION. The meanings of the sixteen pattern entries (R220 to R235): BDEC's matched step (R192) with the constants
of the entry (R203) on the window that holds the instruction's fields. -/

namespace Sys2Proof.Machine

/-- `PAT0` (R220). -/
def execPat0 (a b c d : BitVec 4) (x : BitVec 8) (s : State) : Host.Outcome State Fault Refusal :=
  s.matchedStep pt0 (winPat0 a b c d x)

/-- `PAT1` (R221). -/
def execPat1 (a b c : BitVec 4) (d : BitVec 11) (x : BitVec 1) (s : State) : Host.Outcome State Fault Refusal :=
  s.matchedStep pt1 (winPat1 a b c d x)

/-- `PAT2` (R222). -/
def execPat2 (a b c : BitVec 4) (x : BitVec 13) (s : State) : Host.Outcome State Fault Refusal :=
  s.matchedStep pt2 (winPat2 a b c x)

/-- `PAT3` (R223). -/
def execPat3 (a b : BitVec 4) (c : BitVec 11) (x : BitVec 7) (s : State) : Host.Outcome State Fault Refusal :=
  s.matchedStep pt3 (winPat3 a b c x)

/-- `PAT4` (R224). -/
def execPat4 (a b : BitVec 4) (x : BitVec 19) (s : State) : Host.Outcome State Fault Refusal :=
  s.matchedStep pt4 (winPat4 a b x)

/-- `PAT5` (R225). -/
def execPat5 (a : BitVec 4) (b : BitVec 11) (c : BitVec 4) (x : BitVec 7) (s : State) :
    Host.Outcome State Fault Refusal :=
  s.matchedStep pt5 (winPat5 a b c x)

/-- `PAT6` (R226). -/
def execPat6 (a : BitVec 4) (b c : BitVec 11) (s : State) : Host.Outcome State Fault Refusal :=
  s.matchedStep pt6 (winPat6 a b c)

/-- `PAT7` (R227). -/
def execPat7 (a : BitVec 4) (b : BitVec 11) (x : BitVec 12) (s : State) : Host.Outcome State Fault Refusal :=
  s.matchedStep pt7 (winPat7 a b x)

/-- `PAT8` (R228). -/
def execPat8 (a : BitVec 4) (b : BitVec 24) (s : State) : Host.Outcome State Fault Refusal :=
  s.matchedStep pt8 (winPat8 a b)

/-- `PAT9` (R229). -/
def execPat9 (a : BitVec 4) (x : BitVec 24) (s : State) : Host.Outcome State Fault Refusal :=
  s.matchedStep pt9 (winPat9 a x)

/-- `PAT10` (R230). -/
def execPat10 (a : BitVec 11) (b c : BitVec 4) (x : BitVec 7) (s : State) : Host.Outcome State Fault Refusal :=
  s.matchedStep pt10 (winPat10 a b c x)

/-- `PAT11` (R231). -/
def execPat11 (a : BitVec 11) (b : BitVec 4) (c : BitVec 11) (s : State) : Host.Outcome State Fault Refusal :=
  s.matchedStep pt11 (winPat11 a b c)

/-- `PAT12` (R232). -/
def execPat12 (a : BitVec 11) (b : BitVec 4) (x : BitVec 12) (s : State) : Host.Outcome State Fault Refusal :=
  s.matchedStep pt12 (winPat12 a b x)

/-- `PAT13` (R233). -/
def execPat13 (a b : BitVec 11) (x : BitVec 6) (s : State) : Host.Outcome State Fault Refusal :=
  s.matchedStep pt13 (winPat13 a b x)

/-- `PAT14` (R234). -/
def execPat14 (a : BitVec 11) (x : BitVec 18) (s : State) : Host.Outcome State Fault Refusal :=
  s.matchedStep pt14 (winPat14 a x)

/-- `PAT15` (R235). -/
def execPat15 (a : BitVec 24) (x : BitVec 6) (s : State) : Host.Outcome State Fault Refusal :=
  s.matchedStep pt15 (winPat15 a x)

end Sys2Proof.Machine
end

