-- ==== Sys2Proof/Machine/Records.lean ====
section
/-! DEFINITION. The meanings of the four record formats (R175 to R178): the step in which a decoder decodes the record.
The value is the payload zero-extended to 32 bits (R104). -/

namespace Sys2Proof.Machine

/-- `REC.C0` (R175). -/
def execRecC0 (v : BitVec 4) (s : State) : Host.Outcome State Fault Refusal := s.recordStep .c0 (v.setWidth 32)

/-- `REC.C1` (R176). -/
def execRecC1 (v : BitVec 11) (s : State) : Host.Outcome State Fault Refusal := s.recordStep .c1 (v.setWidth 32)

/-- `REC.C2` (R177). -/
def execRecC2 (v : BitVec 24) (s : State) : Host.Outcome State Fault Refusal := s.recordStep .c2 (v.setWidth 32)

/-- `REC.C3` (R178). -/
def execRecC3 (v : BitVec 32) (s : State) : Host.Outcome State Fault Refusal := s.recordStep .c3 v

end Sys2Proof.Machine
end

