-- ==== Sys2Proof/Machine/Start.lean ====
section
/-! DEFINITION. The meanings of the decoders' START commands (R171, R191). -/

namespace Sys2Proof.Machine

/-- `SDEC_START(wc, vc)` (R171, R184). -/
def execSdecStart (wc vc : BitVec 64) (s : State) : Host.Outcome State Fault Refusal := .next (s.startDec .sdec wc vc)

/-- `BDEC_START(wc, vc)` (R191, R238). -/
def execBdecStart (wc vc : BitVec 64) (s : State) : Host.Outcome State Fault Refusal := .next (s.startDec .bdec wc vc)

end Sys2Proof.Machine
end

