-- ==== Sys2Proof/Machine/Dispatch.lean ====
section
/-! DEFINITION. The meaning of every instruction: one arm for each constructor of `Instr`, one direct call in each. -/

namespace Sys2Proof.Machine

def exec (i : Instr) (s : State) : Host.Outcome State Fault Refusal :=
  match i with
  | .recC0 v => Sys2Proof.Machine.execRecC0 v s
  | .recC1 v => Sys2Proof.Machine.execRecC1 v s
  | .recC2 v => Sys2Proof.Machine.execRecC2 v s
  | .recC3 v => Sys2Proof.Machine.execRecC3 v s
  | .pat0 a b c d x => Sys2Proof.Machine.execPat0 a b c d x s
  | .pat1 a b c d x => Sys2Proof.Machine.execPat1 a b c d x s
  | .pat2 a b c x => Sys2Proof.Machine.execPat2 a b c x s
  | .pat3 a b c x => Sys2Proof.Machine.execPat3 a b c x s
  | .pat4 a b x => Sys2Proof.Machine.execPat4 a b x s
  | .pat5 a b c x => Sys2Proof.Machine.execPat5 a b c x s
  | .pat6 a b c => Sys2Proof.Machine.execPat6 a b c s
  | .pat7 a b x => Sys2Proof.Machine.execPat7 a b x s
  | .pat8 a b => Sys2Proof.Machine.execPat8 a b s
  | .pat9 a x => Sys2Proof.Machine.execPat9 a x s
  | .pat10 a b c x => Sys2Proof.Machine.execPat10 a b c x s
  | .pat11 a b c => Sys2Proof.Machine.execPat11 a b c s
  | .pat12 a b x => Sys2Proof.Machine.execPat12 a b x s
  | .pat13 a b x => Sys2Proof.Machine.execPat13 a b x s
  | .pat14 a x => Sys2Proof.Machine.execPat14 a x s
  | .pat15 a x => Sys2Proof.Machine.execPat15 a x s
  | .encStart => Sys2Proof.Machine.execEncStart s
  | .encPush v => Sys2Proof.Machine.execEncPush v s
  | .encFinish => Sys2Proof.Machine.execEncFinish s
  | .sdecStart wc vc => Sys2Proof.Machine.execSdecStart wc vc s
  | .bdecStart wc vc => Sys2Proof.Machine.execBdecStart wc vc s

end Sys2Proof.Machine
end

