-- ==== Sys2Proof/Machine/Fetch.lean ====
section
/-! DEFINITION. How a decoder finds the instruction of its next step (R179, R192 to R199), which decoder takes the next
step (R75, R172, R192), and how a table word is placed where it is fetched next. Reading changes no state: what the step
pulls and consumes is part of the instruction's meaning. -/

namespace Sys2Proof.Machine

/-- What a decoder finds at its cursor. -/
inductive Fetched where
  | instr (i : Instr)
  /-- `WordUnderrun` before an instruction could be read; `bb` is what the sub-steps before the `raise` left (R257). -/
  | underrun (bb : BB)
  /-- The word to pull does not exist (log 6). -/
  | noWord (i : Nat)
  deriving DecidableEq, Repr

/-- The record at the cursor (R179). -/
def BB.fetchRecord (bb : BB) (src : Nat → Option Word) (wc : Count) : Fetched :=
  match bb.record src wc with
  | .value t p _ => .instr (recordInstr t p)
  | .underrun b => .underrun b
  | .noWord i => .noWord i

/-- The instruction of the next step of decoder `d`: in batch mode the pattern entry that matches the window, or, where
none matches, the record at the cursor (R192 2a to 2d, R199); otherwise the record at the cursor (R172, R211). -/
def State.fetch (s : State) (d : DecId) : Fetched :=
  let dec := s.dec d
  let src := s.wordAt d
  if dec.batchMode d then
    match dec.windowFill d src with
    | .ok b =>
      match decodeWindow (b.peek Config.windowBits) with
      | .ok i => .instr i
      | .error _ => b.fetchRecord src dec.wordCount
    | .underrun b => .underrun b
    | .noWord i => .noWord i
  else dec.bb.fetchRecord src dec.wordCount

/-- The decoder that takes the next step, and the state behind the choice: an enabled one; where both are enabled, a free
choice (R75; log 2); none where none is enabled (R271). -/
def State.chooseDecoder (s : State) : Option (DecId × State) :=
  if s.sdec.enabled then
    if s.bdec.enabled then
      some (if Config.arbiter s.free then .sdec else .bdec, { s with free := s.free + 1 })
    else some (.sdec, s)
  else if s.bdec.enabled then some (.bdec, s)
  else none

/-! ## Placing a table word (log 14) -/

/-- The first 32 of `bits` as a word, its bit 31 the first of them (R97), zeros behind the last (R99, D8). -/
def wordOfBits (bits : List Bool) : Word :=
  BitVec.ofNat 32 (numOf ((bits ++ List.replicate 32 false).take 32) 0)

/-- `bits` in `n` words, word 0 holding the first bits (R97). -/
def wordsOfBits : Nat → List Bool → List Word
  | 0, _ => []
  | n + 1, bits => wordOfBits bits :: wordsOfBits n (bits.drop 32)

/-- The number of words that hold `n` bits: `ceil(n/32)` (R99). -/
def wordsFor (n : Nat) : Nat := (n + 31) / 32

/-- A decoder whose step the machine does not take: one in `RUN` is put back to `IDLE`. -/
def Dec.setAside (dec : Dec) : Dec := { dec with state := if dec.state = .run then .idle else dec.state }

/-- The state in which decoder `d` has just been started on `words`, standing in `WMEM` from word 0 on, for `vc` values,
and is the one agent with an enabled step. -/
def State.loadStream (s : State) (d : DecId) (words : List Word) (vc : Count) : State :=
  let wc := BitVec.ofNat 64 words.length
  { s with
    wmem := s.wmem.writeAll 0 words
    wmemCap := max s.wmemCap words.length
    unfinished := []
    sdec := if d = .sdec then s.sdec.start wc vc else s.sdec.setAside
    bdec := if d = .bdec then s.bdec.start wc vc else s.bdec.setAside
    inputs := []
    actor := d }

/-- Place what an opcode-table number stands for (`tableForm`) where the next step takes it: a command at the port; a
record at word 0 of `WMEM` with SDEC started on it for one value; a window at word 0 with BDEC started on it for 16
values, so that its first step is a batch-mode step. -/
def State.placeTableWord (s : State) (nbits w : Nat) : State :=
  match tableForm nbits w with
  | some (.command c) => { s with inputs := [⟨false, .command c⟩] }
  | some (.record bits) => s.loadStream .sdec (wordsOfBits (wordsFor bits.length) bits) 1
  | some (.window win) => s.loadStream .bdec [win] 16
  | none => s

end Sys2Proof.Machine
end

