-- ==== Sys2Proof/Machine/Agents.lean ====
section
/-! DEFINITION. What happens in one time step: the inputs of that time step (R8, R109, R280), or a decoder's own step
(R172, R192), or nothing (R271). -/

namespace Sys2Proof.Machine

/-- A step of decoder `d`: execute the instruction at its cursor, or take the exception that reading it raised (R256). -/
def State.decoderStep (s : State) (d : DecId) : Host.Outcome State Fault Refusal :=
  match s.fetch d with
  | .instr i => exec i { s with actor := d }
  | .underrun bb => .next (({ s with actor := d }).takeUnderrun d bb)
  | .noWord i => .fault (.noWordToPull d i)

/-- A time step without input: a decoder that has an enabled step takes it; where none has, nothing changes (R271, R282). -/
def State.ownStep (s : State) : Host.Outcome State Fault Refusal :=
  match s.chooseDecoder with
  | some (d, s') => s'.decoderStep d
  | none => .next s

/-- A command at the port: executed; a reserved code is refused, nothing changes (R110, R262). -/
def State.commandStep (s : State) (c : CommandWord) : Host.Outcome State Fault Refusal :=
  match decodeCommand c with
  | .ok i => exec i s
  | .error _ => .next s

/-- The host writes a word of `WMEM` (R60): it supplies that word (log 23). -/
def State.hostWrite (s : State) (i : Count) (v : Word) : Host.Outcome State Fault Refusal :=
  match s.writeWmem i.toNat v with
  | some s' => .next { s' with unfinished := unmarkIndex s'.unfinished i.toNat }
  | none => .fault (.noWordToWrite i.toNat)

/-- A time step with the inputs `inp`: `RESET` overrides any command and any step (R280). DESIGN CHOICE (log 22): it also
drops a host write of `WMEM` that comes in the same time step, which neither R280 nor R281 names. -/
def State.inputStep (s : State) (inp : Input) : Host.Outcome State Fault Refusal :=
  if inp.reset then .next s.resetRegisters
  else
    match inp.action with
    | .command c => s.commandStep c
    | .writeWord i v => s.hostWrite i v
    | .none => s.ownStep

/-- One step of the machine: the inputs of this time step, if the host's timeline has any left (log 1). -/
def State.timeStep (s : State) : Host.Outcome State Fault Refusal :=
  match s.inputs with
  | inp :: later => ({ s with inputs := later }).inputStep inp
  | [] => s.ownStep

end Sys2Proof.Machine
end

