-- ==== Sys2Proof/WellFormed.lean ====
section
/-! DEFINITION. Well-formedness checks, each a Bool: of instructions, command words, pattern entries, record bits and
memories. -/

namespace Sys2Proof

/-- Whether an instruction is well-formed. Every field of every constructor has exactly the width its encoding gives it,
and every payload, every untested bit and every operand is legal (R106: "Every payload bit pattern is legal"; R109), so
no instruction is ill-formed; each constructor is named, so that a new one cannot slip past. -/
def Instr.wf : Instr → Bool
  | .recC0 _ | .recC1 _ | .recC2 _ | .recC3 _ => true
  | .pat0 .. | .pat1 .. | .pat2 .. | .pat3 .. | .pat4 .. | .pat5 .. | .pat6 .. | .pat7 .. => true
  | .pat8 .. | .pat9 .. | .pat10 .. | .pat11 .. | .pat12 .. | .pat13 .. | .pat14 .. | .pat15 .. => true
  | .encStart | .encPush _ | .encFinish | .sdecStart .. | .bdecStart .. => true

/-- The records a record or a pattern entry stands for, in stream order (R200); none for a command. -/
def Instr.records : Instr → List Instr
  | .recC0 v => [.recC0 v]
  | .recC1 v => [.recC1 v]
  | .recC2 v => [.recC2 v]
  | .recC3 v => [.recC3 v]
  | .pat0 a b c d _ => [.recC0 a, .recC0 b, .recC0 c, .recC0 d]
  | .pat1 a b c d _ => [.recC0 a, .recC0 b, .recC0 c, .recC1 d]
  | .pat2 a b c _ => [.recC0 a, .recC0 b, .recC0 c]
  | .pat3 a b c _ => [.recC0 a, .recC0 b, .recC1 c]
  | .pat4 a b _ => [.recC0 a, .recC0 b]
  | .pat5 a b c _ => [.recC0 a, .recC1 b, .recC0 c]
  | .pat6 a b c => [.recC0 a, .recC1 b, .recC1 c]
  | .pat7 a b _ => [.recC0 a, .recC1 b]
  | .pat8 a b => [.recC0 a, .recC2 b]
  | .pat9 a _ => [.recC0 a]
  | .pat10 a b c _ => [.recC1 a, .recC0 b, .recC0 c]
  | .pat11 a b c => [.recC1 a, .recC0 b, .recC1 c]
  | .pat12 a b _ => [.recC1 a, .recC0 b]
  | .pat13 a b _ => [.recC1 a, .recC1 b]
  | .pat14 a _ => [.recC1 a]
  | .pat15 a _ => [.recC2 a]
  | .encStart | .encPush _ | .encFinish | .sdecStart .. | .bdecStart .. => []

/-- The class of a record instruction (R93 to R96); none for a pattern entry and a command. -/
def Instr.recClass : Instr → Option WClass
  | .recC0 _ => some .c0
  | .recC1 _ => some .c1
  | .recC2 _ => some .c2
  | .recC3 _ => some .c3
  | .pat0 .. | .pat1 .. | .pat2 .. | .pat3 .. | .pat4 .. | .pat5 .. | .pat6 .. | .pat7 .. => none
  | .pat8 .. | .pat9 .. | .pat10 .. | .pat11 .. | .pat12 .. | .pat13 .. | .pat14 .. | .pat15 .. => none
  | .encStart | .encPush _ | .encFinish | .sdecStart .. | .bdecStart .. => none

/-- Whether an instruction is a pattern entry (R220 to R235). -/
def Instr.isPattern : Instr → Bool
  | .recC0 _ | .recC1 _ | .recC2 _ | .recC3 _ => false
  | .pat0 .. | .pat1 .. | .pat2 .. | .pat3 .. | .pat4 .. | .pat5 .. | .pat6 .. | .pat7 .. => true
  | .pat8 .. | .pat9 .. | .pat10 .. | .pat11 .. | .pat12 .. | .pat13 .. | .pat14 .. | .pat15 .. => true
  | .encStart | .encPush _ | .encFinish | .sdecStart .. | .bdecStart .. => false

/-- Whether a record is canonical (R105): its class is the class of its value. Decoders do not ask. -/
def Instr.canonical : Instr → Bool
  | .recC0 _ => true
  | .recC1 v => classOf (v.setWidth 32) = .c1
  | .recC2 v => classOf (v.setWidth 32) = .c2
  | .recC3 v => classOf v = .c3
  | _ => true

/-- Whether a command word's code is assigned (R109, R110). -/
def CommandWord.wf (c : CommandWord) : Bool := assignedCode c.cmd.toNat

/-- Whether a pattern entry keeps the bounds of R43 and R200: `EXPECT & ~MASK = 0`, 1 to 4 values, `CONSUMED` 6 to 32,
each lane inside the window behind a tag. -/
def PatEntry.wf (e : PatEntry) : Bool :=
  e.expect &&& ~~~e.mask = 0 && decide (1 ≤ e.count ∧ e.count ≤ 4 ∧ 6 ≤ e.consumed ∧ e.consumed ≤ 32)
    && [(e.shift.l0, e.wid.l0), (e.shift.l1, e.wid.l1), (e.shift.l2, e.wid.l2), (e.shift.l3, e.wid.l3)].all
        fun p => decide (p.1 + p.2 ≤ 30)

/-- Whether a bit string is exactly one record (R103). -/
def isOneRecord (bits : List Bool) : Bool :=
  match decodeRecord bits with
  | .ok (_, rest) => rest.isEmpty
  | .error _ => false

end Sys2Proof
end

