-- ==== Sys2Proof/Machine/Stream.lean ====
section
/-! DEFINITION. The stream level of the spec: the bits of a word sequence and their parse into records (R97, R98, R103,
R180), and the bits that a sequence of values encodes to (R134). Nothing here is read by the step; claims compare the
machine with it. -/

namespace Sys2Proof.Machine

/-- `S[i]` (R97): bit `31 - (i mod 32)` of word `i div 32`. -/
def streamBit (words : Nat → Word) (i : Nat) : Bool := (words (i / 32)).getLsbD (31 - i % 32)

/-- The `n`-bit number `S[p] ++ ... ++ S[p+n-1]` (R154). -/
def streamField (words : Nat → Word) (p : Nat) : Nat → Nat
  | 0 => 0
  | n + 1 => 2 * streamField words p n + (streamBit words (p + n)).toNat

/-- The class of the record at stream offset `p` (R103). -/
def classAt (words : Nat → Word) (p : Nat) : WClass :=
  WClass.ofTag (BitVec.ofNat 2 (streamField words p Config.tagBits))

/-- The stream offset behind the record at `p` (R98, R103). -/
def behindRecord (words : Nat → Word) (p : Nat) : Nat := p + (classAt words p).recLen

/-- The value of the record at `p` (R104): its payload, zero-extended. -/
def valueAt (words : Nat → Word) (p : Nat) : Word :=
  BitVec.ofNat 32 (streamField words (p + Config.tagBits) (classAt words p).width)

/-- `p_k` (R98): where record `k` starts. -/
def recordStart (words : Nat → Word) : Nat → Nat
  | 0 => 0
  | k + 1 => behindRecord words (recordStart words k)

/-- `rec(v)` (R134). -/
def recordOf (v : Word) : List Bool := recordBits (classOf v) (payloadOf v (classOf v).width).toNat

/-- `S = rec(v_0) ++ ... ++ rec(v_{n-1})` (R134). -/
def streamOf (vs : List Word) : List Bool := vs.flatMap recordOf

/-- Parse `n` records off the front of a bit string (R103). -/
def parseRecords : Nat → List Bool → Option (List Instr)
  | 0, _ => some []
  | n + 1, bits =>
    match decodeRecord bits with
    | .ok (i, rest) => (parseRecords n rest).map fun is => i :: is
    | .error _ => none

/-- The bits appended by ENC so far (R134): the emitted words, then the pending bits, oldest first. -/
def State.appendedBit (s : State) (i : Nat) : Bool :=
  if i < 32 * s.enc.wcount.toNat then streamBit s.held i
  else s.enc.acc.getLsbD (s.enc.nbits.toNat - 1 - (i - 32 * s.enc.wcount.toNat))

/-- The `n` bits of a word sequence from stream offset `p` on (R13). -/
def bitsFrom (words : Nat → Word) (p : Nat) : Nat → List Bool
  | 0 => []
  | n + 1 => streamBit words p :: bitsFrom words (p + 1) n

/-! ## The validation of the pattern table (R237) -/

/-- No window matches two entries of a table (R205 check a): of any two, one tests a bit that the other expects otherwise. -/
def tableDisjoint (table : List PatEntry) : Bool :=
  decide (table.Pairwise fun e f => (e.expect ^^^ f.expect) &&& e.mask &&& f.mask ≠ 0)

/-- The number of bits an entry tests: `popcount(MASK)` (R205). -/
def testedBits (e : PatEntry) : Nat := ((List.range 32).filter fun b => e.mask.getLsbD b).length

/-- Every entry tests the leading tag and expects none of `11`, and the windows the entries match are, together, as many as
those of the other three leading tags (R205 check b). -/
def tableCovers (table : List PatEntry) : Bool :=
  (table.all fun e => decide (e.mask.extractLsb' 30 2 = 0b11#2 ∧ e.expect.extractLsb' 30 2 ≠ 0b11#2)) &&
    decide ((table.map fun e => 2 ^ (32 - testedBits e)).sum = 3 * 2 ^ 30)

/-- The entry that matches a window says of it what the scalar procedure says: its records, one by one (R206, R237). -/
def agreesWithScalar (win : Word) : Bool :=
  match decodeWindow win with
  | .ok i => decide (parseRecords i.records.length (bitsOf Config.windowBits win.toNat) = some i.records)
  | .error _ => decide (win.extractLsb' 30 2 = 0b11#2)

/-- The offline validation of the pattern table (R237): the two finite checks of R205, and the agreement with the scalar
decoder on the representative windows of every layout, those with all untested bits 0 and all 1 (R206 states it of every
window). Nothing of this is checked at run time: no step reads it. -/
def tableValidated (table : List PatEntry) : Bool :=
  tableDisjoint table && tableCovers table &&
    table.all fun e => agreesWithScalar e.expect && agreesWithScalar (e.expect ||| ~~~e.mask)

end Sys2Proof.Machine
end

