-- ==== Sys2Proof/Safety.lean ====
section
/-! DEFINITION. The terms claims use: the invariant of the machine (R22, R23, R29, R36 to R38, R136, R156, R253), when a
decoder's step completes, the state a step leaves, and runs of one agent. -/

namespace Sys2Proof.Machine

/-! ## The invariant -/

/-- Every listed index of a memory is below its capacity. -/
def Mem.within (cap : Nat) : Mem → Bool
  | [] => true
  | (a, _) :: m => decide (a < cap) && Mem.within cap m

/-- ENC's registers (R22, R23, R136). The bit count is compared modulo 2^64, as the registers are (R25). -/
def Enc.Inv (e : Enc) : Prop :=
  e.nbits.toNat ≤ 31 ∧ e.acc.toNat < 2 ^ e.nbits.toNat ∧
    (e.state = .busy → e.bitCount = 32 * e.wcount + e.nbits.setWidth 64) ∧
    (e.state = .done → e.nbits = 0 ∧ e.acc = 0 ∧ (32 * e.wcount - e.bitCount).toNat < 32) ∧
    (e.state = .idle → e.nbits = 0 ∧ e.acc = 0) ∧
    (e.stuck = true → e.state = .busy)

/-- A bit buffer (R29, R33, R156 a to c): zeros below the unconsumed bits; `POS` is a natural number; `WIDX` is at most
`WORD_COUNT`. -/
def BB.Inv (bb : BB) (wc : Count) : Prop :=
  (∀ t, t < 64 - bb.navail.toNat → bb.buf.getLsbD t = false) ∧ bb.navail.toNat ≤ 32 * bb.widx.toNat ∧ bb.widx ≤ wc

/-- R156 d: the unconsumed bits are the stream bits from `POS` on. -/
def BB.Holds (bb : BB) (words : Nat → Word) : Prop :=
  ∀ t, t < bb.navail.toNat → bb.buf.getLsbD (63 - t) = streamBit words (bb.pos + t)

/-- A decoder (R36 to R38, R253). -/
def Dec.Inv (dec : Dec) : Prop :=
  dec.bb.Inv dec.wordCount ∧ dec.ocur ≤ dec.valueCount ∧
    (dec.state = .run → dec.ocur < dec.valueCount) ∧
    (dec.state = .done → dec.ocur = dec.valueCount) ∧
    (dec.faultCode = .wordUnderrun ↔ dec.state = .fault) ∧
    (dec.state = .fault → dec.bb.widx = dec.wordCount) ∧
    (dec.stuck = true → dec.state = .run) ∧
    dec.vout.wf = true ∧ dec.vout.within dec.voutCap = true

/-- The invariant every step keeps. Of a run whose words are claimed the bit buffer holds the stream (R156 d), and an
encode under way has not written a word yet, unless the run reads none (R288, R289). -/
def State.Inv (s : State) : Prop :=
  s.enc.Inv ∧ s.sdec.Inv ∧ s.bdec.Inv ∧ s.wmem.wf = true ∧ s.wmem.within s.wmemCap = true ∧
    s.unfinished.Pairwise (· < ·) ∧
    ∀ d, (s.dec d).state = .run → (s.dec d).taint = none →
      (s.dec d).bb.Holds s.words ∧
        (s.enc.state = .busy → (s.dec d).wordCount.toNat = 0 ∨ s.enc.wcount.toNat = 0)

/-! ## When a decoder's step completes -/

/-- The stream bits that a decoder can still get: those buffered and those in the words `WIDX` to `WORD_COUNT - 1`. -/
def Dec.bitsLeft (dec : Dec) : Nat := 32 * (dec.wordCount.toNat - dec.bb.widx.toNat) + dec.bb.navail.toNat

/-- A step of decoder `d` that needs `n` stream bits has them (R252; in batch mode also the 32 of the window, R194), and
every word it may pull exists (R285 item 3). -/
def State.bitsReady (s : State) (d : DecId) (n : Nat) : Prop :=
  n ≤ (s.dec d).bitsLeft ∧ ((s.dec d).batchMode d = true → Config.windowBits ≤ (s.dec d).bitsLeft) ∧
    (s.dec d).wordCount.toNat ≤ s.wmemCap

/-- A record of class `c` completes in a step of decoder `s.actor`: the step is enabled (R172, R192), the bits are there,
the slot exists (R287). -/
def State.recordReady (s : State) (c : WClass) : Prop :=
  (s.dec s.actor).enabled = true ∧ s.bitsReady s.actor c.recLen ∧
    (s.dec s.actor).ocur.toNat < (s.dec s.actor).voutCap

/-- A pattern entry completes in a step of BDEC: the step is enabled and in batch mode (R192, R193), the window's bits are
there, the four slots exist (R287). -/
def State.patternReady (s : State) : Prop :=
  s.bdec.enabled = true ∧ s.bdec.batchMode .bdec = true ∧ s.bitsReady .bdec Config.windowBits ∧
    s.bdec.ocur.toNat + 3 < s.bdec.voutCap

/-- The state behind a step of decoder `d` that wrote the slots of `VOUT` from `OCUR` on with `vs`, advanced `OCUR` by
`n` and left the bit buffer `bb` (R172, R192): nothing else differs. -/
def State.afterDecode (s : State) (d : DecId) (vs : List Word) (n : Nat) (bb : BB) : State :=
  s.setDec d
    { s.dec d with
      bb := bb
      vout := (s.dec d).vout.writeAll (s.dec d).ocur.toNat vs
      ocur := (s.dec d).ocur + BitVec.ofNat 64 n
      state := if (s.dec d).ocur + BitVec.ofNat 64 n = (s.dec d).valueCount then .done else .run }

/-- `exec i s` completes as a step of decoder `d` that decodes `n` values, writes the slots `vs` and moves `POS` by
`len` (R33, R173, R213), the bits behind it being as they stood in the bit buffer and the words. -/
def State.decodesTo (s : State) (i : Instr) (d : DecId) (vs : List Word) (n len : Nat) : Prop :=
  ∃ bb, exec i s = .next (s.afterDecode d vs n bb) ∧
    bb.pos = (s.dec d).bb.pos + len ∧
    ({ s.dec d with bb := bb }).bitsLeft = (s.dec d).bitsLeft - len ∧
    ((s.dec d).taint = none → (s.dec d).bb.Holds s.words → bb.Holds s.words)

/-- Nothing of the machine differs between `s` and `t` but the registers and the output memory of decoder `d`. -/
def State.onlyDec (s t : State) (d : DecId) : Prop :=
  t.enc = s.enc ∧ (∀ d', d' ≠ d → t.dec d' = s.dec d') ∧ t.wmem = s.wmem ∧ t.wmemCap = s.wmemCap ∧
    t.unfinished = s.unfinished ∧ t.inputs = s.inputs ∧ t.actor = s.actor ∧ t.free = s.free

/-- What a step of a decoder never changes in its own registers: its START operands, its run's free-value number, its
capacity. -/
def Dec.sameRun (x y : Dec) : Prop :=
  y.wordCount = x.wordCount ∧ y.valueCount = x.valueCount ∧ y.taint = x.taint ∧ y.voutCap = x.voutCap

/-- The number of words a push of `v` emits (R125, R127): the pending bits and the record, divided by 32. -/
def State.pushWords (s : State) (v : Word) : Nat := (s.enc.nbits.toNat + (classOf v).recLen) / 32

/-- What an ENC command leaves of everything but ENC's registers and `WMEM`: of a decoder, only the note that its words
were written may differ, and only in `RUN` (R288, R289). -/
def State.encOnly (s t : State) : Prop :=
  (∀ d, t.dec d = { s.dec d with taint := (t.dec d).taint }) ∧ (∀ d, (s.dec d).state ≠ .run → t.dec d = s.dec d) ∧
    t.wmemCap = s.wmemCap ∧ t.inputs = s.inputs ∧ t.actor = s.actor

/-- SDEC's and BDEC's registers exchanged. -/
def State.swapDecs (s : State) : State := { s with sdec := s.bdec, bdec := s.sdec }

/-! ## Runs of one agent -/

/-- Execute instructions one after another, stopping at the first fault or refusal. -/
def runInstrs : List Instr → State → Host.Outcome State Fault Refusal
  | [], s => .next s
  | i :: is, s =>
    match exec i s with
    | .next t => runInstrs is t
    | .fault r => .fault r
    | .refused r => .refused r

/-- At most `n` steps of decoder `d`, while it has an enabled step (R172, R192). -/
def State.decSteps (d : DecId) : Nat → State → Host.Outcome State Fault Refusal
  | 0, s => .next s
  | n + 1, s =>
    if (s.dec d).enabled then
      match s.decoderStep d with
      | .next t => State.decSteps d n t
      | .fault r => .fault r
      | .refused r => .refused r
    else .next s

/-- `ENCODE(vs)` (R112). -/
def encodeCommands (vs : List Word) : List Instr := .encStart :: (vs.map Instr.encPush ++ [.encFinish])

end Sys2Proof.Machine
end

