-- ==== Sys2Proof/Certificates/Slice0/Obligations.lean ====
section
/-! DEFINITION. The statements for the provers. Each docstring names the rules it formalises, or says that it is the
model's choice and names the log entry. -/

open Sys2Proof Sys2Proof.Machine

/-! ## Encoding -/

/-- R93 to R96: the bits of the four record formats, tag first, payload most significant bit first; and the record the
encoder makes of a value is the format of the value's range, with the value's low bits as its field. -/
def Obligations.RecordFormatsAreTagThenPayload : Prop :=
  (∀ v : BitVec 4, encode (.recC0 v) = .record ([false, false] ++ (List.range 4).map fun j => v.getLsbD (3 - j))) ∧
    (∀ v : BitVec 11, encode (.recC1 v) = .record ([false, true] ++ (List.range 11).map fun j => v.getLsbD (10 - j))) ∧
    (∀ v : BitVec 24, encode (.recC2 v) = .record ([true, false] ++ (List.range 24).map fun j => v.getLsbD (23 - j))) ∧
    (∀ v : BitVec 32, encode (.recC3 v) = .record ([true, true] ++ (List.range 32).map fun j => v.getLsbD (31 - j))) ∧
    ∀ w : Word,
      (w.toNat < 16 → encode (.recC0 (w.extractLsb' 0 4)) = .record (recordOf w)) ∧
        (16 ≤ w.toNat → w.toNat < 2048 → encode (.recC1 (w.extractLsb' 0 11)) = .record (recordOf w)) ∧
        (2048 ≤ w.toNat → w.toNat < 16777216 → encode (.recC2 (w.extractLsb' 0 24)) = .record (recordOf w)) ∧
        (16777216 ≤ w.toNat → encode (.recC3 w) = .record (recordOf w))

/-- Decoding the encoding of an instruction gives the instruction back, for every instruction (R92, R109, R203). -/
def Obligations.DecodeOfEncodeIsTheInstruction : Prop :=
  ∀ i : Instr, i.wf = true → decode (encode i) = .ok i

/-- Every window that decodes is the encoding of what it decodes to: no window bit is dropped (R196, R203). -/
def Obligations.EncodeOfDecodedWindowIsTheWindow : Prop :=
  ∀ (win : Word) (i : Instr), decodeWindow win = .ok i → encode i = .window win

/-- Every bit string that decodes to a record begins with the encoding of that record, and what is left over is the rest
(R103: the tag alone fixes the length). -/
def Obligations.DecodedRecordBitsAreItsEncoding : Prop :=
  ∀ (bits rest : List Bool) (i : Instr), decodeRecord bits = .ok (i, rest) →
    ∃ own, encode i = .record own ∧ bits = own ++ rest

/-- R106: every bit string that is long enough for the record its tag announces decodes to a record of the tag's class,
`RECLEN` bits long; no record is illegal. -/
def Obligations.EveryLongEnoughBitStringIsARecord : Prop :=
  ∀ (tag : BitVec 2) (bits : List Bool), bits.take 2 = bitsOf 2 tag.toNat →
    (WClass.ofTag tag).recLen ≤ bits.length →
    ∃ i rest, decodeRecord bits = .ok (i, rest) ∧ i.recClass = some (WClass.ofTag tag) ∧
      rest.length + (WClass.ofTag tag).recLen = bits.length

/-- Words written out from the spec's encodings decode to the instructions they stand for: R113, 95_test_vectors.md
sections 2 and 5, R109. -/
def Obligations.SampleWordsDecodeAsTheSpecSays : Prop :=
  decodeTableWord 6 0b000101 = some (.recC0 5) ∧ decodeTableWord 13 0b0101111101000 = some (.recC1 1000) ∧
    decodeTableWord 26 0b10000000010001000101110000 = some (.recC2 70000) ∧
    decodeTableWord 34 0x3DEADBEEF = some (.recC3 0xDEADBEEF) ∧
    decodeTableWord 32 0x24330604 = some (.pat0 9 3 12 6 4) ∧
    decodeTableWord 32 0x25AABC4D = some (.pat7 9 0x555 0xC4D) ∧
    decodeTableWord 32 0xAAF37BC1 = some (.pat15 0xABCDEF 1) ∧ decodeTableWord 4 0b0010 = some .encFinish

/-- R109, R110: the five assigned command codes, their operands, and the eleven reserved codes. -/
def Obligations.CommandCodesAreThoseOfTheTable : Prop :=
  ∀ c : CommandWord,
    decodeCommand c =
      if c.cmd = 0 then .ok .encStart
      else if c.cmd = 1 then .ok (.encPush (c.opa.extractLsb' 0 32))
      else if c.cmd = 2 then .ok .encFinish
      else if c.cmd = 4 then .ok (.sdecStart c.opa c.opb)
      else if c.cmd = 8 then .ok (.bdecStart c.opa c.opb)
      else .error (.reservedCommand c.cmd)

/-! ## Classification -/

/-- R121: the class by value and by leading-zero count, with its tag and width; a value fits its class's width. That the
two statements of the table agree, because `32 - w ≤ clz32 v` exactly when `v < 2^w`, is the spec's own inference (R121
marks it derived, from the definition of `clz32` in R14). -/
def Obligations.ClassByValueAndByLeadingZeros : Prop :=
  ∀ v : Word,
    classOf v =
        (if v.toNat < 16 then .c0 else if v.toNat < 2048 then .c1 else if v.toNat < 16777216 then .c2 else .c3) ∧
      clz32 v ≤ 32 ∧ (∀ w, w ≤ 32 → (32 - w ≤ clz32 v ↔ v.toNat < 2 ^ w)) ∧
      ((classOf v).tag, (classOf v).width) =
        (if 28 ≤ clz32 v then (0b00#2, 4) else if 21 ≤ clz32 v then (0b01#2, 11)
          else if 8 ≤ clz32 v then (0b10#2, 24) else (0b11#2, 32)) ∧
      v.toNat < 2 ^ (classOf v).width

/-! ## The pattern table -/

/-- R202, R203, R237: the construction rule yields the table of sixteen entries, and the table passes its offline
validation. -/
def Obligations.ConstructionYieldsTheTable : Prop :=
  builtTable = patTable ∧ patTable.length = 16 ∧ (∀ e ∈ patTable, e.wf = true) ∧ tableValidated patTable = true

/-- R205: no entry matches a window whose leading tag is 11, exactly one matches any other; with the finite checks (a) and
(b) of the rule and its list of the numbers of tested bits. -/
def Obligations.ExactlyOneEntryMatchesUnlessTag11 : Prop :=
  (∀ win : Word, win.extractLsb' 30 2 = 0b11#2 → matchMask win = 0) ∧
    (∀ win : Word, win.extractLsb' 30 2 ≠ 0b11#2 → ∃ i, i < 16 ∧ matchMask win = 1#16 <<< i) ∧
    (∀ i j, i < 16 → j < 16 → i ≠ j →
      ((patTable.getD i pt0).expect ^^^ (patTable.getD j pt0).expect) &&& (patTable.getD i pt0).mask &&&
        (patTable.getD j pt0).mask ≠ 0) ∧
    (∀ e ∈ patTable, e.mask.extractLsb' 30 2 = 0b11#2 ∧ e.expect.extractLsb' 30 2 ≠ 0b11#2) ∧
    (patTable.map fun e => ((List.range 32).filter fun b => e.mask.getLsbD b).length) =
      [8, 8, 7, 6, 5, 6, 6, 5, 4, 4, 6, 6, 5, 4, 3, 2] ∧
    (patTable.map fun e => 2 ^ (32 - ((List.range 32).filter fun b => e.mask.getLsbD b).length)).sum = 3 * 2 ^ 30

/-- R206: where an entry matches a window, the records parsed from the window's first bit on begin with the entry's
records, with the payloads the entry extracts. -/
def Obligations.MatchedEntryParsesAsItsRecords : Prop :=
  ∀ (win : Word) (i : Instr), decodeWindow win = .ok i →
    parseRecords i.records.length (bitsOf 32 win.toNat) = some i.records

/-! ## RESET, START and refusals -/

/-- R280: `RESET` overrides the host's action and any step, and puts every register in the "after RESET" column of R49;
R281: the memories are not changed. That a host write that comes with `RESET` is overridden too is the model's choice
(log 22). -/
def Obligations.ResetPutsEveryRegisterAtItsResetValue : Prop :=
  ∀ (s : State) (a : HostAction) (later : List Input), s.inputs = ⟨true, a⟩ :: later →
    ∃ t, step s = .next t ∧ t.inputs = later ∧
      (t.enc.acc = 0 ∧ t.enc.nbits = 0 ∧ t.enc.wcount = 0 ∧ t.enc.bitCount = 0 ∧ t.enc.valueCount = 0 ∧
        t.enc.state = .idle) ∧
      (∀ d, (t.dec d).bb.buf = 0 ∧ (t.dec d).bb.navail = 0 ∧ (t.dec d).bb.widx = 0 ∧ (t.dec d).wordCount = 0 ∧
        (t.dec d).valueCount = 0 ∧ (t.dec d).ocur = 0 ∧ (t.dec d).state = .idle ∧ (t.dec d).faultCode = .none) ∧
      t.wmem = s.wmem ∧ (∀ d, (t.dec d).vout = (s.dec d).vout ∧ (t.dec d).voutCap = (s.dec d).voutCap) ∧
      t.wmemCap = s.wmemCap

/-- R282: after `RESET` no agent has an enabled step; the block waits: the machine right after reset stays as it is. -/
def Obligations.AfterResetNoAgentSteps : Prop :=
  State.reset.chooseDecoder = none ∧ step State.reset = .next State.reset ∧
    ∀ s : State, s.resetRegisters.chooseDecoder = none

/-- R122: `ENC_START`, code 0000, is accepted in every state; all ENC registers and counters 0, `BUSY`; `WMEM` is not
cleared; nothing else changes. -/
def Obligations.EncStartBeginsAnArtifact : Prop :=
  ∀ (s : State) (a b : BitVec 64), decodeCommand ⟨0b0000#4, a, b⟩ = .ok .encStart ∧ ∃ t, exec .encStart s = .next t ∧
    t.enc.acc = 0 ∧ t.enc.nbits = 0 ∧ t.enc.wcount = 0 ∧ t.enc.bitCount = 0 ∧ t.enc.valueCount = 0 ∧
    t.enc.state = .busy ∧
    t.wmem = s.wmem ∧ t.sdec = s.sdec ∧ t.bdec = s.bdec ∧ t.wmemCap = s.wmemCap ∧ t.inputs = s.inputs ∧
    t.actor = s.actor ∧ t.free = s.free

/-- R129: `ENC_PUSH` and `ENC_FINISH` in `IDLE` or `DONE` are refused: nothing changes; `ENC_START` discards the counters
and makes ENC accept pushes again. That a refused command is a next state with nothing changed, where R262 also allows no
transition at all, is the model's choice (log 10). -/
def Obligations.PushAndFinishRefusedUnlessBusy : Prop :=
  ∀ (s : State) (v : Word), (s.enc.state = .idle ∨ s.enc.state = .done) →
    exec (.encPush v) s = .next s ∧ exec .encFinish s = .next s ∧
      ∃ t, exec .encStart s = .next t ∧ t.enc.accepts = true ∧ t.enc.wcount = 0 ∧ t.enc.bitCount = 0 ∧
        t.enc.valueCount = 0

/-- R171, R191: START outside `RUN` initialises every register of its decoder; `RUN` if `vc > 0`, `DONE` if `vc = 0`; no
word is read and no slot written; nothing else changes. The note of a run started while ENC is `BUSY`, and the number it
takes, are the model's (log 23). -/
def Obligations.DecoderStartInitialisesItsRegisters : Prop :=
  ∀ (s : State) (wc vc : Count),
    (s.sdec.state ≠ .run → ∃ t, exec (.sdecStart wc vc) s = .next t ∧ s.onlyDec { t with free := s.free } .sdec ∧
      (s.encOwns wc = false → t.free = s.free) ∧
      t.sdec = { bb := ⟨0, 0, 0⟩, wordCount := wc, valueCount := vc, ocur := 0,
                 state := if 0 < vc.toNat then .run else .done, faultCode := .none, stuck := false,
                 taint := if s.encOwns wc then some s.free else none,
                 vout := s.sdec.vout, voutCap := s.sdec.voutCap }) ∧
    (s.bdec.state ≠ .run → ∃ t, exec (.bdecStart wc vc) s = .next t ∧ s.onlyDec { t with free := s.free } .bdec ∧
      (s.encOwns wc = false → t.free = s.free) ∧
      t.bdec = { bb := ⟨0, 0, 0⟩, wordCount := wc, valueCount := vc, ocur := 0,
                 state := if 0 < vc.toNat then .run else .done, faultCode := .none, stuck := false,
                 taint := if s.encOwns wc then some s.free else none,
                 vout := s.bdec.vout, voutCap := s.bdec.voutCap })

/-- R285 item 1, R288, R290 H2: what a started decoder pulls. Started while ENC is `BUSY`, a free value of a number no run
had before, whatever `WMEM` holds; otherwise, at a word that ENC wrote without having been `DONE` since, a free value of
the index and of what stands there, the same in every run (R183), and at every other word what stands there (R255), however
large `wc` is (the free values are the model's treatment, log 23). -/
def Obligations.StartOnUnfinishedWordsMakesThemFree : Prop :=
  ∀ (s : State) (d : DecId) (wc vc : Count), (s.dec d).state ≠ .run →
    ∃ t, exec (match d with | .sdec => .sdecStart wc vc | .bdec => .bdecStart wc vc) s = .next t ∧
      ∀ k, k < s.wmemCap →
        (s.enc.state = .busy ∧ 0 < wc.toNat →
          s.free < t.free ∧ t.wordAt d k = some (Config.mixedWord s.free k)) ∧
        (¬ (s.enc.state = .busy ∧ 0 < wc.toNat) →
          t.wordAt d k = some (if k ∈ s.unfinished then
              Config.unfinishedWord k ((s.wmem.read k).getD (Config.powerUpWord k))
            else (s.wmem.read k).getD (Config.powerUpWord k)))

/-- R184, R238, R262: a decoder START in `RUN` is refused: nothing changes. That a refused command is a next state, where
R262 also allows no transition at all, is the model's choice (log 10). -/
def Obligations.DecoderStartRefusedInRun : Prop :=
  ∀ (s : State) (wc vc : Count), (s.sdec.state = .run → exec (.sdecStart wc vc) s = .next s) ∧
    (s.bdec.state = .run → exec (.bdecStart wc vc) s = .next s)

/-- R110, R262: a reserved command code at the port is refused: nothing changes but that the input is taken (that the
refusal is a next state is the model's choice, log 10). -/
def Obligations.ReservedCommandChangesNothing : Prop :=
  ∀ (s : State) (c : CommandWord) (later : List Input), c.wf = false → s.inputs = ⟨false, .command c⟩ :: later →
    step s = .next { s with inputs := later }

/-! ## The step -/

/-- A command at the port runs as the instruction it decodes to, the input taken (R109; the host's timeline is the model's
choice, log 1). -/
def Obligations.StepRunsTheCommandAtThePort : Prop :=
  ∀ (s : State) (c : CommandWord) (later : List Input) (i : Instr), s.inputs = ⟨false, .command c⟩ :: later →
    decodeCommand c = .ok i → step s = exec i { s with inputs := later }

/-- In a time step in which the host does nothing (its timeline empty, or an entry without an action), the one decoder
with an enabled step takes it: it runs the instruction at its cursor, or, where the words run out before one could be read,
takes `WordUnderrun` (R172, R192, R256; that the record instructions name their decoder in `actor` and that the host has a
timeline are the model's choices, log 3, log 1; a word that does not exist is log 6). -/
def Obligations.StepRunsTheInstructionAtTheCursor : Prop :=
  ∀ (s : State) (d : DecId), (s.dec d).enabled = true → (∀ d', d' ≠ d → (s.dec d').enabled = false) →
    (s.inputs = [] → step s = s.decoderStep d) ∧
    (∀ later, s.inputs = ⟨false, .none⟩ :: later → step s = ({ s with inputs := later }).decoderStep d) ∧
    (∀ i, s.fetch d = .instr i → s.decoderStep d = exec i { s with actor := d }) ∧
    (∀ bb, s.fetch d = .underrun bb →
      s.decoderStep d = .next (({ s with actor := d }).setDec d
        { s.dec d with bb := bb, state := .fault, faultCode := .wordUnderrun })) ∧
    ∀ k, s.fetch d = .noWord k → s.decoderStep d = .fault (.noWordToPull d k)

/-- R271: where no decoder has an enabled step and the host does nothing, nothing changes but that the entry of the
timeline is taken (log 1). -/
def Obligations.StepWithoutEnabledDecoderChangesNothing : Prop :=
  ∀ s : State, (∀ d, (s.dec d).enabled = false) →
    (s.inputs = [] → step s = .next s) ∧
    ∀ later, s.inputs = ⟨false, .none⟩ :: later → step s = .next { s with inputs := later }

/-- R75: with both decoders enabled the one that the free choice names takes its step, so either may (the free value
`Config.arbiter`, log 2); each choice is taken at a number of its own. -/
def Obligations.EitherEnabledDecoderMayStep : Prop :=
  ∀ s : State, s.sdec.enabled = true → s.bdec.enabled = true →
    (s.inputs = [] →
      step s = ({ s with free := s.free + 1 }).decoderStep (if Config.arbiter s.free then .sdec else .bdec)) ∧
    ∀ later, s.inputs = ⟨false, .none⟩ :: later →
      step s = ({ s with inputs := later, free := s.free + 1 }).decoderStep
        (if Config.arbiter s.free then .sdec else .bdec)

/-- R252, R256, R257, at the level of the step: where fewer stream bits are left than the record at `POS` has, or in batch
mode fewer than the window's 32, the decoder's step takes `WordUnderrun`: `STATE <- FAULT`, `FAULT_CODE <- 1`, no slot
written; the bit buffer is as at the start of the step where the tag or the window could not be had, and two bits past it
where the payload could not. -/
def Obligations.StepTakesWordUnderrunWhereBitsRunOut : Prop :=
  ∀ (s : State) (d : DecId), (s.dec d).enabled = true → (s.dec d).taint = none →
    (s.dec d).bb.Inv (s.dec d).wordCount → (s.dec d).bb.Holds s.words → (s.dec d).wordCount.toNat ≤ s.wmemCap →
    ((s.dec d).bitsLeft < (classAt s.words (s.dec d).bb.pos).recLen ∨
      ((s.dec d).batchMode d = true ∧ (s.dec d).bitsLeft < Config.windowBits)) →
    ∃ bb, s.decoderStep d = .next (({ s with actor := d }).setDec d
        { s.dec d with bb := bb, state := .fault, faultCode := .wordUnderrun }) ∧
      bb.widx = (s.dec d).wordCount ∧
      if 2 ≤ (s.dec d).bitsLeft ∧ ((s.dec d).batchMode d = true → Config.windowBits ≤ (s.dec d).bitsLeft)
      then bb.pos = (s.dec d).bb.pos + 2 else bb = (s.dec d).bb

/-- R103, R154: what a decoder finds at its cursor outside batch mode is the record that the stream's bits from `POS` on
decode to. -/
def Obligations.FetchedRecordIsTheStreamsRecord : Prop :=
  ∀ (s : State) (d : DecId) (i : Instr), (s.dec d).batchMode d = false → (s.dec d).taint = none →
    (s.dec d).bb.Inv (s.dec d).wordCount → (s.dec d).bb.Holds s.words → s.fetch d = .instr i →
    ∃ own, encode i = .record own ∧ own = bitsFrom s.words (s.dec d).bb.pos own.length

/-- R195 to R199: in batch mode what BDEC finds is what the window of the stream's 32 bits from `POS` on decodes to, and
where no entry matches it, a `REC.C3`. -/
def Obligations.FetchedPatternIsTheStreamsWindow : Prop :=
  ∀ (s : State) (i : Instr), s.bdec.batchMode .bdec = true → s.bdec.taint = none →
    s.bdec.bb.Inv s.bdec.wordCount → s.bdec.bb.Holds s.words → s.fetch .bdec = .instr i →
    (∃ win : Word, win.toNat = streamField s.words s.bdec.bb.pos 32 ∧ decodeWindow win = .ok i) ∨
      (∃ win : Word, win.toNat = streamField s.words s.bdec.bb.pos 32 ∧ decodeWindow win = .error .noPattern ∧
        ∃ v, i = .recC3 v ∧ v = valueAt s.words s.bdec.bb.pos)

/-- R172 with R179: a step of SDEC is `DEC.record`, the slot write, the advance of `OCUR`, the `DONE` test; where
`DEC.record` raises, the fault entry (R256). -/
def Obligations.SdecStepIsRecordThenStore : Prop :=
  ∀ s : State, s.sdec.enabled = true →
    s.decoderStep .sdec =
      match s.sdec.bb.record (s.wordAt .sdec) s.sdec.wordCount with
      | .value _ p bb => .next { s with actor := .sdec, sdec := s.sdec.storeValue bb p }
      | .underrun bb => .next (({ s with actor := .sdec }).takeUnderrun .sdec bb)
      | .noWord i => .fault (.noWordToPull .sdec i)

/-- R192: a batch-mode step of BDEC is window fill, match, and either the matched entry's extraction, chunk write and
advance or, where `K = 0`, `DEC.record` and one slot. -/
def Obligations.BdecBatchStepFollowsThePseudocode : Prop :=
  ∀ s : State, s.bdec.enabled = true → s.bdec.batchMode .bdec = true →
    s.decoderStep .bdec =
      match s.bdec.bb.need (s.wordAt .bdec) s.bdec.wordCount 32 with
      | .ok b =>
        (match kselect (matchMask (b.peek 32)) with
        | some k =>
          .next { s with
            actor := .bdec
            bdec := s.bdec.storeLanes (patTable.getD k pt0) b (extractLanes (patTable.getD k pt0) (b.peek 32)) }
        | none =>
          match b.record (s.wordAt .bdec) s.bdec.wordCount with
          | .value _ p bb => .next { s with actor := .bdec, bdec := s.bdec.storeValue bb p }
          | .underrun bb => .next (({ s with actor := .bdec }).takeUnderrun .bdec bb)
          | .noWord i => .fault (.noWordToPull .bdec i))
      | .underrun bb => .next (({ s with actor := .bdec }).takeUnderrun .bdec bb)
      | .noWord i => .fault (.noWordToPull .bdec i)

/-- R211: a tail step of BDEC is `SDEC.STEP` on BDEC's registers and `BDEC.VOUT`. -/
def Obligations.TailStepIsTheScalarStep : Prop :=
  ∀ s t : State, s.bdec.enabled = true → s.bdec.tail = true → s.swapDecs.decoderStep .sdec = .next t →
    s.decoderStep .bdec = .next { t.swapDecs with actor := .bdec }

/-! ## The bit buffer -/

/-- R157: one refill is always enough, and the buffer never overflows: after `need(k)`, `k ≤ 32`, the buffer has at least
`k` bits and `POS` is as before (R33); either the bits were there, or `NAVAIL ≤ 31` at the call, exactly one word was
pulled, the one at `WIDX`, and `NAVAIL + 32` bits, 32 to 63, are there. -/
def Obligations.OneRefillIsEnough : Prop :=
  ∀ (bb b : BB) (src : Nat → Option Word) (wc : Count) (k : Nat), k ≤ 32 → bb.need src wc k = .ok b →
    k ≤ b.navail.toNat ∧ b.pos = bb.pos ∧
      ((k ≤ bb.navail.toNat ∧ b = bb) ∨
        (bb.navail.toNat < k ∧ bb.navail.toNat ≤ 31 ∧ (∃ w, src bb.widx.toNat = some w ∧ b = bb.pulled w) ∧
          b.widx.toNat = bb.widx.toNat + 1 ∧ b.navail.toNat = bb.navail.toNat + 32 ∧ 32 ≤ b.navail.toNat ∧
          b.navail.toNat ≤ 63))

/-- R154, R155: `peek(k)` is `BUF[63 : 64-k]`, the stream's `k` bits from `POS` on; `consume(k)` shifts the buffer left by
`k`, zeros entering below, lowers `NAVAIL` by `k`, leaves `WIDX`, moves `POS` by `k`; the buffer behind it holds the stream
from there on. -/
def Obligations.ReadTakesTheStreamsBits : Prop :=
  ∀ (bb : BB) (wc : Count) (words : Nat → Word) (k : Nat), bb.Inv wc → bb.Holds words → k ≤ 32 →
    k ≤ bb.navail.toNat →
    (∀ i, i < k → (bb.peek k).getLsbD i = bb.buf.getLsbD (64 - k + i)) ∧
      (bb.peek k).toNat = streamField words bb.pos k ∧
      (bb.consume k).buf = bb.buf <<< k ∧ (bb.consume k).navail.toNat = bb.navail.toNat - k ∧
      (bb.consume k).widx = bb.widx ∧ (bb.consume k).pos = bb.pos + k ∧ (bb.consume k).Inv wc ∧
      (bb.consume k).Holds words

/-! ## Records -/

/-- R175 to R178, R172, R213: a record whose bits are there decodes to its payload zero-extended, in the slot `OCUR`;
`OCUR` grows by 1, `POS` by the record's length; `DONE` where `OCUR` reaches `VALUE_COUNT`. -/
def Obligations.RecordsDecodeToTheirPayload : Prop :=
  ∀ s : State, (s.dec s.actor).bb.Inv (s.dec s.actor).wordCount →
    (∀ v, s.recordReady .c0 → s.decodesTo (.recC0 v) s.actor [v.setWidth 32] 1 6) ∧
    (∀ v, s.recordReady .c1 → s.decodesTo (.recC1 v) s.actor [v.setWidth 32] 1 13) ∧
    (∀ v, s.recordReady .c2 → s.decodesTo (.recC2 v) s.actor [v.setWidth 32] 1 26) ∧
    ∀ v, s.recordReady .c3 → s.decodesTo (.recC3 v) s.actor [v] 1 34

/-- R252, R256, R257: where the bits of a record run out, its step takes `WordUnderrun`: `STATE <- FAULT`,
`FAULT_CODE <- 1`, no slot written; the bit buffer is as at the start of the step where the tag or the window could not
be had, and two bits past it where the payload could not. -/
def Obligations.RecordWithoutBitsTakesWordUnderrun : Prop :=
  ∀ (s : State) (i : Instr) (c : WClass), i.recClass = some c → (s.dec s.actor).enabled = true →
    (s.dec s.actor).bb.Inv (s.dec s.actor).wordCount → (s.dec s.actor).wordCount.toNat ≤ s.wmemCap →
    ((s.dec s.actor).bitsLeft < c.recLen ∨
      ((s.dec s.actor).batchMode s.actor = true ∧ (s.dec s.actor).bitsLeft < Config.windowBits)) →
    ∃ bb, exec i s = .next (s.setDec s.actor
        { s.dec s.actor with bb := bb, state := .fault, faultCode := .wordUnderrun }) ∧
      bb.widx = (s.dec s.actor).wordCount ∧
      if 2 ≤ (s.dec s.actor).bitsLeft ∧
          ((s.dec s.actor).batchMode s.actor = true → Config.windowBits ≤ (s.dec s.actor).bitsLeft)
      then bb.pos = (s.dec s.actor).bb.pos + 2 else bb = (s.dec s.actor).bb

/-- The frame of a record step (R75, R172, R173): of the machine only the acting decoder changes, of it never the START
operands; of `VOUT` only the slot `OCUR`, and no slot where `OCUR` does not move. -/
def Obligations.RecordStepFrame : Prop :=
  ∀ (s t : State) (i : Instr) (c : WClass), i.recClass = some c → exec i s = .next t →
    s.onlyDec t s.actor ∧ (s.dec s.actor).sameRun (t.dec s.actor) ∧
      (∀ a, a ≠ (s.dec s.actor).ocur.toNat → (t.dec s.actor).vout.read a = (s.dec s.actor).vout.read a) ∧
      ((t.dec s.actor).ocur = (s.dec s.actor).ocur → (t.dec s.actor).vout = (s.dec s.actor).vout)

/-- R69: a record whose slot does not exist leaves its decoder stuck, and nothing else changes (that no part of the step
takes place is read from R15 and R69, log 4). -/
def Obligations.RecordBeyondVoutSticks : Prop :=
  ∀ (s : State) (i : Instr) (c : WClass), i.recClass = some c → (s.dec s.actor).enabled = true →
    s.bitsReady s.actor c.recLen → (s.dec s.actor).voutCap ≤ (s.dec s.actor).ocur.toNat →
    exec i s = .next (s.setDec s.actor { s.dec s.actor with stuck := true })

/-- R172, R192, R271: a decoder without an enabled step, and for a pattern entry a BDEC outside batch mode (R193), does
nothing: nothing changes (that such an instruction is no stop is read from R15, log 13). -/
def Obligations.StepNotEnabledChangesNothing : Prop :=
  ∀ (s : State) (i : Instr),
    ((∃ c, i.recClass = some c) → (s.dec s.actor).enabled = false → exec i s = .next s) ∧
    (i.isPattern = true → (s.bdec.enabled = false ∨ s.bdec.batchMode .bdec = false) → exec i s = .next s)

/-! ## Pattern entries -/

/-- R220, R221, R198, R213: the four-value entries. -/
def Obligations.FourValuePatternsDecode : Prop :=
  ∀ s : State, s.patternReady → s.bdec.bb.Inv s.bdec.wordCount →
    (∀ a b c d x, s.decodesTo (.pat0 a b c d x) .bdec
      [a.setWidth 32, b.setWidth 32, c.setWidth 32, d.setWidth 32] 4 24) ∧
    ∀ a b c d x, s.decodesTo (.pat1 a b c d x) .bdec
      [a.setWidth 32, b.setWidth 32, c.setWidth 32, d.setWidth 32] 4 31

/-- R222, R223, R225, R226, R230, R231 with R198, R213: the three-value entries; the fourth slot of the chunk gets 0. -/
def Obligations.ThreeValuePatternsDecode : Prop :=
  ∀ s : State, s.patternReady → s.bdec.bb.Inv s.bdec.wordCount →
    (∀ a b c x, s.decodesTo (.pat2 a b c x) .bdec [a.setWidth 32, b.setWidth 32, c.setWidth 32, 0] 3 18) ∧
    (∀ a b c x, s.decodesTo (.pat3 a b c x) .bdec [a.setWidth 32, b.setWidth 32, c.setWidth 32, 0] 3 25) ∧
    (∀ a b c x, s.decodesTo (.pat5 a b c x) .bdec [a.setWidth 32, b.setWidth 32, c.setWidth 32, 0] 3 25) ∧
    (∀ a b c, s.decodesTo (.pat6 a b c) .bdec [a.setWidth 32, b.setWidth 32, c.setWidth 32, 0] 3 32) ∧
    (∀ a b c x, s.decodesTo (.pat10 a b c x) .bdec [a.setWidth 32, b.setWidth 32, c.setWidth 32, 0] 3 25) ∧
    ∀ a b c, s.decodesTo (.pat11 a b c) .bdec [a.setWidth 32, b.setWidth 32, c.setWidth 32, 0] 3 32

/-- R224, R227, R228, R232, R233 with R198, R213: the two-value entries; the last two slots of the chunk get 0. -/
def Obligations.TwoValuePatternsDecode : Prop :=
  ∀ s : State, s.patternReady → s.bdec.bb.Inv s.bdec.wordCount →
    (∀ a b x, s.decodesTo (.pat4 a b x) .bdec [a.setWidth 32, b.setWidth 32, 0, 0] 2 12) ∧
    (∀ a b x, s.decodesTo (.pat7 a b x) .bdec [a.setWidth 32, b.setWidth 32, 0, 0] 2 19) ∧
    (∀ a b, s.decodesTo (.pat8 a b) .bdec [a.setWidth 32, b.setWidth 32, 0, 0] 2 32) ∧
    (∀ a b x, s.decodesTo (.pat12 a b x) .bdec [a.setWidth 32, b.setWidth 32, 0, 0] 2 19) ∧
    ∀ a b x, s.decodesTo (.pat13 a b x) .bdec [a.setWidth 32, b.setWidth 32, 0, 0] 2 26

/-- R229, R234, R235 with R198, R213: the one-value entries; the chunk still has four slots, three of them 0. -/
def Obligations.OneValuePatternsDecode : Prop :=
  ∀ s : State, s.patternReady → s.bdec.bb.Inv s.bdec.wordCount →
    (∀ a x, s.decodesTo (.pat9 a x) .bdec [a.setWidth 32, 0, 0, 0] 1 6) ∧
    (∀ a x, s.decodesTo (.pat14 a x) .bdec [a.setWidth 32, 0, 0, 0] 1 13) ∧
    ∀ a x, s.decodesTo (.pat15 a x) .bdec [a.setWidth 32, 0, 0, 0] 1 26

/-- R194, R252, R256, R257: where the window's bits run out, a pattern entry's step takes `WordUnderrun`, the bit buffer
as at the start of the step. -/
def Obligations.PatternWithoutWindowTakesWordUnderrun : Prop :=
  ∀ (s : State) (i : Instr), i.isPattern = true → s.bdec.enabled = true → s.bdec.batchMode .bdec = true →
    s.bdec.bitsLeft < Config.windowBits →
    exec i s = .next { s with bdec := { s.bdec with state := .fault, faultCode := .wordUnderrun } }

/-- The frame of a pattern step (R68, R75, R192, R198): only BDEC changes, never its START operands; of `VOUT` only the
four slots from `OCUR` on, and no slot where `OCUR` does not move. -/
def Obligations.PatternStepFrame : Prop :=
  ∀ (s t : State) (i : Instr), i.isPattern = true → exec i s = .next t →
    s.onlyDec t .bdec ∧ s.bdec.sameRun t.bdec ∧
      (∀ a, (a < s.bdec.ocur.toNat ∨ s.bdec.ocur.toNat + 4 ≤ a) → t.bdec.vout.read a = s.bdec.vout.read a) ∧
      (t.bdec.ocur = s.bdec.ocur → t.bdec.vout = s.bdec.vout)

/-- R69: a pattern entry one of whose four slots does not exist leaves BDEC stuck, and nothing else changes (no part of
the step takes place: log 4). -/
def Obligations.PatternBeyondVoutSticks : Prop :=
  ∀ (s : State) (i : Instr), i.isPattern = true → s.bdec.enabled = true → s.bdec.batchMode .bdec = true →
    s.bitsReady .bdec Config.windowBits → s.bdec.voutCap ≤ s.bdec.ocur.toNat + 3 →
    exec i s = .next { s with bdec := { s.bdec with stuck := true } }

/-! ## The encoder -/

/-- R123 to R127, R134: a push that fits appends the record of its value to the bits appended so far, adds the record's
length to `BIT_COUNT` and 1 to `VALUE_COUNT`, and leaves `NBITS ≤ 31`. -/
def Obligations.PushAppendsTheRecordOfItsValue : Prop :=
  ∀ (s : State) (v : Word), s.enc.accepts = true → s.enc.Inv →
    (0 < s.pushWords v → s.enc.wcount.toNat + s.pushWords v ≤ s.wmemCap ∧
      s.enc.wcount.toNat + s.pushWords v < 2 ^ 64) →
    ∃ t, exec (.encPush v) s = .next t ∧ t.enc.accepts = true ∧ t.enc.Inv ∧
      t.enc.bitCount = s.enc.bitCount + BitVec.ofNat 64 (classOf v).recLen ∧
      t.enc.valueCount = s.enc.valueCount + 1 ∧
      t.enc.bitsAppended = s.enc.bitsAppended + (classOf v).recLen ∧
      (∀ k, k < s.enc.bitsAppended → t.appendedBit k = s.appendedBit k) ∧
      ∀ k, k < (classOf v).recLen → t.appendedBit (s.enc.bitsAppended + k) = (recordOf v).getD k false

/-- R128: `ENC_FINISH` emits the pending bits left-justified, zeros below, as one last word, none where none are pending;
`DONE`; the counts of bits and values stay. -/
def Obligations.FinishEmitsThePendingBits : Prop :=
  ∀ s : State, s.enc.accepts = true → s.enc.Inv → (s.enc.nbits ≠ 0 → s.enc.wcount.toNat < s.wmemCap) →
    ∃ t, exec .encFinish s = .next t ∧ t.enc.state = .done ∧ t.enc.nbits = 0 ∧ t.enc.acc = 0 ∧
      t.enc.bitCount = s.enc.bitCount ∧ t.enc.valueCount = s.enc.valueCount ∧
      (s.enc.nbits = 0 → t.enc.wcount = s.enc.wcount ∧ t.wmem = s.wmem) ∧
      (s.enc.nbits ≠ 0 → t.enc.wcount = s.enc.wcount + 1 ∧
        ∃ w, t.wmem.read s.enc.wcount.toNat = some w ∧ ∀ b, b < 32 →
          w.getLsbD b =
            (decide (32 - s.enc.nbits.toNat ≤ b) && s.enc.acc.getLsbD (b - (32 - s.enc.nbits.toNat))))

/-- The frame of ENC's two storing commands (R70, R123, R128): a push stores at most at the words `WCOUNT` and
`WCOUNT + 1`, a finish at most at the word `WCOUNT`, and at none where `WCOUNT` does not move; nothing but ENC and `WMEM`
changes, but for the note a running decoder gets of a write into its words (log 8) or of a finish of words it reads
(log 23). -/
def Obligations.EncStoreFrame : Prop :=
  (∀ (s t : State) (v : Word), exec (.encPush v) s = .next t →
    s.encOnly t ∧ (t.enc.wcount = s.enc.wcount → t.wmem = s.wmem) ∧
      (t.enc.wcount = s.enc.wcount + 1 → ∀ a, a ≠ s.enc.wcount.toNat → t.wmem.read a = s.wmem.read a) ∧
      ∀ a, a ≠ s.enc.wcount.toNat → a ≠ (s.enc.wcount + 1).toNat → t.wmem.read a = s.wmem.read a) ∧
    ∀ s t : State, exec .encFinish s = .next t →
      s.encOnly t ∧ (t.enc.wcount = s.enc.wcount → t.wmem = s.wmem) ∧
        (∀ a, a ≠ s.enc.wcount.toNat → t.wmem.read a = s.wmem.read a) ∧
        t.enc.bitCount = s.enc.bitCount ∧ t.enc.valueCount = s.enc.valueCount

/-- R69, R286: a push or a finish whose word does not exist leaves ENC stuck with nothing else changed; stuck, it takes
neither; `ENC_START` recovers it (no part of the step takes place: log 4). -/
def Obligations.EncBeyondWmemSticksUntilStart : Prop :=
  ∀ (s : State) (v : Word), s.enc.accepts = true → s.enc.Inv →
    (0 < s.pushWords v → s.wmemCap < s.enc.wcount.toNat + s.pushWords v → s.enc.wcount.toNat + 2 < 2 ^ 64 →
      exec (.encPush v) s = .next { s with enc := { s.enc with stuck := true } }) ∧
    (s.enc.nbits ≠ 0 → s.wmemCap ≤ s.enc.wcount.toNat →
      exec .encFinish s = .next { s with enc := { s.enc with stuck := true } }) ∧
    ∀ t : State, t.enc.stuck = true → exec (.encPush v) t = .next t ∧ exec .encFinish t = .next t ∧
      ∃ u, exec .encStart t = .next u ∧ u.enc.accepts = true

/-- R289, R78: a word of `WMEM` below the `WORD_COUNT` of a running decoder, written by the host, marks that decoder's
run, and what it pulls from then on is a free value, whatever the memory holds (the model's treatment, log 8). -/
def Obligations.WriteUnderARunningDecoderFreesItsWords : Prop :=
  ∀ (s : State) (d : DecId) (i : Count) (v : Word) (later : List Input),
    s.inputs = ⟨false, .writeWord i v⟩ :: later → i.toNat < s.wmemCap → (s.dec d).state = .run →
    i.toNat < (s.dec d).wordCount.toNat →
    ∃ t n, step s = .next t ∧ t.wmem.read i.toNat = some v ∧ (t.dec d).taint = some n ∧
      ∀ k, k < t.wmemCap → t.wordAt d k = some (Config.mixedWord n k)

/-- R285 item 1, R74, R286: a word that ENC wrote is one of an unfinished encode until ENC reaches `DONE` or the host
supplies it; neither `ENC_START` nor `RESET` finishes an encode. Once a finish reaches `DONE`, every word of `WMEM` is found
as it stands, the garbage behind the artifact too (R122, R255). A word the host supplies is the word it gave (R60), and
with word 0 the artifact is the host's, whatever an abandoned encode left behind it (R62, R255). That
the model notes these words is its own choice (log 23). -/
def Obligations.WordsStayUnfinishedUntilDone : Prop :=
  (∀ (s t : State) (v : Word), exec (.encPush v) s = .next t →
    (∀ i ∈ s.unfinished, i ∈ t.unfinished) ∧
      (t.enc.wcount ≠ s.enc.wcount → s.enc.wcount.toNat ∈ t.unfinished) ∧
      (t.enc.wcount = s.enc.wcount + 2 → (s.enc.wcount + 1).toNat ∈ t.unfinished)) ∧
    (∀ s t : State, s.enc.accepts = true → exec .encFinish s = .next t → t.enc.state = .done →
      t.unfinished = [] ∧ ∀ i, t.words i = (t.wmem.read i).getD (Config.powerUpWord i)) ∧
    (∀ s t : State, exec .encStart s = .next t → t.unfinished = s.unfinished) ∧
    (∀ (s t : State) (a : HostAction) (later : List Input), s.inputs = ⟨true, a⟩ :: later → step s = .next t →
      t.unfinished = s.unfinished) ∧
    ∀ (s : State) (i : Count) (v : Word) (later : List Input), s.inputs = ⟨false, .writeWord i v⟩ :: later →
      i.toNat < s.wmemCap →
      ∃ t, step s = .next t ∧ t.wmem.read i.toNat = some v ∧
        (∀ a, a ≠ i.toNat → t.wmem.read a = s.wmem.read a) ∧
        (∀ j, j ∈ t.unfinished ↔ j ∈ s.unfinished ∧ j ≠ i.toNat ∧ i.toNat ≠ 0)

/-! ## The whole machine -/

/-- The invariant (R22, R23, R29, R36 to R38, R136, R156, R253 and the memories' canonical form, log 9) holds right after
reset. -/
def Obligations.InvariantHoldsAtReset : Prop := State.reset.Inv

/-- Every step keeps the invariant, from every state that has it: ENC's pending bits stay below `NBITS ≤ 31` and its
counts agree (R136); each bit buffer holds exactly the stream's unconsumed bits over zeros (R29, R156); `OCUR` stays
within `VALUE_COUNT`, `FAULT_CODE` agrees with `FAULT` (R36 to R38); no word of a claimed run is written by an encode under
way (R289; log 8); the memories and the list of unfinished words keep
their form (log 9, log 23) and the memories their capacity. -/
def Obligations.EveryStepKeepsTheInvariant : Prop :=
  ∀ s t : State, s.Inv → step s = .next t → t.Inv

/-- R75, R269: a decoder's step changes nothing of ENC, of `WMEM`, of the other decoder. -/
def Obligations.DecodersDoNotAffectEachOther : Prop :=
  ∀ (s t : State) (d : DecId), s.decoderStep d = .next t →
    t.enc = s.enc ∧ t.wmem = s.wmem ∧ (∀ d', d' ≠ d → t.dec d' = s.dec d') ∧ (s.dec d).sameRun (t.dec d)

/-- R292: an enabled decoder's step raises `OCUR` by 1 to 4 within `VALUE_COUNT` and leaves the decoder in `DONE` where
`OCUR` reaches it and in `RUN` otherwise, or ends in `FAULT`, or leaves the decoder stuck in `RUN` (log 4); nothing else can
become of it. -/
def Obligations.EveryDecoderStepMakesProgress : Prop :=
  ∀ (s t : State) (d : DecId), (s.dec d).Inv → (s.dec d).enabled = true → s.decoderStep d = .next t →
    ((s.dec d).ocur.toNat < (t.dec d).ocur.toNat ∧ (t.dec d).ocur.toNat ≤ (s.dec d).ocur.toNat + 4 ∧
        (t.dec d).ocur.toNat ≤ (s.dec d).valueCount.toNat ∧
        (t.dec d).state = if (t.dec d).ocur = (s.dec d).valueCount then .done else .run) ∨
      ((t.dec d).state = .fault ∧ (t.dec d).faultCode = .wordUnderrun ∧ (t.dec d).ocur = (s.dec d).ocur) ∨
      ((t.dec d).stuck = true ∧ (t.dec d).state = .run ∧ (t.dec d).ocur = (s.dec d).ocur)

/-- R212, R216: a batch-mode step of BDEC leaves at least 12 values to decode, does not reach `DONE`, and writes no slot at
or beyond `VALUE_COUNT`. -/
def Obligations.BatchStepStaysInsideTheOutput : Prop :=
  ∀ s t : State, s.bdec.Inv → s.bdec.enabled = true → s.bdec.batchMode .bdec = true → s.decoderStep .bdec = .next t →
    t.bdec.state ≠ .done ∧ (t.bdec.state = .run → 12 ≤ t.bdec.remaining.toNat) ∧
      ∀ a, s.bdec.valueCount.toNat ≤ a → t.bdec.vout.read a = s.bdec.vout.read a

/-- R134: `ENCODE(vs)` writes the words of the concatenated records, and counts them. -/
def Obligations.EncodeWritesTheStreamOfItsValues : Prop :=
  ∀ (s : State) (vs : List Word), wordsFor (streamOf vs).length ≤ s.wmemCap →
    wordsFor (streamOf vs).length < 2 ^ 64 →
    ∃ t, runInstrs (encodeCommands vs) s = .next t ∧ t.enc.state = .done ∧
      t.enc.valueCount = BitVec.ofNat 64 vs.length ∧ t.enc.bitCount = BitVec.ofNat 64 (streamOf vs).length ∧
      t.enc.wcount.toNat = wordsFor (streamOf vs).length ∧
      ∀ k, k < wordsFor (streamOf vs).length → t.wmem.read k = some (wordOfBits ((streamOf vs).drop (32 * k)))

/-- R180: SDEC started with `(wc, vc)`, not while ENC is `BUSY` (R288), on words whose first `vc` records end within them
takes `vc` steps to `DONE`, with the records' values in `VOUT`, `POS` at the end of the last record, no word pulled past it,
and no fault. A word left by an unfinished encode counts with its free value (R285 item 1; log 23). -/
def Obligations.SdecRunDecodesTheParse : Prop :=
  ∀ (s : State) (wc vc : Count), s.sdec.state ≠ .run → s.encOwns wc = false → wc.toNat ≤ s.wmemCap →
    vc.toNat ≤ s.sdec.voutCap →
    recordStart s.words vc.toNat ≤ 32 * wc.toNat →
    ∃ t, (s.startDec .sdec wc vc).decSteps .sdec vc.toNat = .next t ∧ t.sdec.state = .done ∧ t.sdec.ocur = vc ∧
      t.sdec.faultCode = .none ∧ t.sdec.bb.pos = recordStart s.words vc.toNat ∧
      t.sdec.bb.widx.toNat = wordsFor (recordStart s.words vc.toNat) ∧
      ∀ k, k < vc.toNat → t.sdec.vout.read k = some (valueAt s.words (recordStart s.words k))

/-- R181: decoding with SDEC what ENC makes of a sequence, with ENC's counts, gives the sequence; so does decoding with a
larger `wc`, whatever stands behind the artifact (R290 H2). -/
def Obligations.ScalarRoundTrip : Prop :=
  ∀ (s : State) (vs : List Word), s.sdec.state ≠ .run → vs.length < 2 ^ 64 →
    wordsFor (streamOf vs).length ≤ s.wmemCap → wordsFor (streamOf vs).length < 2 ^ 64 →
    vs.length ≤ s.sdec.voutCap →
    ∃ t, runInstrs (encodeCommands vs) s = .next t ∧
      ∀ wc : Count, t.enc.wcount ≤ wc → wc.toNat ≤ s.wmemCap →
        ∃ u, (t.startDec .sdec wc t.enc.valueCount).decSteps .sdec vs.length = .next u ∧ u.sdec.state = .done ∧
          ∀ k (h : k < vs.length), u.sdec.vout.read k = some vs[k]

/-- R214, S12: decoding with BDEC what ENC makes of a sequence gives the sequence, with ENC's word count or a larger one
(R290 H2). -/
def Obligations.BatchedRoundTrip : Prop :=
  ∀ (s : State) (vs : List Word), s.bdec.state ≠ .run → vs.length < 2 ^ 64 →
    wordsFor (streamOf vs).length ≤ s.wmemCap → wordsFor (streamOf vs).length < 2 ^ 64 →
    vs.length ≤ s.bdec.voutCap →
    ∃ t, runInstrs (encodeCommands vs) s = .next t ∧
      ∀ wc : Count, t.enc.wcount ≤ wc → wc.toNat ≤ s.wmemCap →
        ∃ u, (t.startDec .bdec wc t.enc.valueCount).decSteps .bdec vs.length = .next u ∧ u.bdec.state = .done ∧
          ∀ k (h : k < vs.length), u.bdec.vout.read k = some vs[k]

/-- R214: whenever SDEC started with `(wc, vc)` ends in `DONE`, so does BDEC, with the same values and the same `POS`;
whenever SDEC ends in `FAULT`, so does BDEC. -/
def Obligations.BatchedDecoderAgreesWithScalar : Prop :=
  ∀ (s t : State) (wc vc : Count), s.sdec.state ≠ .run → s.bdec.state ≠ .run → wc.toNat ≤ s.wmemCap →
    vc.toNat ≤ s.sdec.voutCap → vc.toNat ≤ s.bdec.voutCap →
    (s.startDec .sdec wc vc).decSteps .sdec vc.toNat = .next t →
    ∃ u, (s.startDec .bdec wc vc).decSteps .bdec vc.toNat = .next u ∧
      (t.sdec.state = .done → u.bdec.state = .done ∧ u.bdec.bb.pos = t.sdec.bb.pos ∧
        ∀ k, k < vc.toNat → u.bdec.vout.read k = t.sdec.vout.read k) ∧
      (t.sdec.state = .fault → u.bdec.state = .fault)

/-- R100: the values decoded do not depend on the bits behind the last record: two machines whose words agree on the bits
of the first `vc` records decode the same values (neither started while ENC is `BUSY`, R288; log 23). -/
def Obligations.DecodedValuesIgnorePadBits : Prop :=
  ∀ (s s' t t' : State) (wc vc : Count), s.sdec.state ≠ .run → s'.sdec.state ≠ .run →
    s.encOwns wc = false → s'.encOwns wc = false → wc.toNat ≤ s.wmemCap →
    wc.toNat ≤ s'.wmemCap → vc.toNat ≤ s.sdec.voutCap → vc.toNat ≤ s'.sdec.voutCap →
    recordStart s.words vc.toNat ≤ 32 * wc.toNat →
    (∀ p, p < recordStart s.words vc.toNat → streamBit s'.words p = streamBit s.words p) →
    (s.startDec .sdec wc vc).decSteps .sdec vc.toNat = .next t →
    (s'.startDec .sdec wc vc).decSteps .sdec vc.toNat = .next t' →
    t'.sdec.state = .done ∧ ∀ k, k < vc.toNat → t'.sdec.vout.read k = t.sdec.vout.read k
end

