-- ==== Sys2Proof/Laws/State.lean ====
section
/-! SUPPORT. What each named update of a record leaves in each field: one lemma per field per update. -/

namespace Sys2Proof.Machine

@[simp] theorem Enc.append_acc (e : Enc) (b : Buffer) (k : Nat) : (e.append b k).acc = (e.acc <<< k) ||| b := rfl
@[simp] theorem Enc.append_nbits (e : Enc) (b : Buffer) (k : Nat) : (e.append b k).nbits = e.nbits + BitVec.ofNat 6 k := rfl
@[simp] theorem Enc.append_wcount (e : Enc) (b : Buffer) (k : Nat) : (e.append b k).wcount = e.wcount := rfl
@[simp] theorem Enc.append_bitCount (e : Enc) (b : Buffer) (k : Nat) : (e.append b k).bitCount = e.bitCount := rfl
@[simp] theorem Enc.append_valueCount (e : Enc) (b : Buffer) (k : Nat) : (e.append b k).valueCount = e.valueCount := rfl
@[simp] theorem Enc.append_state (e : Enc) (b : Buffer) (k : Nat) : (e.append b k).state = e.state := rfl
@[simp] theorem Enc.append_stuck (e : Enc) (b : Buffer) (k : Nat) : (e.append b k).stuck = e.stuck := rfl
@[simp] theorem Enc.emitted_acc (e : Enc) : (e.emitted).acc = e.acc &&& mask64 (e.nbits.toNat - 32) := rfl
@[simp] theorem Enc.emitted_nbits (e : Enc) : (e.emitted).nbits = e.nbits - 32 := rfl
@[simp] theorem Enc.emitted_wcount (e : Enc) : (e.emitted).wcount = e.wcount + 1 := rfl
@[simp] theorem Enc.emitted_bitCount (e : Enc) : (e.emitted).bitCount = e.bitCount := rfl
@[simp] theorem Enc.emitted_valueCount (e : Enc) : (e.emitted).valueCount = e.valueCount := rfl
@[simp] theorem Enc.emitted_state (e : Enc) : (e.emitted).state = e.state := rfl
@[simp] theorem Enc.emitted_stuck (e : Enc) : (e.emitted).stuck = e.stuck := rfl
@[simp] theorem Enc.count_acc (e : Enc) (c : WClass) : (e.count c).acc = e.acc := rfl
@[simp] theorem Enc.count_nbits (e : Enc) (c : WClass) : (e.count c).nbits = e.nbits := rfl
@[simp] theorem Enc.count_wcount (e : Enc) (c : WClass) : (e.count c).wcount = e.wcount := rfl
@[simp] theorem Enc.count_bitCount (e : Enc) (c : WClass) : (e.count c).bitCount = e.bitCount + BitVec.ofNat 64 c.recLen := rfl
@[simp] theorem Enc.count_valueCount (e : Enc) (c : WClass) : (e.count c).valueCount = e.valueCount + 1 := rfl
@[simp] theorem Enc.count_state (e : Enc) (c : WClass) : (e.count c).state = e.state := rfl
@[simp] theorem Enc.count_stuck (e : Enc) (c : WClass) : (e.count c).stuck = e.stuck := rfl
@[simp] theorem BB.pulled_buf (bb : BB) (w : Word) : (bb.pulled w).buf = bb.buf ||| (w.setWidth 64 <<< (32 - bb.navail.toNat)) := rfl
@[simp] theorem BB.pulled_navail (bb : BB) (w : Word) : (bb.pulled w).navail = bb.navail + 32 := rfl
@[simp] theorem BB.pulled_widx (bb : BB) (w : Word) : (bb.pulled w).widx = bb.widx + 1 := rfl
@[simp] theorem BB.consume_buf (bb : BB) (w : Nat) : (bb.consume w).buf = bb.buf <<< w := rfl
@[simp] theorem BB.consume_navail (bb : BB) (w : Nat) : (bb.consume w).navail = bb.navail - BitVec.ofNat 6 w := rfl
@[simp] theorem BB.consume_widx (bb : BB) (w : Nat) : (bb.consume w).widx = bb.widx := rfl
@[simp] theorem Dec.stick_bb (x : Dec) : (x.stick).bb = x.bb := rfl
@[simp] theorem Dec.stick_wordCount (x : Dec) : (x.stick).wordCount = x.wordCount := rfl
@[simp] theorem Dec.stick_valueCount (x : Dec) : (x.stick).valueCount = x.valueCount := rfl
@[simp] theorem Dec.stick_ocur (x : Dec) : (x.stick).ocur = x.ocur := rfl
@[simp] theorem Dec.stick_state (x : Dec) : (x.stick).state = x.state := rfl
@[simp] theorem Dec.stick_faultCode (x : Dec) : (x.stick).faultCode = x.faultCode := rfl
@[simp] theorem Dec.stick_stuck (x : Dec) : (x.stick).stuck = true := rfl
@[simp] theorem Dec.stick_taint (x : Dec) : (x.stick).taint = x.taint := rfl
@[simp] theorem Dec.stick_vout (x : Dec) : (x.stick).vout = x.vout := rfl
@[simp] theorem Dec.stick_voutCap (x : Dec) : (x.stick).voutCap = x.voutCap := rfl
@[simp] theorem Dec.raiseUnderrun_bb (x : Dec) : (x.raiseUnderrun).bb = x.bb := rfl
@[simp] theorem Dec.raiseUnderrun_wordCount (x : Dec) : (x.raiseUnderrun).wordCount = x.wordCount := rfl
@[simp] theorem Dec.raiseUnderrun_valueCount (x : Dec) : (x.raiseUnderrun).valueCount = x.valueCount := rfl
@[simp] theorem Dec.raiseUnderrun_ocur (x : Dec) : (x.raiseUnderrun).ocur = x.ocur := rfl
@[simp] theorem Dec.raiseUnderrun_state (x : Dec) : (x.raiseUnderrun).state = .fault := rfl
@[simp] theorem Dec.raiseUnderrun_faultCode (x : Dec) : (x.raiseUnderrun).faultCode = .wordUnderrun := rfl
@[simp] theorem Dec.raiseUnderrun_stuck (x : Dec) : (x.raiseUnderrun).stuck = x.stuck := rfl
@[simp] theorem Dec.raiseUnderrun_taint (x : Dec) : (x.raiseUnderrun).taint = x.taint := rfl
@[simp] theorem Dec.raiseUnderrun_vout (x : Dec) : (x.raiseUnderrun).vout = x.vout := rfl
@[simp] theorem Dec.raiseUnderrun_voutCap (x : Dec) : (x.raiseUnderrun).voutCap = x.voutCap := rfl
@[simp] theorem Dec.start_bb (x : Dec) (wc vc : Count) : (x.start wc vc).bb = BB.reset := rfl
@[simp] theorem Dec.start_wordCount (x : Dec) (wc vc : Count) : (x.start wc vc).wordCount = wc := rfl
@[simp] theorem Dec.start_valueCount (x : Dec) (wc vc : Count) : (x.start wc vc).valueCount = vc := rfl
@[simp] theorem Dec.start_ocur (x : Dec) (wc vc : Count) : (x.start wc vc).ocur = 0 := rfl
@[simp] theorem Dec.start_state (x : Dec) (wc vc : Count) : (x.start wc vc).state = startState vc := rfl
@[simp] theorem Dec.start_faultCode (x : Dec) (wc vc : Count) : (x.start wc vc).faultCode = .none := rfl
@[simp] theorem Dec.start_stuck (x : Dec) (wc vc : Count) : (x.start wc vc).stuck = false := rfl
@[simp] theorem Dec.start_taint (x : Dec) (wc vc : Count) : (x.start wc vc).taint = none := rfl
@[simp] theorem Dec.start_vout (x : Dec) (wc vc : Count) : (x.start wc vc).vout = x.vout := rfl
@[simp] theorem Dec.start_voutCap (x : Dec) (wc vc : Count) : (x.start wc vc).voutCap = x.voutCap := rfl
@[simp] theorem Dec.advance_bb (x : Dec) (n : Nat) : (x.advance n).bb = x.bb := rfl
@[simp] theorem Dec.advance_wordCount (x : Dec) (n : Nat) : (x.advance n).wordCount = x.wordCount := rfl
@[simp] theorem Dec.advance_valueCount (x : Dec) (n : Nat) : (x.advance n).valueCount = x.valueCount := rfl
@[simp] theorem Dec.advance_ocur (x : Dec) (n : Nat) : (x.advance n).ocur = x.ocur + BitVec.ofNat 64 n := rfl
@[simp] theorem Dec.advance_state (x : Dec) (n : Nat) : (x.advance n).state = if x.ocur + BitVec.ofNat 64 n = x.valueCount then .done else x.state := rfl
@[simp] theorem Dec.advance_faultCode (x : Dec) (n : Nat) : (x.advance n).faultCode = x.faultCode := rfl
@[simp] theorem Dec.advance_stuck (x : Dec) (n : Nat) : (x.advance n).stuck = x.stuck := rfl
@[simp] theorem Dec.advance_taint (x : Dec) (n : Nat) : (x.advance n).taint = x.taint := rfl
@[simp] theorem Dec.advance_vout (x : Dec) (n : Nat) : (x.advance n).vout = x.vout := rfl
@[simp] theorem Dec.advance_voutCap (x : Dec) (n : Nat) : (x.advance n).voutCap = x.voutCap := rfl
@[simp] theorem State.encAppend_enc (s : State) (b : Buffer) (k : Nat) : (s.encAppend b k).enc = s.enc.append b k := rfl
@[simp] theorem State.encAppend_sdec (s : State) (b : Buffer) (k : Nat) : (s.encAppend b k).sdec = s.sdec := rfl
@[simp] theorem State.encAppend_bdec (s : State) (b : Buffer) (k : Nat) : (s.encAppend b k).bdec = s.bdec := rfl
@[simp] theorem State.encAppend_wmem (s : State) (b : Buffer) (k : Nat) : (s.encAppend b k).wmem = s.wmem := rfl
@[simp] theorem State.encAppend_wmemCap (s : State) (b : Buffer) (k : Nat) : (s.encAppend b k).wmemCap = s.wmemCap := rfl
@[simp] theorem State.encAppend_inputs (s : State) (b : Buffer) (k : Nat) : (s.encAppend b k).inputs = s.inputs := rfl
@[simp] theorem State.encAppend_actor (s : State) (b : Buffer) (k : Nat) : (s.encAppend b k).actor = s.actor := rfl
@[simp] theorem State.encAppend_unfinished (s : State) (b : Buffer) (k : Nat) : (s.encAppend b k).unfinished = s.unfinished := rfl
@[simp] theorem State.encAppend_free (s : State) (b : Buffer) (k : Nat) : (s.encAppend b k).free = s.free := rfl
@[simp] theorem State.stickEnc_sdec (s : State) : (s.stickEnc).sdec = s.sdec := rfl
@[simp] theorem State.stickEnc_bdec (s : State) : (s.stickEnc).bdec = s.bdec := rfl
@[simp] theorem State.stickEnc_wmem (s : State) : (s.stickEnc).wmem = s.wmem := rfl
@[simp] theorem State.stickEnc_wmemCap (s : State) : (s.stickEnc).wmemCap = s.wmemCap := rfl
@[simp] theorem State.stickEnc_inputs (s : State) : (s.stickEnc).inputs = s.inputs := rfl
@[simp] theorem State.stickEnc_actor (s : State) : (s.stickEnc).actor = s.actor := rfl
@[simp] theorem State.stickEnc_unfinished (s : State) : (s.stickEnc).unfinished = s.unfinished := rfl
@[simp] theorem State.stickEnc_free (s : State) : (s.stickEnc).free = s.free := rfl
@[simp] theorem State.completeArtifact_enc (s : State) (e : Enc) : (s.completeArtifact e).enc =
    { e with state := .done } := rfl
@[simp] theorem State.completeArtifact_sdec (s : State) (e : Enc) : (s.completeArtifact e).sdec =
    s.sdec.noteFinish s.unfinished s.free := rfl
@[simp] theorem State.completeArtifact_bdec (s : State) (e : Enc) : (s.completeArtifact e).bdec =
    s.bdec.noteFinish s.unfinished (s.free + 1) := rfl
@[simp] theorem State.completeArtifact_wmem (s : State) (e : Enc) : (s.completeArtifact e).wmem = s.wmem := rfl
@[simp] theorem State.completeArtifact_wmemCap (s : State) (e : Enc) : (s.completeArtifact e).wmemCap = s.wmemCap := rfl
@[simp] theorem State.completeArtifact_unfinished (s : State) (e : Enc) : (s.completeArtifact e).unfinished = [] := rfl
@[simp] theorem State.completeArtifact_inputs (s : State) (e : Enc) : (s.completeArtifact e).inputs = s.inputs := rfl
@[simp] theorem State.completeArtifact_actor (s : State) (e : Enc) : (s.completeArtifact e).actor = s.actor := rfl
@[simp] theorem State.resetRegisters_enc (s : State) : (s.resetRegisters).enc = Enc.reset := rfl
@[simp] theorem State.resetRegisters_sdec (s : State) : (s.resetRegisters).sdec = Dec.resetOver s.sdec.vout s.sdec.voutCap := rfl
@[simp] theorem State.resetRegisters_bdec (s : State) : (s.resetRegisters).bdec = Dec.resetOver s.bdec.vout s.bdec.voutCap := rfl
@[simp] theorem State.resetRegisters_wmem (s : State) : (s.resetRegisters).wmem = s.wmem := rfl
@[simp] theorem State.resetRegisters_wmemCap (s : State) : (s.resetRegisters).wmemCap = s.wmemCap := rfl
@[simp] theorem State.resetRegisters_inputs (s : State) : (s.resetRegisters).inputs = s.inputs := rfl
@[simp] theorem State.resetRegisters_actor (s : State) : (s.resetRegisters).actor = s.actor := rfl
@[simp] theorem State.resetRegisters_unfinished (s : State) : (s.resetRegisters).unfinished = s.unfinished := rfl
@[simp] theorem State.resetRegisters_free (s : State) : (s.resetRegisters).free = s.free := rfl
@[simp] theorem State.setDec_enc (s : State) (d : DecId) (x : Dec) : (s.setDec d x).enc = s.enc := by
  cases d <;> rfl
@[simp] theorem State.takeUnderrun_enc (s : State) (d : DecId) (bb : BB) : (s.takeUnderrun d bb).enc = s.enc := by
  cases d <;> rfl
@[simp] theorem State.afterDecode_enc (s : State) (d : DecId) (vs : List Word) (n : Nat) (bb : BB) :
    (s.afterDecode d vs n bb).enc = s.enc := by
  cases d <;> rfl
@[simp] theorem State.setDec_wmem (s : State) (d : DecId) (x : Dec) : (s.setDec d x).wmem = s.wmem := by
  cases d <;> rfl
@[simp] theorem State.takeUnderrun_wmem (s : State) (d : DecId) (bb : BB) : (s.takeUnderrun d bb).wmem = s.wmem := by
  cases d <;> rfl
@[simp] theorem State.afterDecode_wmem (s : State) (d : DecId) (vs : List Word) (n : Nat) (bb : BB) :
    (s.afterDecode d vs n bb).wmem = s.wmem := by
  cases d <;> rfl
@[simp] theorem State.setDec_wmemCap (s : State) (d : DecId) (x : Dec) : (s.setDec d x).wmemCap = s.wmemCap := by
  cases d <;> rfl
@[simp] theorem State.takeUnderrun_wmemCap (s : State) (d : DecId) (bb : BB) : (s.takeUnderrun d bb).wmemCap = s.wmemCap := by
  cases d <;> rfl
@[simp] theorem State.afterDecode_wmemCap (s : State) (d : DecId) (vs : List Word) (n : Nat) (bb : BB) :
    (s.afterDecode d vs n bb).wmemCap = s.wmemCap := by
  cases d <;> rfl
@[simp] theorem State.setDec_inputs (s : State) (d : DecId) (x : Dec) : (s.setDec d x).inputs = s.inputs := by
  cases d <;> rfl
@[simp] theorem State.takeUnderrun_inputs (s : State) (d : DecId) (bb : BB) : (s.takeUnderrun d bb).inputs = s.inputs := by
  cases d <;> rfl
@[simp] theorem State.afterDecode_inputs (s : State) (d : DecId) (vs : List Word) (n : Nat) (bb : BB) :
    (s.afterDecode d vs n bb).inputs = s.inputs := by
  cases d <;> rfl
@[simp] theorem State.setDec_actor (s : State) (d : DecId) (x : Dec) : (s.setDec d x).actor = s.actor := by
  cases d <;> rfl
@[simp] theorem State.takeUnderrun_actor (s : State) (d : DecId) (bb : BB) : (s.takeUnderrun d bb).actor = s.actor := by
  cases d <;> rfl
@[simp] theorem State.afterDecode_actor (s : State) (d : DecId) (vs : List Word) (n : Nat) (bb : BB) :
    (s.afterDecode d vs n bb).actor = s.actor := by
  cases d <;> rfl
@[simp] theorem State.setDec_unfinished (s : State) (d : DecId) (x : Dec) : (s.setDec d x).unfinished = s.unfinished := by
  cases d <;> rfl
@[simp] theorem State.setDec_free (s : State) (d : DecId) (x : Dec) : (s.setDec d x).free = s.free := by
  cases d <;> rfl
@[simp] theorem State.takeUnderrun_unfinished (s : State) (d : DecId) (bb : BB) : (s.takeUnderrun d bb).unfinished = s.unfinished := by
  cases d <;> rfl
@[simp] theorem State.takeUnderrun_free (s : State) (d : DecId) (bb : BB) : (s.takeUnderrun d bb).free = s.free := by
  cases d <;> rfl
@[simp] theorem State.afterDecode_unfinished (s : State) (d : DecId) (vs : List Word) (n : Nat) (bb : BB) :
    (s.afterDecode d vs n bb).unfinished = s.unfinished := by
  cases d <;> rfl
@[simp] theorem State.afterDecode_free (s : State) (d : DecId) (vs : List Word) (n : Nat) (bb : BB) :
    (s.afterDecode d vs n bb).free = s.free := by
  cases d <;> rfl
@[simp] theorem Dec.noteFinish_bb (x : Dec) (l : List Nat) (n : Nat) : (x.noteFinish l n).bb = x.bb := by
  unfold Dec.noteFinish; split <;> rfl
@[simp] theorem Dec.noteFinish_wordCount (x : Dec) (l : List Nat) (n : Nat) : (x.noteFinish l n).wordCount = x.wordCount := by
  unfold Dec.noteFinish; split <;> rfl
@[simp] theorem Dec.noteFinish_valueCount (x : Dec) (l : List Nat) (n : Nat) : (x.noteFinish l n).valueCount = x.valueCount := by
  unfold Dec.noteFinish; split <;> rfl
@[simp] theorem Dec.noteFinish_ocur (x : Dec) (l : List Nat) (n : Nat) : (x.noteFinish l n).ocur = x.ocur := by
  unfold Dec.noteFinish; split <;> rfl
@[simp] theorem Dec.noteFinish_state (x : Dec) (l : List Nat) (n : Nat) : (x.noteFinish l n).state = x.state := by
  unfold Dec.noteFinish; split <;> rfl
@[simp] theorem Dec.noteFinish_faultCode (x : Dec) (l : List Nat) (n : Nat) : (x.noteFinish l n).faultCode = x.faultCode := by
  unfold Dec.noteFinish; split <;> rfl
@[simp] theorem Dec.noteFinish_stuck (x : Dec) (l : List Nat) (n : Nat) : (x.noteFinish l n).stuck = x.stuck := by
  unfold Dec.noteFinish; split <;> rfl
@[simp] theorem Dec.noteFinish_vout (x : Dec) (l : List Nat) (n : Nat) : (x.noteFinish l n).vout = x.vout := by
  unfold Dec.noteFinish; split <;> rfl
@[simp] theorem Dec.noteFinish_voutCap (x : Dec) (l : List Nat) (n : Nat) : (x.noteFinish l n).voutCap = x.voutCap := by
  unfold Dec.noteFinish; split <;> rfl
@[simp] theorem Dec.noteWrite_bb (x : Dec) (i n : Nat) : (x.noteWrite i n).bb = x.bb := by
  unfold Dec.noteWrite; split <;> rfl
@[simp] theorem Dec.noteWrite_wordCount (x : Dec) (i n : Nat) : (x.noteWrite i n).wordCount = x.wordCount := by
  unfold Dec.noteWrite; split <;> rfl
@[simp] theorem Dec.noteWrite_valueCount (x : Dec) (i n : Nat) : (x.noteWrite i n).valueCount = x.valueCount := by
  unfold Dec.noteWrite; split <;> rfl
@[simp] theorem Dec.noteWrite_ocur (x : Dec) (i n : Nat) : (x.noteWrite i n).ocur = x.ocur := by
  unfold Dec.noteWrite; split <;> rfl
@[simp] theorem Dec.noteWrite_state (x : Dec) (i n : Nat) : (x.noteWrite i n).state = x.state := by
  unfold Dec.noteWrite; split <;> rfl
@[simp] theorem Dec.noteWrite_faultCode (x : Dec) (i n : Nat) : (x.noteWrite i n).faultCode = x.faultCode := by
  unfold Dec.noteWrite; split <;> rfl
@[simp] theorem Dec.noteWrite_stuck (x : Dec) (i n : Nat) : (x.noteWrite i n).stuck = x.stuck := by
  unfold Dec.noteWrite; split <;> rfl
@[simp] theorem Dec.noteWrite_vout (x : Dec) (i n : Nat) : (x.noteWrite i n).vout = x.vout := by
  unfold Dec.noteWrite; split <;> rfl
@[simp] theorem Dec.noteWrite_voutCap (x : Dec) (i n : Nat) : (x.noteWrite i n).voutCap = x.voutCap := by
  unfold Dec.noteWrite; split <;> rfl
@[simp] theorem State.dec_sdec (s : State) : s.dec .sdec = s.sdec := rfl
@[simp] theorem State.dec_bdec (s : State) : s.dec .bdec = s.bdec := rfl
@[simp] theorem State.setDec_dec_same (s : State) (d : DecId) (x : Dec) : (s.setDec d x).dec d = x := by
  cases d <;> rfl
theorem State.setDec_dec_other (s : State) {d d' : DecId} (x : Dec) (h : d' ≠ d) :
    (s.setDec d x).dec d' = s.dec d' := by
  cases d <;> cases d' <;> first | rfl | exact absurd rfl h
@[simp] theorem State.setDec_sdec_bdec (s : State) (x : Dec) : (s.setDec .sdec x).bdec = s.bdec := rfl
@[simp] theorem State.setDec_bdec_sdec (s : State) (x : Dec) : (s.setDec .bdec x).sdec = s.sdec := rfl
@[simp] theorem State.setDec_sdec_sdec (s : State) (x : Dec) : (s.setDec .sdec x).sdec = x := rfl
@[simp] theorem State.setDec_bdec_bdec (s : State) (x : Dec) : (s.setDec .bdec x).bdec = x := rfl
@[simp] theorem State.dec_withActor (s : State) (d d' : DecId) : ({ s with actor := d }).dec d' = s.dec d' := by
  cases d' <;> rfl
@[simp] theorem State.dec_withUnfinished (s : State) (l : List Nat) (d' : DecId) :
    ({ s with unfinished := l }).dec d' = s.dec d' := by
  cases d' <;> rfl
@[simp] theorem State.dec_withFree (s : State) (n : Nat) (d' : DecId) : ({ s with free := n }).dec d' = s.dec d' := by
  cases d' <;> rfl
@[simp] theorem State.dec_withInputs (s : State) (l : List Input) (d' : DecId) :
    ({ s with inputs := l }).dec d' = s.dec d' := by
  cases d' <;> rfl
@[simp] theorem State.dec_withEnc (s : State) (e : Enc) (d' : DecId) : ({ s with enc := e }).dec d' = s.dec d' := by
  cases d' <;> rfl
@[simp] theorem State.held_setDec (s : State) (d : DecId) (x : Dec) : (s.setDec d x).held = s.held := by
  cases d <;> rfl
@[simp] theorem State.words_withFree (s : State) (n : Nat) : ({ s with free := n }).words = s.words := rfl
@[simp] theorem State.words_withInputs (s : State) (l : List Input) : ({ s with inputs := l }).words = s.words := rfl
@[simp] theorem State.words_withEnc (s : State) (e : Enc) : ({ s with enc := e }).words = s.words := rfl
@[simp] theorem State.wordAt_withActor (s : State) (d d' : DecId) :
    ({ s with actor := d }).wordAt d' = s.wordAt d' := by
  cases d' <;> rfl
@[simp] theorem State.words_setDec (s : State) (d : DecId) (x : Dec) : (s.setDec d x).words = s.words := by
  cases d <;> rfl
@[simp] theorem State.words_withActor (s : State) (d : DecId) : ({ s with actor := d }).words = s.words := rfl

end Sys2Proof.Machine
end

