-- ==== Sys2Proof/Laws/Memory.lean ====
section
/-! SUPPORT. The laws of the element memories: reading behind a write, and that every memory operation keeps the canonical
form and the capacity bound. -/

namespace Sys2Proof.Machine

@[simp] theorem Mem.read_nil (a : Nat) : Mem.read [] a = none := rfl

@[simp] theorem Mem.read_write_same (m : Mem) (a : Nat) (v : Word) : (m.write a v).read a = some v := by
  induction m with
  | nil => simp [Mem.write, Mem.read]
  | cons p m ih =>
    obtain ⟨b, w⟩ := p
    simp only [Mem.write]
    split_ifs with h1 h2
    · simp [Mem.read]
    · simp [Mem.read]
    · simpa [Mem.read, h2] using ih

theorem Mem.read_write_other (m : Mem) {a b : Nat} (v : Word) (h : b ≠ a) : (m.write a v).read b = m.read b := by
  induction m with
  | nil => simp [Mem.write, Mem.read, h]
  | cons p m ih =>
    obtain ⟨c, w⟩ := p
    simp only [Mem.write]
    split_ifs with h1 h2
    · simp [Mem.read, h]
    · subst h2; simp [Mem.read, h]
    · simp only [Mem.read, ih]

theorem Mem.above_write {c : Nat} (m : Mem) {a : Nat} (v : Word) (h : c < a) (hm : m.above c = true) :
    (m.write a v).above c = true := by
  induction m with
  | nil => simpa [Mem.write, Mem.above] using h
  | cons p m ih =>
    obtain ⟨b, w⟩ := p
    simp only [Mem.above, Bool.and_eq_true, decide_eq_true_eq] at hm
    simp only [Mem.write]
    split_ifs with h1 h2
    · simp [Mem.above, h, hm.1, hm.2]
    · subst h2; simp [Mem.above, h, hm.2]
    · simp [Mem.above, hm.1, ih hm.2]

theorem Mem.above_trans {c b : Nat} (m : Mem) (h : c < b) (hm : m.above b = true) : m.above c = true := by
  induction m with
  | nil => rfl
  | cons p m ih =>
    obtain ⟨e, w⟩ := p
    simp only [Mem.above, Bool.and_eq_true, decide_eq_true_eq] at hm ⊢
    exact ⟨by omega, ih hm.2⟩

/-- A write keeps the canonical form. -/
theorem Mem.wf_write (m : Mem) (a : Nat) (v : Word) (h : m.wf = true) : (m.write a v).wf = true := by
  induction m with
  | nil => rfl
  | cons p m ih =>
    obtain ⟨b, w⟩ := p
    simp only [Mem.wf, Bool.and_eq_true] at h
    simp only [Mem.write]
    split_ifs with h1 h2
    · simp [Mem.wf, Mem.above, h1, h.1, h.2, Mem.above_trans m h1 h.1]
    · subst h2; simp [Mem.wf, h.1, h.2]
    · simp only [Mem.wf, Bool.and_eq_true]
      exact ⟨Mem.above_write m v (by omega) h.1, ih h.2⟩

/-- A write below the capacity keeps every index below it. -/
theorem Mem.within_write (m : Mem) {cap a : Nat} (v : Word) (ha : a < cap) (h : m.within cap = true) :
    (m.write a v).within cap = true := by
  induction m with
  | nil => simpa [Mem.write, Mem.within] using ha
  | cons p m ih =>
    obtain ⟨b, w⟩ := p
    simp only [Mem.within, Bool.and_eq_true, decide_eq_true_eq] at h
    simp only [Mem.write]
    split_ifs with h1 h2
    · simp [Mem.within, ha, h.1, h.2]
    · simp [Mem.within, ha, h.2]
    · simp [Mem.within, h.1, ih h.2]

@[simp] theorem Mem.writeAll_nil (m : Mem) (a : Nat) : m.writeAll a [] = m := rfl

@[simp] theorem Mem.writeAll_cons (m : Mem) (a : Nat) (v : Word) (vs : List Word) :
    m.writeAll a (v :: vs) = (m.write a v).writeAll (a + 1) vs := rfl

theorem Mem.wf_writeAll (vs : List Word) (m : Mem) (a : Nat) (h : m.wf = true) : (m.writeAll a vs).wf = true := by
  induction vs generalizing m a with
  | nil => exact h
  | cons v vs ih => exact ih _ _ (Mem.wf_write m a v h)

theorem Mem.within_writeAll (vs : List Word) (m : Mem) {cap a : Nat} (ha : a + vs.length ≤ cap)
    (h : m.within cap = true) : (m.writeAll a vs).within cap = true := by
  induction vs generalizing m a with
  | nil => exact h
  | cons v vs ih =>
    simp only [List.length_cons] at ha
    exact ih _ (by omega) (Mem.within_write m v (by omega) h)

/-- Outside the slots written, every element reads as before. -/
theorem Mem.read_writeAll_other (vs : List Word) (m : Mem) {a b : Nat} (h : b < a ∨ a + vs.length ≤ b) :
    (m.writeAll a vs).read b = m.read b := by
  induction vs generalizing m a with
  | nil => rfl
  | cons v vs ih =>
    simp only [List.length_cons] at h
    rw [Mem.writeAll_cons, ih _ (by omega), Mem.read_write_other _ _ (by omega)]

/-- The slots written read as written. -/
theorem Mem.read_writeAll (vs : List Word) (m : Mem) (a k : Nat) (h : k < vs.length) :
    (m.writeAll a vs).read (a + k) = some vs[k] := by
  induction vs generalizing m a k with
  | nil => simp at h
  | cons v vs ih =>
    cases k with
    | zero => simp [Mem.read_writeAll_other]
    | succ k =>
      have := ih (m.write a v) (a + 1) k (by simpa using h)
      simpa [Nat.add_assoc, Nat.add_comm 1 k] using this

/-! ## `WMEM` -/

/-- What a word write does where it goes through. -/
theorem State.writeWmem_some {s t : State} {i : Nat} {v : Word} (h : s.writeWmem i v = some t) :
    i < s.wmemCap ∧ t.wmem = s.wmem.write i v ∧ t.enc = s.enc ∧ t.wmemCap = s.wmemCap ∧ t.inputs = s.inputs ∧
      t.actor = s.actor ∧ t.sdec = s.sdec.noteWrite i s.free ∧ t.bdec = s.bdec.noteWrite i (s.free + 1) := by
  unfold State.writeWmem at h
  by_cases hi : i < s.wmemCap
  · rw [if_pos hi] at h
    cases h
    exact ⟨hi, rfl, rfl, rfl, rfl, rfl, rfl, rfl⟩
  · rw [if_neg hi] at h
    cases h

theorem State.writeWmem_unfinished {s t : State} {i : Nat} {v : Word} (h : s.writeWmem i v = some t) :
    t.unfinished = s.unfinished := by
  unfold State.writeWmem at h
  split_ifs at h <;> cases h <;> rfl

theorem State.writeWmem_isSome {s : State} {i : Nat} (v : Word) (h : i < s.wmemCap) :
    ∃ t, s.writeWmem i v = some t := by
  unfold State.writeWmem; rw [if_pos h]; exact ⟨_, rfl⟩

/-- A word a decoder reads exists below `WMEM_CAP`. -/
theorem State.wordAt_isSome (s : State) (d : DecId) {i : Nat} (h : i < s.wmemCap) : (s.wordAt d i).isSome := by
  unfold State.wordAt; rw [if_pos h]; rfl

/-- In a run whose words were not written meanwhile a decoder reads `WMEM`. -/
theorem State.wordAt_words {s : State} {d : DecId} {i : Nat} {w : Word} (ht : (s.dec d).taint = none)
    (h : s.wordAt d i = some w) : w = s.words i := by
  unfold State.wordAt at h
  split_ifs at h
  rw [ht] at h
  simpa using h.symm

/-- A word of no unfinished encode is found as it stands (R285 item 1; log 23). -/
theorem State.words_of_finished {s : State} {i : Nat} (h : i ∉ s.unfinished) : s.words i = s.held i := if_neg h

end Sys2Proof.Machine
end

