-- ==== Sys2Proof/Laws/BitBuffer.lean ====
section
/-! SUPPORT. What BB's primitives can do (41_bitbuffer.md), said once. -/

namespace Sys2Proof.Machine

/-- Stream bits left to a bit buffer over `wc` words. -/
def BB.left (bb : BB) (wc : Count) : Nat := 32 * (wc.toNat - bb.widx.toNat) + bb.navail.toNat

theorem Dec.bitsLeft_eq (x : Dec) : x.bitsLeft = x.bb.left x.wordCount := rfl

theorem BB.navail_le (bb : BB) : bb.navail.toNat ≤ 63 := by
  have := bb.navail.isLt; omega

/-- `need` either had the bits or pulled one word (R153, R157). -/
theorem BB.need_ok {bb b : BB} {src : Nat → Option Word} {wc : Count} {k : Nat} (h : bb.need src wc k = .ok b) :
    (k ≤ bb.navail.toNat ∧ b = bb) ∨
      (bb.navail.toNat < k ∧ bb.widx.toNat < wc.toNat ∧ ∃ w, src bb.widx.toNat = some w ∧ b = bb.pulled w) := by
  unfold BB.need at h
  split_ifs at h with hn
  · right
    unfold BB.refill at h
    split_ifs at h with hw
    have hlt : bb.widx.toNat < wc.toNat := by simpa [BitVec.le_def] using hw
    cases hs : src bb.widx.toNat with
    | none => simp [hs] at h
    | some w =>
      simp only [hs, Pull.ok.injEq] at h
      exact ⟨hn, hlt, w, rfl, h.symm⟩
  · left; cases h; exact ⟨by omega, rfl⟩

/-- `need` raises with the bit buffer untouched, exactly where the words run out (R152, R252). -/
theorem BB.need_underrun {bb b : BB} {src : Nat → Option Word} {wc : Count} {k : Nat}
    (h : bb.need src wc k = .underrun b) : b = bb ∧ bb.navail.toNat < k ∧ wc.toNat ≤ bb.widx.toNat := by
  unfold BB.need at h
  split_ifs at h with hn
  unfold BB.refill at h
  split_ifs at h with hw
  · cases h; exact ⟨rfl, hn, by simpa [BitVec.le_def] using hw⟩
  · cases hs : src bb.widx.toNat <;> simp [hs] at h

theorem BB.pulled_navail_toNat (bb : BB) (w : Word) (h : bb.navail.toNat < 32) :
    (bb.pulled w).navail.toNat = bb.navail.toNat + 32 := by
  simp [BitVec.toNat_add]; omega

theorem BB.pulled_widx_toNat (bb : BB) (w : Word) {wc : Count} (h : bb.widx.toNat < wc.toNat) :
    (bb.pulled w).widx.toNat = bb.widx.toNat + 1 := by
  have := wc.isLt
  simp [BitVec.toNat_add]; omega

theorem BB.consume_navail_toNat (bb : BB) (k : Nat) (h : k ≤ bb.navail.toNat) :
    (bb.consume k).navail.toNat = bb.navail.toNat - k := by
  have := bb.navail_le
  have hk : (BitVec.ofNat 6 k).toNat = k := by simp; omega
  rw [BB.consume_navail, BitVec.toNat_sub_of_le (by simp only [BitVec.le_def, hk]; exact h), hk]

/-- `need(k)` for `k ≤ 32`: the bits are there, `POS` and the bits left are as before (R33, R153, R157). -/
theorem BB.need_spec {bb b : BB} {src : Nat → Option Word} {wc : Count} {k : Nat} (hk : k ≤ 32)
    (h : bb.need src wc k = .ok b) :
    k ≤ b.navail.toNat ∧ b.left wc = bb.left wc ∧ b.pos = bb.pos ∧ (bb.Inv wc → b.Inv wc) := by
  rcases BB.need_ok h with ⟨h1, rfl⟩ | ⟨hn, hw, w, -, rfl⟩
  · exact ⟨h1, rfl, rfl, id⟩
  · have h1 := bb.pulled_navail_toNat w (by omega)
    have h2 := bb.pulled_widx_toNat w hw
    refine ⟨by omega, by unfold BB.left; omega, by unfold BB.pos; omega, fun hi => ⟨fun t ht => ?_, by
      have := hi.2.1; omega, by simp only [BitVec.le_def, h2]; omega⟩⟩
    have hc := hi.1 t (by omega)
    rw [BB.pulled_buf, BitVec.getLsbD_or, hc, BitVec.getLsbD_shiftLeft]
    have : t < 32 - bb.navail.toNat := by omega
    simp [this]

/-- `need(k)` goes through exactly where `k` bits are left, if the words exist (R152, R252). -/
theorem BB.need_complete {bb : BB} {src : Nat → Option Word} {wc : Count} {k : Nat}
    (hl : k ≤ bb.left wc) (hs : ∀ i, i < wc.toNat → (src i).isSome) : ∃ b, bb.need src wc k = .ok b := by
  unfold BB.need
  split_ifs with hn
  · unfold BB.refill
    have hlt : bb.widx.toNat < wc.toNat := by unfold BB.left at hl; omega
    rw [if_neg (by simp only [BitVec.le_def]; omega)]
    obtain ⟨w, hw⟩ := Option.isSome_iff_exists.mp (hs _ hlt)
    rw [hw]; exact ⟨_, rfl⟩
  · exact ⟨_, rfl⟩

/-- `consume(k)`: `POS` moves by `k` (R155). -/
theorem BB.consume_spec {bb : BB} {wc : Count} {k : Nat} (hk : k ≤ bb.navail.toNat) :
    (bb.consume k).left wc = bb.left wc - k ∧
      (bb.navail.toNat ≤ 32 * bb.widx.toNat → (bb.consume k).pos = bb.pos + k) ∧
      (bb.Inv wc → (bb.consume k).Inv wc) := by
  have h1 := bb.consume_navail_toNat k hk
  refine ⟨by unfold BB.left; simp only [BB.consume_widx]; omega, fun h => by
    unfold BB.pos; simp only [BB.consume_widx]; omega, fun hi => ⟨fun t ht => ?_, by
    have := hi.2.1; simp only [BB.consume_widx]; omega, hi.2.2⟩⟩
  rw [BB.consume_buf, BitVec.getLsbD_shiftLeft]
  by_cases hlt : t < k
  · simp [hlt]
  · have hn := bb.navail_le
    rw [hi.1 (t - k) (by omega)]; simp

/-! ## The stream -/

/-- Pulling the next word of the stream (R152, R156 d). -/
theorem BB.Holds.pulled {bb : BB} {words : Nat → Word} {wc : Count} (hi : bb.Inv wc) (hw : bb.widx.toNat < wc.toNat)
    (hn : bb.navail.toNat < 32) (h : bb.Holds words) : (bb.pulled (words bb.widx.toNat)).Holds words := by
  have h1 := bb.pulled_navail_toNat (words bb.widx.toNat) hn
  have h2 := bb.pulled_widx_toNat (words bb.widx.toNat) hw
  have hp : (bb.pulled (words bb.widx.toNat)).pos = bb.pos := by unfold BB.pos; omega
  have hpos : bb.pos + bb.navail.toNat = 32 * bb.widx.toNat := by
    have := hi.2.1; unfold BB.pos; omega
  intro t ht
  rw [h1] at ht
  rw [hp, BB.pulled_buf, BitVec.getLsbD_or, BitVec.getLsbD_shiftLeft, BitVec.getLsbD_setWidth]
  by_cases hlt : t < bb.navail.toNat
  · rw [h t hlt, BitVec.getLsbD_of_ge (words bb.widx.toNat) _ (by omega)]
    simp
  · rw [hi.1 (63 - t) (by omega)]
    have e1 : (bb.pos + t) / 32 = bb.widx.toNat := by omega
    have e2 : 31 - (bb.pos + t) % 32 = 63 - t - (32 - bb.navail.toNat) := by omega
    have e3 : ¬ 63 - t < 32 - bb.navail.toNat := by omega
    unfold streamBit
    rw [e1, e2]
    have e4 : 63 - t < 64 := by omega
    have e5 : 63 - t - (32 - bb.navail.toNat) < 64 := by omega
    simp [e3, e4, e5]

theorem BB.Holds.consume {bb : BB} {words : Nat → Word} {k : Nat} (hk : k ≤ bb.navail.toNat)
    (hp : bb.navail.toNat ≤ 32 * bb.widx.toNat) (h : bb.Holds words) : (bb.consume k).Holds words := by
  have h1 := bb.consume_navail_toNat k hk
  have h2 : (bb.consume k).pos = bb.pos + k := (BB.consume_spec (wc := 0) hk).2.1 hp
  have h3 := bb.navail_le
  intro t ht
  rw [h1] at ht
  have e : bb.pos + k + t = bb.pos + (k + t) := by omega
  have e2 : 63 - t - k = 63 - (k + t) := by omega
  have e3 : ¬ 63 - t < k := by omega
  rw [h2, BB.consume_buf, BitVec.getLsbD_shiftLeft, e, ← h (k + t) (by omega), e2]
  simp [e3]
  intro; omega

/-- `need` keeps what the bit buffer holds, where the words it may pull are the stream's (R156 d). -/
theorem BB.Holds.need {bb b : BB} {src : Nat → Option Word} {wc : Count} {k : Nat} {words : Nat → Word} (hk : k ≤ 32)
    (hs : ∀ i w, src i = some w → w = words i) (hi : bb.Inv wc) (h : bb.need src wc k = .ok b) (hh : bb.Holds words) :
    b.Holds words := by
  rcases BB.need_ok h with ⟨-, rfl⟩ | ⟨hn, hw, w, he, rfl⟩
  · exact hh
  · rw [hs _ _ he]; exact hh.pulled hi hw (by omega)

/-- A field read off the top of the buffer is the stream's field at `POS` (R154). -/
theorem BB.Holds.peek_toNat {bb : BB} {words : Nat → Word} (h : bb.Holds words) {k : Nat} (hk : k ≤ 32)
    (hn : k ≤ bb.navail.toNat) : (bb.peek k).toNat = streamField words bb.pos k := by
  have hgen : ∀ j, j ≤ bb.navail.toNat → bb.buf.toNat >>> (64 - j) = streamField words bb.pos j := by
    intro j
    induction j with
    | zero =>
      intro _
      simp only [streamField, Nat.sub_zero, Nat.shiftRight_eq_div_pow]
      exact Nat.div_eq_of_lt bb.buf.isLt
    | succ j ih =>
      intro hj
      have hb := h j (by omega)
      have := bb.navail_le
      rw [streamField, ← ih (by omega), ← hb]
      have e : 64 - j = (64 - (j + 1)) + 1 := by omega
      have e2 : 63 - j = 64 - (j + 1) := by omega
      rw [e, Nat.shiftRight_add, e2, BitVec.getLsbD, Nat.testBit_eq_decide_div_mod_eq, Nat.shiftRight_eq_div_pow]
      generalize bb.buf.toNat / 2 ^ (64 - (j + 1)) = x
      simp only [Nat.shiftRight_succ, Nat.shiftRight_zero]
      rcases Nat.mod_two_eq_zero_or_one x with hx | hx <;> simp [hx] <;> omega
  have hlt : bb.buf.toNat >>> (64 - k) < 2 ^ 32 := by
    rw [Nat.shiftRight_eq_div_pow]
    refine Nat.div_lt_of_lt_mul (lt_of_lt_of_le bb.buf.isLt ?_)
    rw [← pow_add]
    exact Nat.pow_le_pow_right (by norm_num) (by omega)
  unfold BB.peek
  rw [BitVec.toNat_setWidth, BitVec.toNat_ushiftRight, Nat.mod_eq_of_lt hlt, hgen k hn]

end Sys2Proof.Machine
end

