-- ==== Sys2Proof/Laws/Records.lean ====
section
/-! SUPPORT. What passing over a record, `DEC.record`, and the window fill can do (R179, R194), said once. -/

namespace Sys2Proof.Machine

theorem WClass.width_le (c : WClass) : c.width ≤ 32 := by cases c <;> decide

theorem WClass.recLen_eq (c : WClass) : c.recLen = 2 + c.width := rfl

theorem Pull.andThen_ok {p : Pull} {f : BB → Pull} {b : BB} (h : p.andThen f = .ok b) :
    ∃ b0, p = .ok b0 ∧ f b0 = .ok b := by
  cases p with
  | ok b0 => exact ⟨b0, rfl, h⟩
  | underrun _ => cases h
  | noWord _ => cases h

theorem Pull.andThen_underrun {p : Pull} {f : BB → Pull} {b : BB} (h : p.andThen f = .underrun b) :
    p = .underrun b ∨ ∃ b0, p = .ok b0 ∧ f b0 = .underrun b := by
  cases p with
  | ok b0 => exact .inr ⟨b0, rfl, h⟩
  | underrun _ => exact .inl h
  | noWord _ => cases h

@[simp] theorem Pull.ok_andThen (b : BB) (f : BB → Pull) : (Pull.ok b).andThen f = f b := rfl
@[simp] theorem Pull.underrun_andThen (b : BB) (f : BB → Pull) : (Pull.underrun b).andThen f = .underrun b := rfl
@[simp] theorem Pull.noWord_andThen (i : Nat) (f : BB → Pull) : (Pull.noWord i).andThen f = .noWord i := rfl

/-- `BB.read(k)`'s effect (R159): the bits left fall by `k`, `POS` moves by `k`, the invariant and the stream held are
kept. -/
theorem BB.take_spec {bb b : BB} {src : Nat → Option Word} {wc : Count} {k : Nat} (hk : k ≤ 32)
    (h : bb.take src wc k = .ok b) :
    k ≤ bb.left wc ∧ b.left wc = bb.left wc - k ∧ (bb.Inv wc → b.Inv wc ∧ b.pos = bb.pos + k) ∧
      ∀ words : Nat → Word, (∀ i w, src i = some w → w = words i) → bb.Inv wc → bb.Holds words → b.Holds words := by
  obtain ⟨b0, h0, hb⟩ := Pull.andThen_ok h
  cases hb
  obtain ⟨s1, s2, s3, s4⟩ := BB.need_spec hk h0
  obtain ⟨c1, c2, c3⟩ := BB.consume_spec (wc := wc) s1
  refine ⟨by have : b0.navail.toNat ≤ b0.left wc := by unfold BB.left; omega
             omega, by omega, fun hi => ⟨c3 (s4 hi), by rw [c2 (s4 hi).2.1, s3]⟩, ?_⟩
  intro words hs hi hh
  exact (BB.Holds.need hk hs hi h0 hh).consume s1 (s4 hi).2.1

theorem BB.take_complete {bb : BB} {src : Nat → Option Word} {wc : Count} {k : Nat}
    (hl : k ≤ bb.left wc) (hs : ∀ i, i < wc.toNat → (src i).isSome) : ∃ b, bb.take src wc k = .ok b := by
  obtain ⟨b, hb⟩ := BB.need_complete hl hs
  exact ⟨b.consume k, by unfold BB.take; rw [hb]; rfl⟩

theorem BB.take_underrun {bb b : BB} {src : Nat → Option Word} {wc : Count} {k : Nat}
    (h : bb.take src wc k = .underrun b) : b = bb ∧ bb.left wc < k ∧ wc.toNat ≤ bb.widx.toNat := by
  rcases Pull.andThen_underrun h with h | ⟨_, _, h⟩
  · obtain ⟨h1, h2, h3⟩ := BB.need_underrun h
    exact ⟨h1, by unfold BB.left; omega, h3⟩
  · cases h

/-- Passing over a record of class `c` (R179): the bits left fall by `RECLEN[c]`, `POS` moves by it, the invariant and the
stream held are kept. -/
theorem BB.passRecord_spec {bb b : BB} {src : Nat → Option Word} {wc : Count} {c : WClass}
    (h : bb.passRecord src wc c = .ok b) :
    c.recLen ≤ bb.left wc ∧ b.left wc = bb.left wc - c.recLen ∧ (bb.Inv wc → b.Inv wc ∧ b.pos = bb.pos + c.recLen) ∧
      ∀ words : Nat → Word, (∀ i w, src i = some w → w = words i) → bb.Inv wc → bb.Holds words → b.Holds words := by
  obtain ⟨b0, h0, hb⟩ := Pull.andThen_ok h
  obtain ⟨t1, t2, t3, t4⟩ := BB.take_spec (by decide) h0
  obtain ⟨u1, u2, u3, u4⟩ := BB.take_spec (WClass.width_le c) hb
  have e : c.recLen = Config.tagBits + c.width := rfl
  refine ⟨by omega, by omega, fun hi => ⟨(u3 (t3 hi).1).1, by rw [(u3 (t3 hi).1).2, (t3 hi).2]; omega⟩, ?_⟩
  intro words hs hi hh
  exact u4 words hs (t3 hi).1 (t4 words hs hi hh)

/-- A record of class `c` can be passed exactly where `RECLEN[c]` bits are left, if the words exist (R252). -/
theorem BB.passRecord_complete {bb : BB} {src : Nat → Option Word} {wc : Count} {c : WClass}
    (hl : c.recLen ≤ bb.left wc) (hs : ∀ i, i < wc.toNat → (src i).isSome) : ∃ b, bb.passRecord src wc c = .ok b := by
  have e : c.recLen = Config.tagBits + c.width := rfl
  obtain ⟨b, hb⟩ := BB.take_complete (bb := bb) (k := Config.tagBits) (by omega) hs
  obtain ⟨t1, t2, -, -⟩ := BB.take_spec (by decide) hb
  obtain ⟨b2, hb2⟩ := BB.take_complete (bb := b) (k := c.width) (by omega) hs
  exact ⟨b2, by unfold BB.passRecord; rw [hb]; exact hb2⟩

/-- Where passing a record raises, the words have run out; the bit buffer left keeps the invariant (R253, R257). -/
theorem BB.passRecord_underrun {bb b : BB} {src : Nat → Option Word} {wc : Count} {c : WClass}
    (h : bb.passRecord src wc c = .underrun b) :
    bb.left wc < c.recLen ∧ wc.toNat ≤ b.widx.toNat ∧ (bb.Inv wc → b.Inv wc) := by
  have e : c.recLen = Config.tagBits + c.width := rfl
  rcases Pull.andThen_underrun h with h | ⟨b0, h0, hb⟩
  · obtain ⟨rfl, h2, h3⟩ := BB.take_underrun h
    exact ⟨by omega, h3, id⟩
  · obtain ⟨t1, t2, t3, -⟩ := BB.take_spec (by decide) h0
    obtain ⟨rfl, h2, h3⟩ := BB.take_underrun hb
    exact ⟨by omega, h3, fun hi => (t3 hi).1⟩

/-- `DEC.record` against passing the record: the same bit buffer, the same stops (R179). -/
theorem BB.record_value {bb b : BB} {src : Nat → Option Word} {wc : Count} {t : BitVec 2} {p : Word}
    (h : bb.record src wc = .value t p b) : bb.passRecord src wc (WClass.ofTag t) = .ok b := by
  unfold BB.record at h
  cases h0 : bb.need src wc Config.tagBits with
  | underrun _ => simp [h0] at h
  | noWord _ => simp [h0] at h
  | ok b0 =>
    simp only [h0] at h
    unfold BB.payload at h
    cases h1 : (b0.consume Config.tagBits).need src wc
        (WClass.ofTag ((b0.peek Config.tagBits).setWidth 2)).width with
    | underrun _ => simp [h1] at h
    | noWord _ => simp [h1] at h
    | ok b1 =>
      simp only [h1, RecordRead.value.injEq] at h
      obtain ⟨rfl, -, rfl⟩ := h
      simp [BB.passRecord, BB.take, h0, h1]

theorem BB.record_underrun {bb b : BB} {src : Nat → Option Word} {wc : Count}
    (h : bb.record src wc = .underrun b) : ∃ c, bb.passRecord src wc c = .underrun b := by
  unfold BB.record at h
  cases h0 : bb.need src wc Config.tagBits with
  | underrun b0 =>
    simp only [h0, RecordRead.underrun.injEq] at h
    exact ⟨.c0, by simp [BB.passRecord, BB.take, h0, h]⟩
  | noWord _ => simp [h0] at h
  | ok b0 =>
    simp only [h0] at h
    unfold BB.payload at h
    cases h1 : (b0.consume Config.tagBits).need src wc
        (WClass.ofTag ((b0.peek Config.tagBits).setWidth 2)).width with
    | underrun b1 =>
      simp only [h1, RecordRead.underrun.injEq] at h
      exact ⟨WClass.ofTag ((b0.peek Config.tagBits).setWidth 2), by
        simp only [BB.passRecord, BB.take, h0, Pull.ok_andThen, h1, Pull.underrun_andThen, h]⟩
    | noWord _ => simp [h1] at h
    | ok b1 => simp [h1] at h

/-- `DEC.record` reads the record of the stream at `POS` (R103, R104, R154). -/
theorem BB.record_stream {bb b : BB} {src : Nat → Option Word} {wc : Count} {t : BitVec 2} {p : Word}
    {words : Nat → Word} (hs : ∀ i w, src i = some w → w = words i) (hi : bb.Inv wc) (hh : bb.Holds words)
    (h : bb.record src wc = .value t p b) :
    WClass.ofTag t = classAt words bb.pos ∧ p = valueAt words bb.pos := by
  unfold BB.record at h
  cases h0 : bb.need src wc Config.tagBits with
  | underrun _ => simp [h0] at h
  | noWord _ => simp [h0] at h
  | ok b0 =>
    simp only [h0] at h
    unfold BB.payload at h
    cases h1 : (b0.consume Config.tagBits).need src wc
        (WClass.ofTag ((b0.peek Config.tagBits).setWidth 2)).width with
    | underrun _ => simp [h1] at h
    | noWord _ => simp [h1] at h
    | ok b1 =>
      simp only [h1, RecordRead.value.injEq] at h
      obtain ⟨rfl, rfl, rfl⟩ := h
      obtain ⟨s1, s2, s3, s4⟩ := BB.need_spec (by decide) h0
      have hh0 := BB.Holds.need (by decide) hs hi h0 hh
      have htag := hh0.peek_toNat (k := Config.tagBits) (by decide) s1
      obtain ⟨-, c2, c3⟩ := BB.consume_spec (wc := wc) s1
      have hc := hh0.consume s1 (s4 hi).2.1
      obtain ⟨n1, n2, n3, n4⟩ := BB.need_spec (WClass.width_le _) h1
      have hh1 := BB.Holds.need (WClass.width_le _) hs (c3 (s4 hi)) h1 hc
      have hclass : WClass.ofTag ((b0.peek Config.tagBits).setWidth 2) = classAt words bb.pos := by
        unfold classAt
        rw [← s3, ← htag]
        congr 1
      refine ⟨hclass, BitVec.eq_of_toNat_eq ?_⟩
      rw [hh1.peek_toNat (WClass.width_le _) n1, n3, c2 (s4 hi).2.1, s3, hclass]
      unfold valueAt
      rw [BitVec.toNat_ofNat, Nat.mod_eq_of_lt]
      rw [← hclass, ← s3, ← c2 (s4 hi).2.1, ← n3, ← hh1.peek_toNat (WClass.width_le _) n1]
      exact (b1.peek _).isLt

/-- BDEC's window fill (R194), and nothing otherwise: the bits left, `POS`, the invariant and the stream are as before. -/
theorem Dec.windowFill_spec {x : Dec} {d : DecId} {src : Nat → Option Word} {b : BB}
    (h : x.windowFill d src = .ok b) :
    b.left x.wordCount = x.bitsLeft ∧ b.pos = x.bb.pos ∧ (x.bb.Inv x.wordCount → b.Inv x.wordCount) ∧
      (x.batchMode d = true → Config.windowBits ≤ b.navail.toNat) ∧
      ∀ words : Nat → Word, (∀ i w, src i = some w → w = words i) → x.bb.Inv x.wordCount → x.bb.Holds words →
        b.Holds words := by
  unfold Dec.windowFill at h
  split_ifs at h with hb
  · obtain ⟨s1, s2, s3, s4⟩ := BB.need_spec (by decide) h
    exact ⟨s2, s3, s4, fun _ => s1, fun words hs hi hh => BB.Holds.need (by decide) hs hi h hh⟩
  · cases h
    exact ⟨rfl, rfl, id, fun h => absurd h hb, fun _ _ _ hh => hh⟩

theorem Dec.windowFill_complete {x : Dec} {d : DecId} {src : Nat → Option Word}
    (hl : x.batchMode d = true → Config.windowBits ≤ x.bitsLeft)
    (hs : ∀ i, i < x.wordCount.toNat → (src i).isSome) : ∃ b, x.windowFill d src = .ok b := by
  unfold Dec.windowFill
  split_ifs with hb
  · exact BB.need_complete (hl hb) hs
  · exact ⟨_, rfl⟩

theorem Dec.windowFill_underrun {x : Dec} {d : DecId} {src : Nat → Option Word} {b : BB}
    (h : x.windowFill d src = .underrun b) :
    b = x.bb ∧ x.batchMode d = true ∧ x.bitsLeft < Config.windowBits ∧ x.wordCount.toNat ≤ x.bb.widx.toNat := by
  unfold Dec.windowFill at h
  split_ifs at h with hb
  obtain ⟨h1, h2, h3⟩ := BB.need_underrun h
  exact ⟨h1, hb, by rw [Dec.bitsLeft_eq]; unfold BB.left; omega, h3⟩

end Sys2Proof.Machine
end

