-- ==== Sys2Proof/Laws/Steps.lean ====
section
/-! SUPPORT. What the shared steps of the decoders can do (R172, R192), said once: the slot and chunk writes, the end of a
step, the record step, the matched step, and which of them each instruction runs. -/

namespace Sys2Proof.Machine

/-! ## Slots and chunks -/

theorem Dec.writeSlot_some {x y : Dec} {i : Nat} {v : Word} (h : x.writeSlot i v = some y) :
    i < x.voutCap ∧ y = { x with vout := x.vout.write i v } := by
  unfold Dec.writeSlot at h
  split_ifs at h with hi
  exact ⟨hi, (Option.some.inj h).symm⟩

theorem Dec.writeSlot_of_lt (x : Dec) {i : Nat} (v : Word) (h : i < x.voutCap) :
    x.writeSlot i v = some { x with vout := x.vout.write i v } := if_pos h

theorem Dec.writeSlot_of_ge (x : Dec) {i : Nat} (v : Word) (h : x.voutCap ≤ i) : x.writeSlot i v = none :=
  if_neg (by omega)

/-- A chunk write (R68): four consecutive slots, all existing, or none. -/
theorem Dec.writeChunk_eq (x : Dec) (i : Nat) (v : Lanes4 Word) :
    x.writeChunk i v =
      if i + 3 < x.voutCap then some { x with vout := x.vout.writeAll i [v.l0, v.l1, v.l2, v.l3] } else none := by
  by_cases h0 : i < x.voutCap
  · by_cases h1 : i + 1 < x.voutCap
    · by_cases h2 : i + 2 < x.voutCap
      · by_cases h3 : i + 3 < x.voutCap <;> simp [Dec.writeChunk, Dec.writeSlot, h0, h1, h2, h3]
      · simp [Dec.writeChunk, Dec.writeSlot, h0, h1, h2, show ¬ i + 3 < x.voutCap by omega]
    · simp [Dec.writeChunk, Dec.writeSlot, h0, h1, show ¬ i + 3 < x.voutCap by omega]
  · simp [Dec.writeChunk, Dec.writeSlot, h0, show ¬ i + 3 < x.voutCap by omega]

/-- The end of a one-value step (R172 sub-steps 2 to 4): the slot written and `OCUR` advanced, or the decoder stuck. -/
theorem Dec.storeValue_eq (x : Dec) (bb : BB) (v : Word) :
    x.storeValue bb v =
      if x.ocur.toNat < x.voutCap then
        { x with
          bb := bb
          vout := x.vout.writeAll x.ocur.toNat [v]
          ocur := x.ocur + BitVec.ofNat 64 1
          state := if x.ocur + BitVec.ofNat 64 1 = x.valueCount then .done else x.state }
      else x.stick := by
  unfold Dec.storeValue Dec.writeSlot
  split_ifs with h <;> simp_all [Dec.advance]

/-- The end of a matched step (R192 2d): the chunk written and `OCUR` advanced by `COUNT`, or the decoder stuck. -/
theorem Dec.storeLanes_eq (x : Dec) (e : PatEntry) (bb : BB) (v : Lanes4 Word) :
    x.storeLanes e bb v =
      if x.ocur.toNat + 3 < x.voutCap then
        { x with
          bb := bb.consume e.consumed
          vout := x.vout.writeAll x.ocur.toNat [v.l0, v.l1, v.l2, v.l3]
          ocur := x.ocur + BitVec.ofNat 64 e.count
          state := if x.ocur + BitVec.ofNat 64 e.count = x.valueCount then .done else x.state }
      else x.stick := by
  unfold Dec.storeLanes
  rw [Dec.writeChunk_eq]
  by_cases h : x.ocur.toNat + 3 < x.voutCap <;> simp [h, Dec.advance]

/-! ## The end of a step -/

theorem State.settle_next {s t : State} {d : DecId} {p : Pull} {k : BB → State} (h : s.settle d p k = .next t) :
    (∃ bb, p = .ok bb ∧ t = k bb) ∨ (∃ bb, p = .underrun bb ∧ t = s.takeUnderrun d bb) := by
  cases p with
  | ok bb => left; exact ⟨bb, rfl, by simpa [State.settle] using h.symm⟩
  | underrun bb => right; exact ⟨bb, rfl, by simpa [State.settle] using h.symm⟩
  | noWord i => simp [State.settle] at h

@[simp] theorem State.settle_ok (s : State) (d : DecId) (bb : BB) (k : BB → State) :
    s.settle d (.ok bb) k = .next (k bb) := rfl
@[simp] theorem State.settle_underrun (s : State) (d : DecId) (bb : BB) (k : BB → State) :
    s.settle d (.underrun bb) k = .next (s.takeUnderrun d bb) := rfl
@[simp] theorem State.settle_noWord (s : State) (d : DecId) (i : Nat) (k : BB → State) :
    s.settle d (.noWord i) k = .fault (.noWordToPull d i) := rfl

/-! ## The record step -/

/-- The bit buffer a record step moves: window fill (batch mode), then the record passed. -/
def State.recordPull (s : State) (c : WClass) : Pull :=
  ((s.dec s.actor).windowFill s.actor (s.wordAt s.actor)).andThen fun b =>
    b.passRecord (s.wordAt s.actor) (s.dec s.actor).wordCount c

/-- Everything a record step can do when it answers a next state. -/
theorem State.recordStep_next {s t : State} {c : WClass} {v : Word} (h : s.recordStep c v = .next t) :
    ((s.dec s.actor).enabled = false ∧ t = s) ∨
      ((s.dec s.actor).enabled = true ∧
        ((∃ bb, s.recordPull c = .ok bb ∧ t = s.setDec s.actor ((s.dec s.actor).storeValue bb v)) ∨
          (∃ bb, s.recordPull c = .underrun bb ∧ t = s.takeUnderrun s.actor bb))) := by
  unfold State.recordStep at h
  cases he : (s.dec s.actor).enabled with
  | false => left; exact ⟨rfl, by simpa [he] using h.symm⟩
  | true => right; exact ⟨rfl, State.settle_next (by simp only [he, if_true] at h; exact h)⟩

theorem State.recordStep_of_enabled {s : State} (c : WClass) (v : Word) (h : (s.dec s.actor).enabled = true) :
    s.recordStep c v =
      s.settle s.actor (s.recordPull c) fun bb => s.setDec s.actor ((s.dec s.actor).storeValue bb v) := by
  unfold State.recordStep; simp only [h, if_true]; rfl

theorem State.recordStep_of_disabled {s : State} (c : WClass) (v : Word) (h : (s.dec s.actor).enabled = false) :
    s.recordStep c v = .next s := by
  unfold State.recordStep; simp [h]

/-- What the pull of a record step leaves where it goes through (R179, R194). -/
theorem State.recordPull_ok {s : State} {c : WClass} {bb : BB} (h : s.recordPull c = .ok bb) :
    c.recLen ≤ (s.dec s.actor).bitsLeft ∧ bb.left (s.dec s.actor).wordCount = (s.dec s.actor).bitsLeft - c.recLen ∧
      ((s.dec s.actor).bb.Inv (s.dec s.actor).wordCount →
        bb.Inv (s.dec s.actor).wordCount ∧ bb.pos = (s.dec s.actor).bb.pos + c.recLen) ∧
      ((s.dec s.actor).taint = none → (s.dec s.actor).bb.Inv (s.dec s.actor).wordCount →
        (s.dec s.actor).bb.Holds s.words → bb.Holds s.words) := by
  obtain ⟨b0, h0, hb⟩ := Pull.andThen_ok h
  obtain ⟨w1, w2, w3, -, w5⟩ := Dec.windowFill_spec h0
  obtain ⟨p1, p2, p3, p4⟩ := BB.passRecord_spec hb
  refine ⟨by omega, by omega, fun hi => ⟨(p3 (w3 hi)).1, by rw [(p3 (w3 hi)).2, w2]⟩, fun ht hi hh => ?_⟩
  have hs : ∀ i w, s.wordAt s.actor i = some w → w = s.words i := fun i w => State.wordAt_words ht
  exact p4 _ hs (w3 hi) (w5 _ hs hi hh)

/-- The pull of a record step goes through where the bits are there (R252, R285 item 3). -/
theorem State.recordPull_complete {s : State} {c : WClass} (h : s.bitsReady s.actor c.recLen) :
    ∃ bb, s.recordPull c = .ok bb := by
  obtain ⟨h1, h2, h3⟩ := h
  have hs : ∀ i, i < (s.dec s.actor).wordCount.toNat → (s.wordAt s.actor i).isSome := fun i hi =>
    s.wordAt_isSome s.actor (by omega)
  obtain ⟨b, hb⟩ := Dec.windowFill_complete h2 hs
  obtain ⟨w1, -⟩ := Dec.windowFill_spec hb
  obtain ⟨b2, hb2⟩ := BB.passRecord_complete (bb := b) (c := c) (by omega) hs
  exact ⟨b2, by unfold State.recordPull; rw [hb]; exact hb2⟩

/-- Where the pull of a record step raises, the words have run out (R252, R253, R257). -/
theorem State.recordPull_underrun {s : State} {c : WClass} {bb : BB} (h : s.recordPull c = .underrun bb) :
    (s.dec s.actor).wordCount.toNat ≤ bb.widx.toNat ∧
      ((s.dec s.actor).bb.Inv (s.dec s.actor).wordCount → bb.Inv (s.dec s.actor).wordCount) := by
  rcases Pull.andThen_underrun h with h | ⟨b0, h0, hb⟩
  · obtain ⟨rfl, -, -, h3⟩ := Dec.windowFill_underrun h
    exact ⟨h3, id⟩
  · obtain ⟨-, -, w3, -⟩ := Dec.windowFill_spec h0
    obtain ⟨-, h3, h4⟩ := BB.passRecord_underrun hb
    exact ⟨h3, fun hi => h4 (w3 hi)⟩

/-! ## The matched step -/

/-- Everything a matched step can do when it answers a next state. -/
theorem State.matchedStep_next {s t : State} {e : PatEntry} {win : Word} (h : s.matchedStep e win = .next t) :
    ((s.bdec.enabled && s.bdec.batchMode .bdec) = false ∧ t = s) ∨
      ((s.bdec.enabled = true ∧ s.bdec.batchMode .bdec = true) ∧
        ((∃ bb, s.bdec.windowFill .bdec (s.wordAt .bdec) = .ok bb ∧
            t = s.setDec .bdec (s.bdec.storeLanes e bb (extractLanes e win))) ∨
          (∃ bb, s.bdec.windowFill .bdec (s.wordAt .bdec) = .underrun bb ∧ t = s.takeUnderrun .bdec bb))) := by
  unfold State.matchedStep at h
  cases he : (s.bdec.enabled && s.bdec.batchMode .bdec) with
  | false => left; exact ⟨rfl, by simpa [he] using h.symm⟩
  | true => right; exact ⟨by simpa using he, State.settle_next (by simpa [he] using h)⟩

theorem State.matchedStep_of_batch {s : State} (e : PatEntry) (win : Word) (h : s.bdec.enabled = true)
    (hb : s.bdec.batchMode .bdec = true) :
    s.matchedStep e win = s.settle .bdec (s.bdec.windowFill .bdec (s.wordAt .bdec)) fun bb =>
      s.setDec .bdec (s.bdec.storeLanes e bb (extractLanes e win)) := by
  unfold State.matchedStep; simp [h, hb]

theorem State.matchedStep_of_disabled {s : State} (e : PatEntry) (win : Word)
    (h : s.bdec.enabled = false ∨ s.bdec.batchMode .bdec = false) : s.matchedStep e win = .next s := by
  unfold State.matchedStep
  rcases h with h | h <;> simp [h]

/-! ## START -/

/-- A START in `RUN` (R184, R238). -/
theorem State.startDec_of_run {s : State} {d : DecId} (wc vc : Count) (h : (s.dec d).state = .run) :
    s.startDec d wc vc = s := if_pos h

/-- A START outside `RUN` on words that ENC does not own (R171, R191). -/
theorem State.startDec_of_free {s : State} {d : DecId} {wc : Count} (vc : Count) (h : (s.dec d).state ≠ .run)
    (hu : s.encOwns wc = false) : s.startDec d wc vc = s.setDec d ((s.dec d).start wc vc) := by
  unfold State.startDec State.startNote
  simp only [h, hu, if_false, Bool.false_eq_true]
  rfl

/-- A START outside `RUN` on words that ENC owns (R288; log 23). -/
theorem State.startDec_of_owned {s : State} {d : DecId} {wc : Count} (vc : Count) (h : (s.dec d).state ≠ .run)
    (hu : s.encOwns wc = true) :
    s.startDec d wc vc =
      ({ s with free := s.free + 1 }).setDec d { (s.dec d).start wc vc with taint := some s.free } := by
  unfold State.startDec State.startNote
  simp only [h, hu, if_false, if_true]

/-! ## Which step an instruction runs -/

/-- A record instruction runs the record step of its class. -/
theorem exec_of_recClass {i : Instr} {c : WClass} (h : i.recClass = some c) :
    ∃ v, ∀ s, exec i s = s.recordStep c v := by
  cases i <;> simp [Instr.recClass] at h <;> subst h <;> exact ⟨_, fun _ => rfl⟩

/-- A pattern entry runs the matched step of an entry of the table. -/
theorem exec_of_isPattern {i : Instr} (h : i.isPattern = true) :
    ∃ e ∈ patTable, ∃ win, ∀ s, exec i s = s.matchedStep e win := by
  cases i <;> simp [Instr.isPattern] at h <;>
    exact ⟨_, by simp [patTable], _, fun _ => rfl⟩

/-- The bounds of R43 on every entry of the table. -/
theorem patTable_bounds {e : PatEntry} (h : e ∈ patTable) :
    1 ≤ e.count ∧ e.count ≤ 4 ∧ 6 ≤ e.consumed ∧ e.consumed ≤ 32 := by
  revert e; decide

end Sys2Proof.Machine
end

