-- ==== Sys2Proof/Laws/Patterns.lean ====
section
/-! SUPPORT. The pattern table against the windows it matches (R196 to R203, R220 to R235): detection, selection, the fields
of each entry's window, and what extraction gives. -/

namespace Sys2Proof

open Machine

/-! ## Masks and selection -/

theorem maskBits_getLsbD (w i : Nat) : (maskBits w).getLsbD i = (decide (i < w) && decide (i < 32)) := by
  simp [maskBits, BitVec.getLsbD_ofNat, Nat.testBit_two_pow_sub_one, Bool.and_comm]

/-- A lane of the extraction (R198): the window's field at the entry's offset, zero-extended. -/
theorem shift_and_maskBits (x : Word) (s w : Nat) : x >>> s &&& maskBits w = (x.extractLsb' s w).setWidth 32 := by
  refine BitVec.eq_of_getLsbD_eq fun i hi => ?_
  rw [BitVec.getLsbD_and, maskBits_getLsbD]
  simp [BitVec.getLsbD_extractLsb', hi, Bool.and_comm]

/-- Extraction (R198): each lane is the window's field of `WID` bits at `SHIFT`, zero-extended. -/
theorem extractLanes_eq (e : PatEntry) (win : Word) :
    extractLanes e win =
      ⟨(win.extractLsb' e.shift.l0 e.wid.l0).setWidth 32, (win.extractLsb' e.shift.l1 e.wid.l1).setWidth 32,
        (win.extractLsb' e.shift.l2 e.wid.l2).setWidth 32, (win.extractLsb' e.shift.l3 e.wid.l3).setWidth 32⟩ := by
  simp only [extractLanes, vand4, vsrlv4, shift_and_maskBits]

theorem testBit_maskOfBools (bs : List Bool) (i : Nat) : (maskOfBools bs).testBit i = bs.getD i false := by
  induction bs generalizing i with
  | nil => simp [maskOfBools]
  | cons b bs ih =>
    cases i with
    | zero => cases b <;> simp [maskOfBools, Nat.testBit_zero]
    | succ i =>
      have e : (b.toNat + 2 * maskOfBools bs) / 2 = maskOfBools bs := by
        cases b <;> simp only [Bool.toNat_false, Bool.toNat_true] <;> omega
      simp [maskOfBools, Nat.testBit_succ, e, ih]

/-- Detection (R196): bit `i` of `K` is set exactly where entry `i` matches. -/
theorem matchMask_getLsbD (win : Word) (i : Nat) (h : i < 16) :
    (matchMask win).getLsbD i = decide (win &&& (patTable.getD i pt0).mask = (patTable.getD i pt0).expect) := by
  unfold matchMask vcmpeq
  rw [BitVec.getLsbD_ofNat, testBit_maskOfBools]
  interval_cases i <;> rfl

/-- Two entries of the table never match one window (R205). -/
theorem entries_disjoint : ∀ i < 16, ∀ j < 16, i ≠ j →
    ((patTable.getD i pt0).expect ^^^ (patTable.getD j pt0).expect) &&& (patTable.getD i pt0).mask &&&
      (patTable.getD j pt0).mask ≠ 0 := by decide

theorem match_unique {win : Word} {i j : Nat} (hi : i < 16) (hj : j < 16)
    (mi : win &&& (patTable.getD i pt0).mask = (patTable.getD i pt0).expect)
    (mj : win &&& (patTable.getD j pt0).mask = (patTable.getD j pt0).expect) : i = j := by
  by_contra hne
  refine entries_disjoint i hi j hj hne ?_
  rw [← mi, ← mj]
  refine BitVec.eq_of_getLsbD_eq fun b hb => ?_
  simp only [BitVec.getLsbD_and, BitVec.getLsbD_xor]
  cases win.getLsbD b <;> cases (patTable.getD i pt0).mask.getLsbD b <;>
    cases (patTable.getD j pt0).mask.getLsbD b <;> simp

/-- Where entry `i` matches, `K` has that one bit (R197, R205). -/
theorem matchMask_of_match {win : Word} {i : Nat} (hi : i < 16)
    (h : win &&& (patTable.getD i pt0).mask = (patTable.getD i pt0).expect) : matchMask win = 1#16 <<< i := by
  refine BitVec.eq_of_getLsbD_eq fun j hj => ?_
  rw [matchMask_getLsbD win j hj]
  by_cases hji : j = i
  · subst hji; rw [decide_eq_true h]; simp [hj]
  · have hn : ¬ win &&& (patTable.getD j pt0).mask = (patTable.getD j pt0).expect :=
      fun hm => hji (match_unique hj hi hm h)
    rw [decide_eq_false hn, BitVec.getLsbD_shiftLeft, BitVec.getLsbD_one]
    rcases Nat.lt_or_gt_of_ne hji with hlt | hgt
    · simp [hlt]
    · simp [show j - i ≠ 0 by omega]

theorem kselect_of_match {win : Word} {i : Nat} (hi : i < 16)
    (h : win &&& (patTable.getD i pt0).mask = (patTable.getD i pt0).expect) : kselect (matchMask win) = some i := by
  rw [matchMask_of_match hi h]
  clear h
  revert i; decide

/-- What selection answers is an entry that matches (R197). -/
theorem match_of_kselect {win : Word} {i : Nat} (h : kselect (matchMask win) = some i) :
    i < 16 ∧ win &&& (patTable.getD i pt0).mask = (patTable.getD i pt0).expect := by
  have h1 := List.mem_of_find?_eq_some h
  have h2 := List.find?_some h
  rw [List.mem_range] at h1
  rw [matchMask_getLsbD win i h1] at h2
  exact ⟨h1, by simpa using h2⟩

/-! ## The windows of the entries -/

/-- Two words that agree under a mask and on fields that cover the rest are equal. -/
theorem word_eq_of_fields {w1 w2 mask : Word} (fields : List (Nat × Nat)) (hm : w1 &&& mask = w2 &&& mask)
    (hf : ∀ p ∈ fields, w1.extractLsb' p.1 p.2 = w2.extractLsb' p.1 p.2)
    (hc : ∀ n < 32, mask.getLsbD n = true ∨ ∃ p ∈ fields, p.1 ≤ n ∧ n < p.1 + p.2) : w1 = w2 := by
  refine BitVec.eq_of_getLsbD_eq fun n hn => ?_
  rcases hc n hn with h | ⟨p, hp, h1, h2⟩
  · have e := congrArg (fun w : Word => w.getLsbD n) hm
    simpa [h] using e
  · have e := congrArg (fun w : BitVec p.2 => w.getLsbD (n - p.1)) (hf p hp)
    have hlt : n - p.1 < p.2 := by omega
    have ha : p.1 + (n - p.1) = n := by omega
    simpa [BitVec.getLsbD_extractLsb', hlt, ha] using e

theorem winPat0_matches (a b c d : BitVec 4) (x : BitVec 8) : winPat0 a b c d x &&& pt0.mask = pt0.expect := by
  show winPat0 a b c d x &&& (3#2 ++ 0#4 ++ 3#2 ++ 0#4 ++ 3#2 ++ 0#4 ++ 3#2 ++ 0#4 ++ 0#8) = _
  unfold winPat0
  repeat rw [BitVec.and_append]
  simp [pt0]

/-- The fields of the window of `PAT0` (R220). -/
theorem winPat0_fields (a b c d : BitVec 4) (x : BitVec 8) :
    (winPat0 a b c d x).extractLsb' 26 4 = a ∧ (winPat0 a b c d x).extractLsb' 20 4 = b ∧
      (winPat0 a b c d x).extractLsb' 14 4 = c ∧ (winPat0 a b c d x).extractLsb' 8 4 = d ∧
      (winPat0 a b c d x).extractLsb' 0 8 = x := by
  unfold winPat0
  refine ⟨?_, ?_, ?_, ?_, ?_⟩ <;>
    (repeat (first
      | refine (BitVec.extractLsb'_append_eq_of_le (by decide)).trans ?_
      | refine (BitVec.extractLsb'_append_eq_of_add_le (by decide)).trans ?_)) <;>
    simp

theorem winPat0_of_match {win : Word} (h : win &&& pt0.mask = pt0.expect) :
    winPat0 (win.extractLsb' 26 4) (win.extractLsb' 20 4) (win.extractLsb' 14 4) (win.extractLsb' 8 4)
        (win.extractLsb' 0 8) = win := by
  refine word_eq_of_fields (mask := pt0.mask) [(26, 4), (20, 4), (14, 4), (8, 4), (0, 8)] ((winPat0_matches ..).trans h.symm) ?_ (by decide)
  have f := winPat0_fields (win.extractLsb' 26 4) (win.extractLsb' 20 4) (win.extractLsb' 14 4)
        (win.extractLsb' 8 4) (win.extractLsb' 0 8)
  intro p hp
  simp only [List.mem_cons, List.not_mem_nil, or_false] at hp
  rcases hp with rfl | rfl | rfl | rfl | rfl <;> simp only [f]

/-- Extraction of `PAT0` (R198, R220). -/
theorem extractLanes_pat0 (a b c d : BitVec 4) (x : BitVec 8) :
    extractLanes pt0 (winPat0 a b c d x) = ⟨a.setWidth 32, b.setWidth 32, c.setWidth 32, d.setWidth 32⟩ := by
  have h := winPat0_fields a b c d x
  simp [extractLanes_eq, pt0, h]

theorem decodeWindow_winPat0 (a b c d : BitVec 4) (x : BitVec 8) : decodeWindow (winPat0 a b c d x) = .ok (.pat0 a b c d x) := by
  have h := winPat0_fields a b c d x
  unfold decodeWindow
  rw [kselect_of_match (i := 0) (by decide) (winPat0_matches a b c d x)]
  simp [patInstr, h]

theorem winPat1_matches (a b c : BitVec 4) (d : BitVec 11) (x : BitVec 1) : winPat1 a b c d x &&& pt1.mask = pt1.expect := by
  show winPat1 a b c d x &&& (3#2 ++ 0#4 ++ 3#2 ++ 0#4 ++ 3#2 ++ 0#4 ++ 3#2 ++ 0#11 ++ 0#1) = _
  unfold winPat1
  repeat rw [BitVec.and_append]
  simp [pt1]

/-- The fields of the window of `PAT1` (R221). -/
theorem winPat1_fields (a b c : BitVec 4) (d : BitVec 11) (x : BitVec 1) :
    (winPat1 a b c d x).extractLsb' 26 4 = a ∧ (winPat1 a b c d x).extractLsb' 20 4 = b ∧
      (winPat1 a b c d x).extractLsb' 14 4 = c ∧ (winPat1 a b c d x).extractLsb' 1 11 = d ∧
      (winPat1 a b c d x).extractLsb' 0 1 = x := by
  unfold winPat1
  refine ⟨?_, ?_, ?_, ?_, ?_⟩ <;>
    (repeat (first
      | refine (BitVec.extractLsb'_append_eq_of_le (by decide)).trans ?_
      | refine (BitVec.extractLsb'_append_eq_of_add_le (by decide)).trans ?_)) <;>
    simp

theorem winPat1_of_match {win : Word} (h : win &&& pt1.mask = pt1.expect) :
    winPat1 (win.extractLsb' 26 4) (win.extractLsb' 20 4) (win.extractLsb' 14 4) (win.extractLsb' 1 11)
        (win.extractLsb' 0 1) = win := by
  refine word_eq_of_fields (mask := pt1.mask) [(26, 4), (20, 4), (14, 4), (1, 11), (0, 1)] ((winPat1_matches ..).trans h.symm) ?_ (by decide)
  have f := winPat1_fields (win.extractLsb' 26 4) (win.extractLsb' 20 4) (win.extractLsb' 14 4)
        (win.extractLsb' 1 11) (win.extractLsb' 0 1)
  intro p hp
  simp only [List.mem_cons, List.not_mem_nil, or_false] at hp
  rcases hp with rfl | rfl | rfl | rfl | rfl <;> simp only [f]

/-- Extraction of `PAT1` (R198, R221). -/
theorem extractLanes_pat1 (a b c : BitVec 4) (d : BitVec 11) (x : BitVec 1) :
    extractLanes pt1 (winPat1 a b c d x) = ⟨a.setWidth 32, b.setWidth 32, c.setWidth 32, d.setWidth 32⟩ := by
  have h := winPat1_fields a b c d x
  simp [extractLanes_eq, pt1, h]

theorem decodeWindow_winPat1 (a b c : BitVec 4) (d : BitVec 11) (x : BitVec 1) : decodeWindow (winPat1 a b c d x) = .ok (.pat1 a b c d x) := by
  have h := winPat1_fields a b c d x
  unfold decodeWindow
  rw [kselect_of_match (i := 1) (by decide) (winPat1_matches a b c d x)]
  simp [patInstr, h]

theorem winPat2_matches (a b c : BitVec 4) (x : BitVec 13) : winPat2 a b c x &&& pt2.mask = pt2.expect := by
  show winPat2 a b c x &&& (3#2 ++ 0#4 ++ 3#2 ++ 0#4 ++ 3#2 ++ 0#4 ++ 1#1 ++ 0#13) = _
  unfold winPat2
  repeat rw [BitVec.and_append]
  simp [pt2]

/-- The fields of the window of `PAT2` (R222). -/
theorem winPat2_fields (a b c : BitVec 4) (x : BitVec 13) :
    (winPat2 a b c x).extractLsb' 26 4 = a ∧ (winPat2 a b c x).extractLsb' 20 4 = b ∧
      (winPat2 a b c x).extractLsb' 14 4 = c ∧ (winPat2 a b c x).extractLsb' 0 13 = x := by
  unfold winPat2
  refine ⟨?_, ?_, ?_, ?_⟩ <;>
    (repeat (first
      | refine (BitVec.extractLsb'_append_eq_of_le (by decide)).trans ?_
      | refine (BitVec.extractLsb'_append_eq_of_add_le (by decide)).trans ?_)) <;>
    simp

theorem winPat2_of_match {win : Word} (h : win &&& pt2.mask = pt2.expect) :
    winPat2 (win.extractLsb' 26 4) (win.extractLsb' 20 4) (win.extractLsb' 14 4) (win.extractLsb' 0 13) = win := by
  refine word_eq_of_fields (mask := pt2.mask) [(26, 4), (20, 4), (14, 4), (0, 13)] ((winPat2_matches ..).trans h.symm) ?_ (by decide)
  have f := winPat2_fields (win.extractLsb' 26 4) (win.extractLsb' 20 4) (win.extractLsb' 14 4) (win.extractLsb' 0 13)
  intro p hp
  simp only [List.mem_cons, List.not_mem_nil, or_false] at hp
  rcases hp with rfl | rfl | rfl | rfl <;> simp only [f]

/-- Extraction of `PAT2` (R198, R222). -/
theorem extractLanes_pat2 (a b c : BitVec 4) (x : BitVec 13) :
    extractLanes pt2 (winPat2 a b c x) = ⟨a.setWidth 32, b.setWidth 32, c.setWidth 32, 0⟩ := by
  have h := winPat2_fields a b c x
  simp [extractLanes_eq, pt2, h]

theorem decodeWindow_winPat2 (a b c : BitVec 4) (x : BitVec 13) : decodeWindow (winPat2 a b c x) = .ok (.pat2 a b c x) := by
  have h := winPat2_fields a b c x
  unfold decodeWindow
  rw [kselect_of_match (i := 2) (by decide) (winPat2_matches a b c x)]
  simp [patInstr, h]

theorem winPat3_matches (a b : BitVec 4) (c : BitVec 11) (x : BitVec 7) : winPat3 a b c x &&& pt3.mask = pt3.expect := by
  show winPat3 a b c x &&& (3#2 ++ 0#4 ++ 3#2 ++ 0#4 ++ 3#2 ++ 0#11 ++ 0#7) = _
  unfold winPat3
  repeat rw [BitVec.and_append]
  simp [pt3]

/-- The fields of the window of `PAT3` (R223). -/
theorem winPat3_fields (a b : BitVec 4) (c : BitVec 11) (x : BitVec 7) :
    (winPat3 a b c x).extractLsb' 26 4 = a ∧ (winPat3 a b c x).extractLsb' 20 4 = b ∧
      (winPat3 a b c x).extractLsb' 7 11 = c ∧ (winPat3 a b c x).extractLsb' 0 7 = x := by
  unfold winPat3
  refine ⟨?_, ?_, ?_, ?_⟩ <;>
    (repeat (first
      | refine (BitVec.extractLsb'_append_eq_of_le (by decide)).trans ?_
      | refine (BitVec.extractLsb'_append_eq_of_add_le (by decide)).trans ?_)) <;>
    simp

theorem winPat3_of_match {win : Word} (h : win &&& pt3.mask = pt3.expect) :
    winPat3 (win.extractLsb' 26 4) (win.extractLsb' 20 4) (win.extractLsb' 7 11) (win.extractLsb' 0 7) = win := by
  refine word_eq_of_fields (mask := pt3.mask) [(26, 4), (20, 4), (7, 11), (0, 7)] ((winPat3_matches ..).trans h.symm) ?_ (by decide)
  have f := winPat3_fields (win.extractLsb' 26 4) (win.extractLsb' 20 4) (win.extractLsb' 7 11) (win.extractLsb' 0 7)
  intro p hp
  simp only [List.mem_cons, List.not_mem_nil, or_false] at hp
  rcases hp with rfl | rfl | rfl | rfl <;> simp only [f]

/-- Extraction of `PAT3` (R198, R223). -/
theorem extractLanes_pat3 (a b : BitVec 4) (c : BitVec 11) (x : BitVec 7) :
    extractLanes pt3 (winPat3 a b c x) = ⟨a.setWidth 32, b.setWidth 32, c.setWidth 32, 0⟩ := by
  have h := winPat3_fields a b c x
  simp [extractLanes_eq, pt3, h]

theorem decodeWindow_winPat3 (a b : BitVec 4) (c : BitVec 11) (x : BitVec 7) : decodeWindow (winPat3 a b c x) = .ok (.pat3 a b c x) := by
  have h := winPat3_fields a b c x
  unfold decodeWindow
  rw [kselect_of_match (i := 3) (by decide) (winPat3_matches a b c x)]
  simp [patInstr, h]

theorem winPat4_matches (a b : BitVec 4) (x : BitVec 19) : winPat4 a b x &&& pt4.mask = pt4.expect := by
  show winPat4 a b x &&& (3#2 ++ 0#4 ++ 3#2 ++ 0#4 ++ 1#1 ++ 0#19) = _
  unfold winPat4
  repeat rw [BitVec.and_append]
  simp [pt4]

/-- The fields of the window of `PAT4` (R224). -/
theorem winPat4_fields (a b : BitVec 4) (x : BitVec 19) :
    (winPat4 a b x).extractLsb' 26 4 = a ∧ (winPat4 a b x).extractLsb' 20 4 = b ∧
      (winPat4 a b x).extractLsb' 0 19 = x := by
  unfold winPat4
  refine ⟨?_, ?_, ?_⟩ <;>
    (repeat (first
      | refine (BitVec.extractLsb'_append_eq_of_le (by decide)).trans ?_
      | refine (BitVec.extractLsb'_append_eq_of_add_le (by decide)).trans ?_)) <;>
    simp

theorem winPat4_of_match {win : Word} (h : win &&& pt4.mask = pt4.expect) :
    winPat4 (win.extractLsb' 26 4) (win.extractLsb' 20 4) (win.extractLsb' 0 19) = win := by
  refine word_eq_of_fields (mask := pt4.mask) [(26, 4), (20, 4), (0, 19)] ((winPat4_matches ..).trans h.symm) ?_ (by decide)
  have f := winPat4_fields (win.extractLsb' 26 4) (win.extractLsb' 20 4) (win.extractLsb' 0 19)
  intro p hp
  simp only [List.mem_cons, List.not_mem_nil, or_false] at hp
  rcases hp with rfl | rfl | rfl <;> simp only [f]

/-- Extraction of `PAT4` (R198, R224). -/
theorem extractLanes_pat4 (a b : BitVec 4) (x : BitVec 19) :
    extractLanes pt4 (winPat4 a b x) = ⟨a.setWidth 32, b.setWidth 32, 0, 0⟩ := by
  have h := winPat4_fields a b x
  simp [extractLanes_eq, pt4, h]

theorem decodeWindow_winPat4 (a b : BitVec 4) (x : BitVec 19) : decodeWindow (winPat4 a b x) = .ok (.pat4 a b x) := by
  have h := winPat4_fields a b x
  unfold decodeWindow
  rw [kselect_of_match (i := 4) (by decide) (winPat4_matches a b x)]
  simp [patInstr, h]

theorem winPat5_matches (a : BitVec 4) (b : BitVec 11) (c : BitVec 4) (x : BitVec 7) : winPat5 a b c x &&& pt5.mask = pt5.expect := by
  show winPat5 a b c x &&& (3#2 ++ 0#4 ++ 3#2 ++ 0#11 ++ 3#2 ++ 0#4 ++ 0#7) = _
  unfold winPat5
  repeat rw [BitVec.and_append]
  simp [pt5]

/-- The fields of the window of `PAT5` (R225). -/
theorem winPat5_fields (a : BitVec 4) (b : BitVec 11) (c : BitVec 4) (x : BitVec 7) :
    (winPat5 a b c x).extractLsb' 26 4 = a ∧ (winPat5 a b c x).extractLsb' 13 11 = b ∧
      (winPat5 a b c x).extractLsb' 7 4 = c ∧ (winPat5 a b c x).extractLsb' 0 7 = x := by
  unfold winPat5
  refine ⟨?_, ?_, ?_, ?_⟩ <;>
    (repeat (first
      | refine (BitVec.extractLsb'_append_eq_of_le (by decide)).trans ?_
      | refine (BitVec.extractLsb'_append_eq_of_add_le (by decide)).trans ?_)) <;>
    simp

theorem winPat5_of_match {win : Word} (h : win &&& pt5.mask = pt5.expect) :
    winPat5 (win.extractLsb' 26 4) (win.extractLsb' 13 11) (win.extractLsb' 7 4) (win.extractLsb' 0 7) = win := by
  refine word_eq_of_fields (mask := pt5.mask) [(26, 4), (13, 11), (7, 4), (0, 7)] ((winPat5_matches ..).trans h.symm) ?_ (by decide)
  have f := winPat5_fields (win.extractLsb' 26 4) (win.extractLsb' 13 11) (win.extractLsb' 7 4) (win.extractLsb' 0 7)
  intro p hp
  simp only [List.mem_cons, List.not_mem_nil, or_false] at hp
  rcases hp with rfl | rfl | rfl | rfl <;> simp only [f]

/-- Extraction of `PAT5` (R198, R225). -/
theorem extractLanes_pat5 (a : BitVec 4) (b : BitVec 11) (c : BitVec 4) (x : BitVec 7) :
    extractLanes pt5 (winPat5 a b c x) = ⟨a.setWidth 32, b.setWidth 32, c.setWidth 32, 0⟩ := by
  have h := winPat5_fields a b c x
  simp [extractLanes_eq, pt5, h]

theorem decodeWindow_winPat5 (a : BitVec 4) (b : BitVec 11) (c : BitVec 4) (x : BitVec 7) : decodeWindow (winPat5 a b c x) = .ok (.pat5 a b c x) := by
  have h := winPat5_fields a b c x
  unfold decodeWindow
  rw [kselect_of_match (i := 5) (by decide) (winPat5_matches a b c x)]
  simp [patInstr, h]

theorem winPat6_matches (a : BitVec 4) (b c : BitVec 11) : winPat6 a b c &&& pt6.mask = pt6.expect := by
  show winPat6 a b c &&& (3#2 ++ 0#4 ++ 3#2 ++ 0#11 ++ 3#2 ++ 0#11) = _
  unfold winPat6
  repeat rw [BitVec.and_append]
  simp [pt6]

/-- The fields of the window of `PAT6` (R226). -/
theorem winPat6_fields (a : BitVec 4) (b c : BitVec 11) :
    (winPat6 a b c).extractLsb' 26 4 = a ∧ (winPat6 a b c).extractLsb' 13 11 = b ∧
      (winPat6 a b c).extractLsb' 0 11 = c := by
  unfold winPat6
  refine ⟨?_, ?_, ?_⟩ <;>
    (repeat (first
      | refine (BitVec.extractLsb'_append_eq_of_le (by decide)).trans ?_
      | refine (BitVec.extractLsb'_append_eq_of_add_le (by decide)).trans ?_)) <;>
    simp

theorem winPat6_of_match {win : Word} (h : win &&& pt6.mask = pt6.expect) :
    winPat6 (win.extractLsb' 26 4) (win.extractLsb' 13 11) (win.extractLsb' 0 11) = win := by
  refine word_eq_of_fields (mask := pt6.mask) [(26, 4), (13, 11), (0, 11)] ((winPat6_matches ..).trans h.symm) ?_ (by decide)
  have f := winPat6_fields (win.extractLsb' 26 4) (win.extractLsb' 13 11) (win.extractLsb' 0 11)
  intro p hp
  simp only [List.mem_cons, List.not_mem_nil, or_false] at hp
  rcases hp with rfl | rfl | rfl <;> simp only [f]

/-- Extraction of `PAT6` (R198, R226). -/
theorem extractLanes_pat6 (a : BitVec 4) (b c : BitVec 11) :
    extractLanes pt6 (winPat6 a b c) = ⟨a.setWidth 32, b.setWidth 32, c.setWidth 32, 0⟩ := by
  have h := winPat6_fields a b c
  simp [extractLanes_eq, pt6, h]

theorem decodeWindow_winPat6 (a : BitVec 4) (b c : BitVec 11) : decodeWindow (winPat6 a b c) = .ok (.pat6 a b c) := by
  have h := winPat6_fields a b c
  unfold decodeWindow
  rw [kselect_of_match (i := 6) (by decide) (winPat6_matches a b c)]
  simp [patInstr, h]

theorem winPat7_matches (a : BitVec 4) (b : BitVec 11) (x : BitVec 12) : winPat7 a b x &&& pt7.mask = pt7.expect := by
  show winPat7 a b x &&& (3#2 ++ 0#4 ++ 3#2 ++ 0#11 ++ 1#1 ++ 0#12) = _
  unfold winPat7
  repeat rw [BitVec.and_append]
  simp [pt7]

/-- The fields of the window of `PAT7` (R227). -/
theorem winPat7_fields (a : BitVec 4) (b : BitVec 11) (x : BitVec 12) :
    (winPat7 a b x).extractLsb' 26 4 = a ∧ (winPat7 a b x).extractLsb' 13 11 = b ∧
      (winPat7 a b x).extractLsb' 0 12 = x := by
  unfold winPat7
  refine ⟨?_, ?_, ?_⟩ <;>
    (repeat (first
      | refine (BitVec.extractLsb'_append_eq_of_le (by decide)).trans ?_
      | refine (BitVec.extractLsb'_append_eq_of_add_le (by decide)).trans ?_)) <;>
    simp

theorem winPat7_of_match {win : Word} (h : win &&& pt7.mask = pt7.expect) :
    winPat7 (win.extractLsb' 26 4) (win.extractLsb' 13 11) (win.extractLsb' 0 12) = win := by
  refine word_eq_of_fields (mask := pt7.mask) [(26, 4), (13, 11), (0, 12)] ((winPat7_matches ..).trans h.symm) ?_ (by decide)
  have f := winPat7_fields (win.extractLsb' 26 4) (win.extractLsb' 13 11) (win.extractLsb' 0 12)
  intro p hp
  simp only [List.mem_cons, List.not_mem_nil, or_false] at hp
  rcases hp with rfl | rfl | rfl <;> simp only [f]

/-- Extraction of `PAT7` (R198, R227). -/
theorem extractLanes_pat7 (a : BitVec 4) (b : BitVec 11) (x : BitVec 12) :
    extractLanes pt7 (winPat7 a b x) = ⟨a.setWidth 32, b.setWidth 32, 0, 0⟩ := by
  have h := winPat7_fields a b x
  simp [extractLanes_eq, pt7, h]

theorem decodeWindow_winPat7 (a : BitVec 4) (b : BitVec 11) (x : BitVec 12) : decodeWindow (winPat7 a b x) = .ok (.pat7 a b x) := by
  have h := winPat7_fields a b x
  unfold decodeWindow
  rw [kselect_of_match (i := 7) (by decide) (winPat7_matches a b x)]
  simp [patInstr, h]

theorem winPat8_matches (a : BitVec 4) (b : BitVec 24) : winPat8 a b &&& pt8.mask = pt8.expect := by
  show winPat8 a b &&& (3#2 ++ 0#4 ++ 3#2 ++ 0#24) = _
  unfold winPat8
  repeat rw [BitVec.and_append]
  simp [pt8]

/-- The fields of the window of `PAT8` (R228). -/
theorem winPat8_fields (a : BitVec 4) (b : BitVec 24) :
    (winPat8 a b).extractLsb' 26 4 = a ∧ (winPat8 a b).extractLsb' 0 24 = b := by
  unfold winPat8
  refine ⟨?_, ?_⟩ <;>
    (repeat (first
      | refine (BitVec.extractLsb'_append_eq_of_le (by decide)).trans ?_
      | refine (BitVec.extractLsb'_append_eq_of_add_le (by decide)).trans ?_)) <;>
    simp

theorem winPat8_of_match {win : Word} (h : win &&& pt8.mask = pt8.expect) :
    winPat8 (win.extractLsb' 26 4) (win.extractLsb' 0 24) = win := by
  refine word_eq_of_fields (mask := pt8.mask) [(26, 4), (0, 24)] ((winPat8_matches ..).trans h.symm) ?_ (by decide)
  have f := winPat8_fields (win.extractLsb' 26 4) (win.extractLsb' 0 24)
  intro p hp
  simp only [List.mem_cons, List.not_mem_nil, or_false] at hp
  rcases hp with rfl | rfl <;> simp only [f]

/-- Extraction of `PAT8` (R198, R228). -/
theorem extractLanes_pat8 (a : BitVec 4) (b : BitVec 24) :
    extractLanes pt8 (winPat8 a b) = ⟨a.setWidth 32, b.setWidth 32, 0, 0⟩ := by
  have h := winPat8_fields a b
  simp [extractLanes_eq, pt8, h]

theorem decodeWindow_winPat8 (a : BitVec 4) (b : BitVec 24) : decodeWindow (winPat8 a b) = .ok (.pat8 a b) := by
  have h := winPat8_fields a b
  unfold decodeWindow
  rw [kselect_of_match (i := 8) (by decide) (winPat8_matches a b)]
  simp [patInstr, h]

theorem winPat9_matches (a : BitVec 4) (x : BitVec 24) : winPat9 a x &&& pt9.mask = pt9.expect := by
  show winPat9 a x &&& (3#2 ++ 0#4 ++ 3#2 ++ 0#24) = _
  unfold winPat9
  repeat rw [BitVec.and_append]
  simp [pt9]

/-- The fields of the window of `PAT9` (R229). -/
theorem winPat9_fields (a : BitVec 4) (x : BitVec 24) :
    (winPat9 a x).extractLsb' 26 4 = a ∧ (winPat9 a x).extractLsb' 0 24 = x := by
  unfold winPat9
  refine ⟨?_, ?_⟩ <;>
    (repeat (first
      | refine (BitVec.extractLsb'_append_eq_of_le (by decide)).trans ?_
      | refine (BitVec.extractLsb'_append_eq_of_add_le (by decide)).trans ?_)) <;>
    simp

theorem winPat9_of_match {win : Word} (h : win &&& pt9.mask = pt9.expect) :
    winPat9 (win.extractLsb' 26 4) (win.extractLsb' 0 24) = win := by
  refine word_eq_of_fields (mask := pt9.mask) [(26, 4), (0, 24)] ((winPat9_matches ..).trans h.symm) ?_ (by decide)
  have f := winPat9_fields (win.extractLsb' 26 4) (win.extractLsb' 0 24)
  intro p hp
  simp only [List.mem_cons, List.not_mem_nil, or_false] at hp
  rcases hp with rfl | rfl <;> simp only [f]

/-- Extraction of `PAT9` (R198, R229). -/
theorem extractLanes_pat9 (a : BitVec 4) (x : BitVec 24) :
    extractLanes pt9 (winPat9 a x) = ⟨a.setWidth 32, 0, 0, 0⟩ := by
  have h := winPat9_fields a x
  simp [extractLanes_eq, pt9, h]

theorem decodeWindow_winPat9 (a : BitVec 4) (x : BitVec 24) : decodeWindow (winPat9 a x) = .ok (.pat9 a x) := by
  have h := winPat9_fields a x
  unfold decodeWindow
  rw [kselect_of_match (i := 9) (by decide) (winPat9_matches a x)]
  simp [patInstr, h]

theorem winPat10_matches (a : BitVec 11) (b c : BitVec 4) (x : BitVec 7) : winPat10 a b c x &&& pt10.mask = pt10.expect := by
  show winPat10 a b c x &&& (3#2 ++ 0#11 ++ 3#2 ++ 0#4 ++ 3#2 ++ 0#4 ++ 0#7) = _
  unfold winPat10
  repeat rw [BitVec.and_append]
  simp [pt10]

/-- The fields of the window of `PAT10` (R230). -/
theorem winPat10_fields (a : BitVec 11) (b c : BitVec 4) (x : BitVec 7) :
    (winPat10 a b c x).extractLsb' 19 11 = a ∧ (winPat10 a b c x).extractLsb' 13 4 = b ∧
      (winPat10 a b c x).extractLsb' 7 4 = c ∧ (winPat10 a b c x).extractLsb' 0 7 = x := by
  unfold winPat10
  refine ⟨?_, ?_, ?_, ?_⟩ <;>
    (repeat (first
      | refine (BitVec.extractLsb'_append_eq_of_le (by decide)).trans ?_
      | refine (BitVec.extractLsb'_append_eq_of_add_le (by decide)).trans ?_)) <;>
    simp

theorem winPat10_of_match {win : Word} (h : win &&& pt10.mask = pt10.expect) :
    winPat10 (win.extractLsb' 19 11) (win.extractLsb' 13 4) (win.extractLsb' 7 4) (win.extractLsb' 0 7) = win := by
  refine word_eq_of_fields (mask := pt10.mask) [(19, 11), (13, 4), (7, 4), (0, 7)] ((winPat10_matches ..).trans h.symm) ?_ (by decide)
  have f := winPat10_fields (win.extractLsb' 19 11) (win.extractLsb' 13 4) (win.extractLsb' 7 4) (win.extractLsb' 0 7)
  intro p hp
  simp only [List.mem_cons, List.not_mem_nil, or_false] at hp
  rcases hp with rfl | rfl | rfl | rfl <;> simp only [f]

/-- Extraction of `PAT10` (R198, R230). -/
theorem extractLanes_pat10 (a : BitVec 11) (b c : BitVec 4) (x : BitVec 7) :
    extractLanes pt10 (winPat10 a b c x) = ⟨a.setWidth 32, b.setWidth 32, c.setWidth 32, 0⟩ := by
  have h := winPat10_fields a b c x
  simp [extractLanes_eq, pt10, h]

theorem decodeWindow_winPat10 (a : BitVec 11) (b c : BitVec 4) (x : BitVec 7) : decodeWindow (winPat10 a b c x) = .ok (.pat10 a b c x) := by
  have h := winPat10_fields a b c x
  unfold decodeWindow
  rw [kselect_of_match (i := 10) (by decide) (winPat10_matches a b c x)]
  simp [patInstr, h]

theorem winPat11_matches (a : BitVec 11) (b : BitVec 4) (c : BitVec 11) : winPat11 a b c &&& pt11.mask = pt11.expect := by
  show winPat11 a b c &&& (3#2 ++ 0#11 ++ 3#2 ++ 0#4 ++ 3#2 ++ 0#11) = _
  unfold winPat11
  repeat rw [BitVec.and_append]
  simp [pt11]

/-- The fields of the window of `PAT11` (R231). -/
theorem winPat11_fields (a : BitVec 11) (b : BitVec 4) (c : BitVec 11) :
    (winPat11 a b c).extractLsb' 19 11 = a ∧ (winPat11 a b c).extractLsb' 13 4 = b ∧
      (winPat11 a b c).extractLsb' 0 11 = c := by
  unfold winPat11
  refine ⟨?_, ?_, ?_⟩ <;>
    (repeat (first
      | refine (BitVec.extractLsb'_append_eq_of_le (by decide)).trans ?_
      | refine (BitVec.extractLsb'_append_eq_of_add_le (by decide)).trans ?_)) <;>
    simp

theorem winPat11_of_match {win : Word} (h : win &&& pt11.mask = pt11.expect) :
    winPat11 (win.extractLsb' 19 11) (win.extractLsb' 13 4) (win.extractLsb' 0 11) = win := by
  refine word_eq_of_fields (mask := pt11.mask) [(19, 11), (13, 4), (0, 11)] ((winPat11_matches ..).trans h.symm) ?_ (by decide)
  have f := winPat11_fields (win.extractLsb' 19 11) (win.extractLsb' 13 4) (win.extractLsb' 0 11)
  intro p hp
  simp only [List.mem_cons, List.not_mem_nil, or_false] at hp
  rcases hp with rfl | rfl | rfl <;> simp only [f]

/-- Extraction of `PAT11` (R198, R231). -/
theorem extractLanes_pat11 (a : BitVec 11) (b : BitVec 4) (c : BitVec 11) :
    extractLanes pt11 (winPat11 a b c) = ⟨a.setWidth 32, b.setWidth 32, c.setWidth 32, 0⟩ := by
  have h := winPat11_fields a b c
  simp [extractLanes_eq, pt11, h]

theorem decodeWindow_winPat11 (a : BitVec 11) (b : BitVec 4) (c : BitVec 11) : decodeWindow (winPat11 a b c) = .ok (.pat11 a b c) := by
  have h := winPat11_fields a b c
  unfold decodeWindow
  rw [kselect_of_match (i := 11) (by decide) (winPat11_matches a b c)]
  simp [patInstr, h]

theorem winPat12_matches (a : BitVec 11) (b : BitVec 4) (x : BitVec 12) : winPat12 a b x &&& pt12.mask = pt12.expect := by
  show winPat12 a b x &&& (3#2 ++ 0#11 ++ 3#2 ++ 0#4 ++ 1#1 ++ 0#12) = _
  unfold winPat12
  repeat rw [BitVec.and_append]
  simp [pt12]

/-- The fields of the window of `PAT12` (R232). -/
theorem winPat12_fields (a : BitVec 11) (b : BitVec 4) (x : BitVec 12) :
    (winPat12 a b x).extractLsb' 19 11 = a ∧ (winPat12 a b x).extractLsb' 13 4 = b ∧
      (winPat12 a b x).extractLsb' 0 12 = x := by
  unfold winPat12
  refine ⟨?_, ?_, ?_⟩ <;>
    (repeat (first
      | refine (BitVec.extractLsb'_append_eq_of_le (by decide)).trans ?_
      | refine (BitVec.extractLsb'_append_eq_of_add_le (by decide)).trans ?_)) <;>
    simp

theorem winPat12_of_match {win : Word} (h : win &&& pt12.mask = pt12.expect) :
    winPat12 (win.extractLsb' 19 11) (win.extractLsb' 13 4) (win.extractLsb' 0 12) = win := by
  refine word_eq_of_fields (mask := pt12.mask) [(19, 11), (13, 4), (0, 12)] ((winPat12_matches ..).trans h.symm) ?_ (by decide)
  have f := winPat12_fields (win.extractLsb' 19 11) (win.extractLsb' 13 4) (win.extractLsb' 0 12)
  intro p hp
  simp only [List.mem_cons, List.not_mem_nil, or_false] at hp
  rcases hp with rfl | rfl | rfl <;> simp only [f]

/-- Extraction of `PAT12` (R198, R232). -/
theorem extractLanes_pat12 (a : BitVec 11) (b : BitVec 4) (x : BitVec 12) :
    extractLanes pt12 (winPat12 a b x) = ⟨a.setWidth 32, b.setWidth 32, 0, 0⟩ := by
  have h := winPat12_fields a b x
  simp [extractLanes_eq, pt12, h]

theorem decodeWindow_winPat12 (a : BitVec 11) (b : BitVec 4) (x : BitVec 12) : decodeWindow (winPat12 a b x) = .ok (.pat12 a b x) := by
  have h := winPat12_fields a b x
  unfold decodeWindow
  rw [kselect_of_match (i := 12) (by decide) (winPat12_matches a b x)]
  simp [patInstr, h]

theorem winPat13_matches (a b : BitVec 11) (x : BitVec 6) : winPat13 a b x &&& pt13.mask = pt13.expect := by
  show winPat13 a b x &&& (3#2 ++ 0#11 ++ 3#2 ++ 0#11 ++ 0#6) = _
  unfold winPat13
  repeat rw [BitVec.and_append]
  simp [pt13]

/-- The fields of the window of `PAT13` (R233). -/
theorem winPat13_fields (a b : BitVec 11) (x : BitVec 6) :
    (winPat13 a b x).extractLsb' 19 11 = a ∧ (winPat13 a b x).extractLsb' 6 11 = b ∧
      (winPat13 a b x).extractLsb' 0 6 = x := by
  unfold winPat13
  refine ⟨?_, ?_, ?_⟩ <;>
    (repeat (first
      | refine (BitVec.extractLsb'_append_eq_of_le (by decide)).trans ?_
      | refine (BitVec.extractLsb'_append_eq_of_add_le (by decide)).trans ?_)) <;>
    simp

theorem winPat13_of_match {win : Word} (h : win &&& pt13.mask = pt13.expect) :
    winPat13 (win.extractLsb' 19 11) (win.extractLsb' 6 11) (win.extractLsb' 0 6) = win := by
  refine word_eq_of_fields (mask := pt13.mask) [(19, 11), (6, 11), (0, 6)] ((winPat13_matches ..).trans h.symm) ?_ (by decide)
  have f := winPat13_fields (win.extractLsb' 19 11) (win.extractLsb' 6 11) (win.extractLsb' 0 6)
  intro p hp
  simp only [List.mem_cons, List.not_mem_nil, or_false] at hp
  rcases hp with rfl | rfl | rfl <;> simp only [f]

/-- Extraction of `PAT13` (R198, R233). -/
theorem extractLanes_pat13 (a b : BitVec 11) (x : BitVec 6) :
    extractLanes pt13 (winPat13 a b x) = ⟨a.setWidth 32, b.setWidth 32, 0, 0⟩ := by
  have h := winPat13_fields a b x
  simp [extractLanes_eq, pt13, h]

theorem decodeWindow_winPat13 (a b : BitVec 11) (x : BitVec 6) : decodeWindow (winPat13 a b x) = .ok (.pat13 a b x) := by
  have h := winPat13_fields a b x
  unfold decodeWindow
  rw [kselect_of_match (i := 13) (by decide) (winPat13_matches a b x)]
  simp [patInstr, h]

theorem winPat14_matches (a : BitVec 11) (x : BitVec 18) : winPat14 a x &&& pt14.mask = pt14.expect := by
  show winPat14 a x &&& (3#2 ++ 0#11 ++ 1#1 ++ 0#18) = _
  unfold winPat14
  repeat rw [BitVec.and_append]
  simp [pt14]

/-- The fields of the window of `PAT14` (R234). -/
theorem winPat14_fields (a : BitVec 11) (x : BitVec 18) :
    (winPat14 a x).extractLsb' 19 11 = a ∧ (winPat14 a x).extractLsb' 0 18 = x := by
  unfold winPat14
  refine ⟨?_, ?_⟩ <;>
    (repeat (first
      | refine (BitVec.extractLsb'_append_eq_of_le (by decide)).trans ?_
      | refine (BitVec.extractLsb'_append_eq_of_add_le (by decide)).trans ?_)) <;>
    simp

theorem winPat14_of_match {win : Word} (h : win &&& pt14.mask = pt14.expect) :
    winPat14 (win.extractLsb' 19 11) (win.extractLsb' 0 18) = win := by
  refine word_eq_of_fields (mask := pt14.mask) [(19, 11), (0, 18)] ((winPat14_matches ..).trans h.symm) ?_ (by decide)
  have f := winPat14_fields (win.extractLsb' 19 11) (win.extractLsb' 0 18)
  intro p hp
  simp only [List.mem_cons, List.not_mem_nil, or_false] at hp
  rcases hp with rfl | rfl <;> simp only [f]

/-- Extraction of `PAT14` (R198, R234). -/
theorem extractLanes_pat14 (a : BitVec 11) (x : BitVec 18) :
    extractLanes pt14 (winPat14 a x) = ⟨a.setWidth 32, 0, 0, 0⟩ := by
  have h := winPat14_fields a x
  simp [extractLanes_eq, pt14, h]

theorem decodeWindow_winPat14 (a : BitVec 11) (x : BitVec 18) : decodeWindow (winPat14 a x) = .ok (.pat14 a x) := by
  have h := winPat14_fields a x
  unfold decodeWindow
  rw [kselect_of_match (i := 14) (by decide) (winPat14_matches a x)]
  simp [patInstr, h]

theorem winPat15_matches (a : BitVec 24) (x : BitVec 6) : winPat15 a x &&& pt15.mask = pt15.expect := by
  show winPat15 a x &&& (3#2 ++ 0#24 ++ 0#6) = _
  unfold winPat15
  repeat rw [BitVec.and_append]
  simp [pt15]

/-- The fields of the window of `PAT15` (R235). -/
theorem winPat15_fields (a : BitVec 24) (x : BitVec 6) :
    (winPat15 a x).extractLsb' 6 24 = a ∧ (winPat15 a x).extractLsb' 0 6 = x := by
  unfold winPat15
  refine ⟨?_, ?_⟩ <;>
    (repeat (first
      | refine (BitVec.extractLsb'_append_eq_of_le (by decide)).trans ?_
      | refine (BitVec.extractLsb'_append_eq_of_add_le (by decide)).trans ?_)) <;>
    simp

theorem winPat15_of_match {win : Word} (h : win &&& pt15.mask = pt15.expect) :
    winPat15 (win.extractLsb' 6 24) (win.extractLsb' 0 6) = win := by
  refine word_eq_of_fields (mask := pt15.mask) [(6, 24), (0, 6)] ((winPat15_matches ..).trans h.symm) ?_ (by decide)
  have f := winPat15_fields (win.extractLsb' 6 24) (win.extractLsb' 0 6)
  intro p hp
  simp only [List.mem_cons, List.not_mem_nil, or_false] at hp
  rcases hp with rfl | rfl <;> simp only [f]

/-- Extraction of `PAT15` (R198, R235). -/
theorem extractLanes_pat15 (a : BitVec 24) (x : BitVec 6) :
    extractLanes pt15 (winPat15 a x) = ⟨a.setWidth 32, 0, 0, 0⟩ := by
  have h := winPat15_fields a x
  simp [extractLanes_eq, pt15, h]

theorem decodeWindow_winPat15 (a : BitVec 24) (x : BitVec 6) : decodeWindow (winPat15 a x) = .ok (.pat15 a x) := by
  have h := winPat15_fields a x
  unfold decodeWindow
  rw [kselect_of_match (i := 15) (by decide) (winPat15_matches a x)]
  simp [patInstr, h]

/-- The instruction selection reads from a window runs the matched step of the entry on that window. -/
theorem exec_patInstr {k : Nat} {win : Word} {i : Instr} (hk : k < 16) (h : patInstr k win = some i)
    (hm : win &&& (patTable.getD k pt0).mask = (patTable.getD k pt0).expect) (s : State) :
    exec i s = s.matchedStep (patTable.getD k pt0) win := by
  interval_cases k <;> simp only [patInstr, Option.some.injEq] at h <;> subst h
  · exact congrArg (s.matchedStep pt0) (winPat0_of_match hm)
  · exact congrArg (s.matchedStep pt1) (winPat1_of_match hm)
  · exact congrArg (s.matchedStep pt2) (winPat2_of_match hm)
  · exact congrArg (s.matchedStep pt3) (winPat3_of_match hm)
  · exact congrArg (s.matchedStep pt4) (winPat4_of_match hm)
  · exact congrArg (s.matchedStep pt5) (winPat5_of_match hm)
  · exact congrArg (s.matchedStep pt6) (winPat6_of_match hm)
  · exact congrArg (s.matchedStep pt7) (winPat7_of_match hm)
  · exact congrArg (s.matchedStep pt8) (winPat8_of_match hm)
  · exact congrArg (s.matchedStep pt9) (winPat9_of_match hm)
  · exact congrArg (s.matchedStep pt10) (winPat10_of_match hm)
  · exact congrArg (s.matchedStep pt11) (winPat11_of_match hm)
  · exact congrArg (s.matchedStep pt12) (winPat12_of_match hm)
  · exact congrArg (s.matchedStep pt13) (winPat13_of_match hm)
  · exact congrArg (s.matchedStep pt14) (winPat14_of_match hm)
  · exact congrArg (s.matchedStep pt15) (winPat15_of_match hm)

end Sys2Proof
end

