-- ==== Sys2Proof/Laws/Bits.lean ====
section
/-! SUPPORT. Bits and the numbers they are, records and their bits (R92 to R97, R103), bit strings against the bits of a
word sequence. -/

namespace Sys2Proof

open Machine

@[simp] theorem length_bitsOf (n v : Nat) : (bitsOf n v).length = n := by
  induction n with
  | zero => rfl
  | succ n ih => simp [bitsOf, ih]

theorem numOf_cons (b : Bool) (bits : List Bool) (acc : Nat) : numOf (b :: bits) acc = numOf bits (2 * acc + b.toNat) := rfl

theorem numOf_append (xs ys : List Bool) (acc : Nat) : numOf (xs ++ ys) acc = numOf ys (numOf xs acc) := by
  simp [numOf]

theorem numOf_acc (bits : List Bool) (acc : Nat) : numOf bits acc = acc * 2 ^ bits.length + numOf bits 0 := by
  induction bits generalizing acc with
  | nil => simp [numOf]
  | cons b bits ih =>
    rw [numOf_cons, ih, numOf_cons, ih (2 * 0 + b.toNat), List.length_cons, pow_succ]
    ring

theorem numOf_lt (bits : List Bool) : numOf bits 0 < 2 ^ bits.length := by
  induction bits with
  | nil => simp [numOf]
  | cons b bits ih =>
    rw [numOf_cons, numOf_acc, List.length_cons, pow_succ]
    have : (2 * 0 + b.toNat) ≤ 1 := by cases b <;> simp
    have := Nat.mul_le_mul_right (2 ^ bits.length) this
    omega

/-- The bits of a number stand for the number, modulo the width. -/
theorem numOf_bitsOf (n v : Nat) : numOf (bitsOf n v) 0 = v % 2 ^ n := by
  induction n with
  | zero => simp [bitsOf, numOf, Nat.mod_one]
  | succ n ih =>
    rw [bitsOf, numOf_cons, numOf_acc, ih, length_bitsOf, Nat.testBit_eq_decide_div_mod_eq]
    have h1 : v % 2 ^ (n + 1) = v % 2 ^ n + 2 ^ n * (v / 2 ^ n % 2) := Nat.mod_pow_succ
    rw [h1]
    rcases Nat.mod_two_eq_zero_or_one (v / 2 ^ n) with h | h <;> simp [h, Nat.add_comm]

theorem getD_bitsOf (n v i : Nat) (h : i < n) : (bitsOf n v).getD i false = v.testBit (n - 1 - i) := by
  induction n generalizing i with
  | zero => omega
  | succ n ih =>
    cases i with
    | zero => simp [bitsOf]
    | succ i =>
      have e : n + 1 - 1 - (i + 1) = n - 1 - i := by omega
      rw [bitsOf, List.getD_cons_succ, ih i (by omega), e]

/-- A bit string is the bits of its number. -/
theorem bitsOf_numOf (bits : List Bool) : bitsOf bits.length (numOf bits 0) = bits := by
  induction bits with
  | nil => rfl
  | cons b bits ih =>
    rw [List.length_cons, bitsOf, numOf_cons, numOf_acc]
    have hlt := numOf_lt bits
    have hmod : ∀ n a c : Nat, bitsOf n (a * 2 ^ n + c) = bitsOf n c := by
      intro n a c
      apply List.ext_getElem (by simp)
      intro i h1 h2
      simp only [length_bitsOf] at h1
      have g1 := getD_bitsOf n (a * 2 ^ n + c) i h1
      have g2 := getD_bitsOf n c i h1
      rw [List.getD_eq_getElem _ _ (by simpa using h1)] at g1 g2
      have t1 := Nat.testBit_mod_two_pow (a * 2 ^ n + c) n (n - 1 - i)
      have t2 := Nat.testBit_mod_two_pow c n (n - 1 - i)
      rw [Nat.mul_add_mod_self_right, t2] at t1
      have hd : n - 1 - i < n := by omega
      simp only [hd, decide_true, Bool.true_and] at t1
      rw [g1, g2, t1]
    rw [hmod, ih]
    congr 1
    rw [Nat.testBit_eq_decide_div_mod_eq, Nat.mul_comm, Nat.mul_add_div (by positivity), Nat.div_eq_of_lt hlt]
    cases b <;> simp

theorem takeBits_append (xs ys : List Bool) : takeBits xs.length (xs ++ ys) = some (numOf xs 0, ys) := by
  simp [takeBits]

theorem takeBits_some {n p : Nat} {bits rest : List Bool} (h : takeBits n bits = some (p, rest)) :
    p < 2 ^ n ∧ bits = bitsOf n p ++ rest := by
  unfold takeBits at h
  split_ifs at h with hn
  simp only [Option.some.injEq, Prod.mk.injEq] at h
  obtain ⟨rfl, rfl⟩ := h
  have hl : (bits.take n).length = n := by simp [hn]
  have h1 := numOf_lt (bits.take n)
  have h2 := bitsOf_numOf (bits.take n)
  rw [hl] at h1 h2
  exact ⟨h1, by rw [h2, List.take_append_drop]⟩

/-! ## Records -/

@[simp] theorem WClass.ofTag_tag (c : WClass) : WClass.ofTag c.tag = c := by cases c <;> rfl

@[simp] theorem WClass.tag_ofTag (t : BitVec 2) : (WClass.ofTag t).tag = t := by revert t; decide

@[simp] theorem length_recordBits (c : WClass) (p : Nat) : (recordBits c p).length = c.recLen := by
  simp [recordBits, WClass.recLen]

/-- A record's bits decode to the record, whatever follows (R103). -/
theorem decodeRecord_recordBits (c : WClass) (p : Nat) (rest : List Bool) (h : p < 2 ^ c.width) :
    decodeRecord (recordBits c p ++ rest) = .ok (recordInstr c.tag (BitVec.ofNat 32 p), rest) := by
  have h1 : takeBits Config.tagBits (recordBits c p ++ rest) = some (c.tag.toNat, bitsOf c.width p ++ rest) := by
    have := takeBits_append (bitsOf Config.tagBits c.tag.toNat) (bitsOf c.width p ++ rest)
    rw [length_bitsOf, numOf_bitsOf, Nat.mod_eq_of_lt (show c.tag.toNat < 2 ^ Config.tagBits from c.tag.isLt)] at this
    rw [recordBits, List.append_assoc, this]
  have h2 : takeBits c.width (bitsOf c.width p ++ rest) = some (p, rest) := by
    have := takeBits_append (bitsOf c.width p) rest
    rwa [length_bitsOf, numOf_bitsOf, Nat.mod_eq_of_lt h] at this
  have e : BitVec.ofNat 2 c.tag.toNat = c.tag := by simp
  unfold decodeRecord
  simp only [h1, e, WClass.ofTag_tag, h2]

theorem recordInstr_c0 (p : Word) : recordInstr WClass.c0.tag p = .recC0 (p.setWidth 4) := rfl
theorem recordInstr_c1 (p : Word) : recordInstr WClass.c1.tag p = .recC1 (p.setWidth 11) := rfl
theorem recordInstr_c2 (p : Word) : recordInstr WClass.c2.tag p = .recC2 (p.setWidth 24) := rfl
theorem recordInstr_c3 (p : Word) : recordInstr WClass.c3.tag p = .recC3 p := rfl

/-- What decodes to a record begins with the record's bits (R103). -/
theorem decodeRecord_ok {bits rest : List Bool} {i : Instr} (h : decodeRecord bits = .ok (i, rest)) :
    ∃ (c : WClass) (p : Nat), p < 2 ^ c.width ∧ i = recordInstr c.tag (BitVec.ofNat 32 p) ∧
      bits = recordBits c p ++ rest := by
  unfold decodeRecord at h
  cases h1 : takeBits Config.tagBits bits with
  | none => simp [h1] at h
  | some x =>
    obtain ⟨t, r1⟩ := x
    simp only [h1] at h
    cases h2 : takeBits (WClass.ofTag (BitVec.ofNat 2 t)).width r1 with
    | none => simp [h2] at h
    | some y =>
      obtain ⟨p, r2⟩ := y
      simp only [h2, Except.ok.injEq, Prod.mk.injEq] at h
      obtain ⟨rfl, rfl⟩ := h
      obtain ⟨ht, hb⟩ := takeBits_some h1
      obtain ⟨hp, hr⟩ := takeBits_some h2
      refine ⟨WClass.ofTag (BitVec.ofNat 2 t), p, hp, by rw [WClass.tag_ofTag], ?_⟩
      have e : t % 2 ^ 2 = t := Nat.mod_eq_of_lt ht
      rw [recordBits, WClass.tag_ofTag, BitVec.toNat_ofNat, e, List.append_assoc, ← hr]
      exact hb

/-- The record of class `c` and payload `p` encodes to its bits. -/
theorem encode_recordInstr (c : WClass) (p : Nat) (h : p < 2 ^ c.width) :
    encode (recordInstr c.tag (BitVec.ofNat 32 p)) = .record (recordBits c p) := by
  have h32 : p % 4294967296 = p :=
    Nat.mod_eq_of_lt (lt_of_lt_of_le h (Nat.pow_le_pow_right (by decide) (WClass.width_le c)))
  cases c
  case c0 => rw [recordInstr_c0]; simp [encode, Nat.mod_eq_of_lt (show p < 16 from h)]
  case c1 => rw [recordInstr_c1]; simp [encode, Nat.mod_eq_of_lt (show p < 2048 from h)]
  case c2 => rw [recordInstr_c2]; simp [encode, Nat.mod_eq_of_lt (show p < 16777216 from h)]
  case c3 => rw [recordInstr_c3]; simp [encode, h32]

/-! ## Bits of a word sequence -/

namespace Machine

@[simp] theorem length_bitsFrom (words : Nat → Word) (p n : Nat) : (bitsFrom words p n).length = n := by
  induction n generalizing p with
  | zero => rfl
  | succ n ih => simp [bitsFrom, ih]

theorem bitsFrom_append (words : Nat → Word) (p m n : Nat) :
    bitsFrom words p (m + n) = bitsFrom words p m ++ bitsFrom words (p + m) n := by
  induction m generalizing p with
  | zero => simp [bitsFrom]
  | succ m ih =>
    have e : m + 1 + n = (m + n) + 1 := by omega
    rw [e, bitsFrom, bitsFrom, ih, List.cons_append]
    congr 2
    congr 1
    omega

theorem getD_bitsFrom (words : Nat → Word) (p n i : Nat) (h : i < n) :
    (bitsFrom words p n).getD i false = streamBit words (p + i) := by
  induction n generalizing p i with
  | zero => omega
  | succ n ih =>
    cases i with
    | zero => simp [bitsFrom]
    | succ i =>
      have e : p + 1 + i = p + (i + 1) := by omega
      rw [bitsFrom, List.getD_cons_succ, ih (p + 1) i (by omega), e]

/-- The `n`-bit number at stream offset `p` (R154) is the number of the `n` bits there. -/
theorem streamField_eq_numOf (words : Nat → Word) (p n : Nat) : streamField words p n = numOf (bitsFrom words p n) 0 := by
  induction n with
  | zero => rfl
  | succ n ih => rw [streamField, bitsFrom_append, numOf_append, ih]; rfl

theorem streamField_lt (words : Nat → Word) (p n : Nat) : streamField words p n < 2 ^ n := by
  have := numOf_lt (bitsFrom words p n)
  rwa [length_bitsFrom, ← streamField_eq_numOf] at this

theorem bitsOf_streamField (words : Nat → Word) (p n : Nat) : bitsOf n (streamField words p n) = bitsFrom words p n := by
  have := bitsOf_numOf (bitsFrom words p n)
  rwa [length_bitsFrom, ← streamField_eq_numOf] at this

/-- The record at stream offset `p` is the bits there (R97, R103). -/
theorem bitsFrom_record (words : Nat → Word) (p : Nat) :
    bitsFrom words p (classAt words p).recLen = recordBits (classAt words p) (valueAt words p).toNat := by
  have hw := WClass.width_le (classAt words p)
  have hlt := streamField_lt words (p + Config.tagBits) (classAt words p).width
  have ht := streamField_lt words p Config.tagBits
  have e1 : (valueAt words p).toNat = streamField words (p + Config.tagBits) (classAt words p).width := by
    unfold valueAt
    rw [BitVec.toNat_ofNat, Nat.mod_eq_of_lt (lt_of_lt_of_le hlt (Nat.pow_le_pow_right (by decide) hw))]
  have e2 : (classAt words p).tag.toNat = streamField words p Config.tagBits := by
    rw [classAt, WClass.tag_ofTag, BitVec.toNat_ofNat]
    exact Nat.mod_eq_of_lt ht
  rw [WClass.recLen, bitsFrom_append, recordBits, e1, e2, bitsOf_streamField, bitsOf_streamField]

end Machine

end Sys2Proof
end

