-- ==== Sys2Proof/Laws/Fetch.lean ====
section
/-! SUPPORT. What a decoder finds at its cursor, and everything a decoder's step can do (R172, R179, R192), said once. -/

namespace Sys2Proof.Machine

theorem BB.peek_toNat_lt (bb : BB) (w : Nat) (hw : w ≤ 32) : (bb.peek w).toNat < 2 ^ w := by
  unfold BB.peek
  rw [BitVec.toNat_setWidth, BitVec.toNat_ushiftRight, Nat.shiftRight_eq_div_pow]
  refine lt_of_le_of_lt (Nat.mod_le _ _) (Nat.div_lt_of_lt_mul ?_)
  rw [← pow_add, show 64 - w + w = 64 by omega]
  exact bb.buf.isLt

/-- The payload `DEC.record` reads has the width of its class (R104). -/
theorem BB.record_payload_lt {bb b : BB} {src : Nat → Option Word} {wc : Count} {t : BitVec 2} {p : Word}
    (h : bb.record src wc = .value t p b) : p.toNat < 2 ^ (WClass.ofTag t).width := by
  unfold BB.record at h
  cases h0 : bb.need src wc Config.tagBits with
  | underrun _ => simp [h0] at h
  | noWord _ => simp [h0] at h
  | ok b0 =>
    simp only [h0] at h
    unfold BB.payload at h
    cases h1 : (b0.consume Config.tagBits).need src wc
        (WClass.ofTag ((b0.peek Config.tagBits).setWidth 2)).width with
    | underrun _ => simp [h1] at h
    | noWord _ => simp [h1] at h
    | ok b1 =>
      simp only [h1, RecordRead.value.injEq] at h
      obtain ⟨rfl, rfl, rfl⟩ := h
      exact BB.peek_toNat_lt _ _ (WClass.width_le _)

/-- The instruction of a record that was read runs the record step with the payload read (R104). -/
theorem exec_recordInstr {t : BitVec 2} {p : Word} (h : p.toNat < 2 ^ (WClass.ofTag t).width) (s : State) :
    exec (recordInstr t p) s = s.recordStep (WClass.ofTag t) p := by
  unfold recordInstr
  cases hc : WClass.ofTag t <;> rw [hc] at h <;> simp only [exec, execRecC0, execRecC1, execRecC2, execRecC3]
  all_goals
    congr 1
    apply BitVec.eq_of_toNat_eq
    simp only [BitVec.toNat_setWidth, WClass.width] at *
    rw [Nat.mod_eq_of_lt h, Nat.mod_eq_of_lt]
    omega

theorem Dec.windowFill_of_batch {x : Dec} {d : DecId} (src : Nat → Option Word) (h : x.batchMode d = true) :
    x.windowFill d src = x.bb.need src x.wordCount Config.windowBits := if_pos h

theorem Dec.windowFill_of_not_batch {x : Dec} {d : DecId} (src : Nat → Option Word) (h : x.batchMode d = false) :
    x.windowFill d src = .ok x.bb := by
  unfold Dec.windowFill; simp [h]

theorem Dec.batchMode_sdec (x : Dec) : x.batchMode .sdec = false := by simp [Dec.batchMode]

theorem Dec.batchMode_bdec (x : Dec) : x.batchMode .bdec = !x.tail := by simp [Dec.batchMode]

/-- The step that runs a record found behind the window fill: `DEC.record`'s value stored, its bit buffer kept. -/
theorem exec_record_found {s : State} {b b' : BB} {t : BitVec 2} {p : Word} (hen : (s.dec s.actor).enabled = true)
    (hw : (s.dec s.actor).windowFill s.actor (s.wordAt s.actor) = .ok b)
    (h : b.record (s.wordAt s.actor) (s.dec s.actor).wordCount = .value t p b') :
    exec (recordInstr t p) s = .next (s.setDec s.actor ((s.dec s.actor).storeValue b' p)) := by
  rw [exec_recordInstr (BB.record_payload_lt h), State.recordStep_of_enabled _ _ hen]
  unfold State.recordPull
  rw [hw, Pull.ok_andThen, BB.record_value h]
  rfl

/-- How a step of decoder `d` leaves its registers. -/
inductive StepEnd (s : State) (d : DecId) : Dec → Prop
  /-- A record was read behind the window fill (R172, R199, R211): its value stored. -/
  | record (b b' : BB) (t : BitVec 2) (p : Word) (hw : (s.dec d).windowFill d (s.wordAt d) = .ok b)
      (hk : (s.dec d).batchMode d = true → kselect (matchMask (b.peek Config.windowBits)) = none)
      (h : b.record (s.wordAt d) (s.dec d).wordCount = .value t p b') : StepEnd s d ((s.dec d).storeValue b' p)
  /-- An entry matched the window (R192 2d): its lanes stored. -/
  | lanes (b : BB) (k : Nat) (hb : (s.dec d).batchMode d = true)
      (hw : (s.dec d).windowFill d (s.wordAt d) = .ok b)
      (hk : kselect (matchMask (b.peek Config.windowBits)) = some k) :
      StepEnd s d ((s.dec d).storeLanes (patTable.getD k pt0) b
        (extractLanes (patTable.getD k pt0) (b.peek Config.windowBits)))
  /-- The window fill raised (R194). -/
  | windowUnderrun (b : BB) (hw : (s.dec d).windowFill d (s.wordAt d) = .underrun b) :
      StepEnd s d ({ s.dec d with bb := b }).raiseUnderrun
  /-- `DEC.record` raised (R252). -/
  | recordUnderrun (b b' : BB) (hw : (s.dec d).windowFill d (s.wordAt d) = .ok b)
      (h : b.record (s.wordAt d) (s.dec d).wordCount = .underrun b') :
      StepEnd s d ({ s.dec d with bb := b' }).raiseUnderrun

theorem patInstr_isSome {k : Nat} (h : k < 16) (win : Word) : ∃ i, patInstr k win = some i := by
  interval_cases k <;> exact ⟨_, rfl⟩

/-- What a decoder finds as a record it reads by `DEC.record` (R179). -/
theorem BB.fetchRecord_eq (bb : BB) (src : Nat → Option Word) (wc : Count) :
    (∃ t p b, bb.record src wc = .value t p b ∧ bb.fetchRecord src wc = .instr (recordInstr t p)) ∨
      (∃ b, bb.record src wc = .underrun b ∧ bb.fetchRecord src wc = .underrun b) ∨
      ∃ i, bb.record src wc = .noWord i ∧ bb.fetchRecord src wc = .noWord i := by
  unfold BB.fetchRecord
  cases h : bb.record src wc with
  | value t p b => exact .inl ⟨t, p, b, rfl, rfl⟩
  | underrun b => exact .inr (.inl ⟨b, rfl, rfl⟩)
  | noWord i => exact .inr (.inr ⟨i, rfl, rfl⟩)

/-- Everything an enabled decoder's step can do when it answers a next state: its own registers end in one of the four
ways, and nothing else changes but `actor` (log 3). -/
theorem State.decoderStep_next {s t : State} {d : DecId} (hen : (s.dec d).enabled = true)
    (h : s.decoderStep d = .next t) : ∃ x, StepEnd s d x ∧ t = ({ s with actor := d }).setDec d x := by
  unfold State.decoderStep State.fetch at h
  have hen' : (({ s with actor := d } : State).dec d).enabled = true := by simpa using hen
  cases hw : (s.dec d).windowFill d (s.wordAt d) with
  | underrun b =>
    have hb := (Dec.windowFill_underrun hw).2.1
    simp only [hb, if_true, hw] at h
    injection h with h
    exact ⟨_, .windowUnderrun b hw, by rw [← h]; simp [State.takeUnderrun]⟩
  | noWord i =>
    have hb : (s.dec d).batchMode d = true := by
      by_contra hb
      rw [Dec.windowFill_of_not_batch _ (by simpa using hb)] at hw
      cases hw
    simp only [hb, if_true, hw] at h
    cases h
  | ok b =>
    have hrec : (hk : (s.dec d).batchMode d = true → kselect (matchMask (b.peek Config.windowBits)) = none) →
        (match b.fetchRecord (s.wordAt d) (s.dec d).wordCount with
          | .instr i => exec i { s with actor := d }
          | .underrun bb => .next (({ s with actor := d }).takeUnderrun d bb)
          | .noWord i => .fault (.noWordToPull d i)) = Host.Outcome.next t →
        ∃ x, StepEnd s d x ∧ t = ({ s with actor := d }).setDec d x := by
      intro hk h
      rcases BB.fetchRecord_eq b (s.wordAt d) (s.dec d).wordCount with ⟨tg, p, b', hr, hf⟩ | ⟨b', hr, hf⟩ | ⟨i, hr, hf⟩
      · rw [hf] at h
        have := exec_record_found (s := { s with actor := d }) (b := b) (b' := b') (t := tg) (p := p) hen'
          (by simpa using hw) (by simpa using hr)
        simp only [this] at h
        injection h with h
        exact ⟨_, .record b b' tg p hw hk hr, by rw [← h]; simp⟩
      · rw [hf] at h
        injection h with h
        exact ⟨_, .recordUnderrun b b' hw hr, by rw [← h]; simp [State.takeUnderrun]⟩
      · rw [hf] at h
        cases h
    cases hb : (s.dec d).batchMode d with
    | false =>
      simp only [hb, Bool.false_eq_true, if_false] at h
      rw [Dec.windowFill_of_not_batch _ hb] at hw
      cases hw
      exact hrec (by simp [hb]) h
    | true =>
      simp only [hb, if_true, hw] at h
      cases hk : kselect (matchMask (b.peek Config.windowBits)) with
      | none =>
        simp only [decodeWindow, hk, Option.bind_none] at h
        exact hrec (fun _ => hk) h
      | some k =>
        obtain ⟨hk16, hm⟩ := match_of_kselect hk
        obtain ⟨i, hi⟩ := patInstr_isSome hk16 (b.peek Config.windowBits)
        have hd : d = .bdec := by cases d <;> simp [Dec.batchMode] at hb ⊢
        subst hd
        have hw' : ({ s with actor := DecId.bdec } : State).bdec.windowFill .bdec
            (({ s with actor := DecId.bdec } : State).wordAt .bdec) = .ok b := hw
        have := (exec_patInstr hk16 hi hm { s with actor := .bdec }).trans
          (State.matchedStep_of_batch (s := { s with actor := .bdec }) _ _ hen hb)
        rw [hw', State.settle_ok] at this
        simp only [decodeWindow, hk, Option.bind_some, hi, this] at h
        injection h with h
        exact ⟨_, .lanes b k hb hw hk, h.symm⟩

end Sys2Proof.Machine
end

