-- ==== Sys2Proof/Laws/Encoder.lean ====
section
/-! SUPPORT. What ENC's primitives can do (R123 to R128), said once: the pending bits, the words emitted, the bits appended
so far. -/

namespace Sys2Proof.Machine

/-! ## Bounds -/

theorem toNat_lt_of_bits {n w : Nat} {x : BitVec w} (h : ∀ i, n ≤ i → x.getLsbD i = false) : x.toNat < 2 ^ n :=
  Nat.lt_pow_two_of_testBit _ h

theorem getLsbD_of_toNat_lt {n w : Nat} {x : BitVec w} (h : x.toNat < 2 ^ n) {i : Nat} (hi : n ≤ i) :
    x.getLsbD i = false :=
  Nat.testBit_lt_two_pow (lt_of_lt_of_le h (Nat.pow_le_pow_right (by decide) hi))

theorem mask64_getLsbD (n i : Nat) : (mask64 n).getLsbD i = (decide (i < n) && decide (i < 64)) := by
  simp [mask64, BitVec.getLsbD_ofNat, Nat.testBit_two_pow_sub_one, Bool.and_comm]

/-- ENC's pending bits are all of `ACC` (R22). -/
def Enc.Tight (e : Enc) : Prop := e.acc.toNat < 2 ^ e.nbits.toNat

theorem Enc.append_nbits_toNat (e : Enc) (b : Buffer) {k : Nat} (hk : e.nbits.toNat + k < 64) :
    (e.append b k).nbits.toNat = e.nbits.toNat + k := by
  simp only [Enc.append_nbits, BitVec.toNat_add, BitVec.toNat_ofNat]; omega

/-- `ENC.append(b, k)` (R124): the pending bits, then the `k` bits of `b`. -/
theorem Enc.append_acc_bit (e : Enc) {b : Buffer} {k : Nat} (hb : b.toNat < 2 ^ k) {i : Nat} (hi : i < 64) :
    (e.append b k).acc.getLsbD i = if i < k then b.getLsbD i else e.acc.getLsbD (i - k) := by
  rw [Enc.append_acc, BitVec.getLsbD_or, BitVec.getLsbD_shiftLeft]
  split_ifs with h
  · simp [h]
  · rw [getLsbD_of_toNat_lt hb (show k ≤ i by omega)]
    simp [h, hi]

theorem Enc.append_tight {e : Enc} {b : Buffer} {k : Nat} (he : e.Tight) (hk : e.nbits.toNat + k < 64)
    (hb : b.toNat < 2 ^ k) : (e.append b k).Tight := by
  unfold Enc.Tight
  rw [e.append_nbits_toNat b hk]
  refine toNat_lt_of_bits fun i hi => ?_
  by_cases h64 : i < 64
  · rw [e.append_acc_bit hb h64, if_neg (by omega)]
    exact getLsbD_of_toNat_lt he (by omega)
  · exact BitVec.getLsbD_of_ge _ _ (by omega)

theorem Enc.emitted_nbits_toNat (e : Enc) (h : 32 ≤ e.nbits.toNat) : e.emitted.nbits.toNat = e.nbits.toNat - 32 := by
  rw [Enc.emitted_nbits, BitVec.toNat_sub_of_le (by simpa [BitVec.le_def] using h)]
  rfl

theorem Enc.emitted_acc_bit (e : Enc) (h : 32 ≤ e.nbits.toNat) (i : Nat) :
    e.emitted.acc.getLsbD i = (decide (i < e.nbits.toNat - 32) && e.acc.getLsbD i) := by
  have := e.nbits.isLt
  rw [Enc.emitted_acc, BitVec.getLsbD_and, mask64_getLsbD, Bool.and_comm]
  by_cases hi : i < e.nbits.toNat - 32
  · simp [hi, show i < 64 by omega]
  · simp [hi]

theorem Enc.emitted_tight (e : Enc) (h : 32 ≤ e.nbits.toNat) : e.emitted.Tight := by
  unfold Enc.Tight
  rw [e.emitted_nbits_toNat h]
  refine toNat_lt_of_bits fun i hi => ?_
  rw [e.emitted_acc_bit h]
  simp [show ¬ i < e.nbits.toNat - 32 by omega]

theorem Enc.topWord_bit (e : Enc) {i : Nat} (hi : i < 32) :
    e.topWord.getLsbD i = e.acc.getLsbD (e.nbits.toNat - 32 + i) := by
  unfold Enc.topWord
  simp [hi]

/-! ## The words of an unfinished encode (log 23) -/

theorem mem_markIndex (l : List Nat) (i j : Nat) : j ∈ markIndex l i ↔ j = i ∨ j ∈ l := by
  induction l with
  | nil => simp [markIndex]
  | cons k ks ih =>
    unfold markIndex
    split_ifs with h1 h2
    · simp
    · subst h2; simp
    · simp only [List.mem_cons, ih]; tauto

theorem mem_unmarkIndex (l : List Nat) (i j : Nat) : j ∈ unmarkIndex l i ↔ j ∈ l ∧ j ≠ i ∧ i ≠ 0 := by
  unfold unmarkIndex
  split_ifs with h <;> simp [h]

theorem unmarkIndex_sorted {l : List Nat} (i : Nat) (h : l.Pairwise (· < ·)) : (unmarkIndex l i).Pairwise (· < ·) := by
  unfold unmarkIndex
  split_ifs
  · exact .nil
  · exact h.filter _

theorem markIndex_sorted {l : List Nat} (i : Nat) (h : l.Pairwise (· < ·)) : (markIndex l i).Pairwise (· < ·) := by
  induction l with
  | nil => simp [markIndex]
  | cons k ks ih =>
    obtain ⟨hk, hs⟩ := List.pairwise_cons.1 h
    unfold markIndex
    split_ifs with h1 h2
    · exact List.pairwise_cons.2 ⟨fun j hj => by
        rcases List.mem_cons.1 hj with rfl | hj
        · exact h1
        · exact h1.trans (hk j hj), h⟩
    · exact h
    · exact List.pairwise_cons.2 ⟨fun j hj => by
        rcases (mem_markIndex ks i j).1 hj with rfl | hj
        · omega
        · exact hk j hj, ih hs⟩

theorem State.encOwns_eq_false (s : State) (wc : Count) :
    s.encOwns wc = false ↔ (s.enc.state = .busy → wc.toNat = 0) := by
  unfold State.encOwns
  cases s.enc.state <;> simp

/-- With ENC in `DONE` every word is found as it stands, and ENC owns none (R74, R255, R285 item 1). -/
theorem State.completeArtifact_words (s : State) (e : Enc) (i : Nat) : (s.completeArtifact e).words i = s.held i :=
  State.words_of_finished (s := s.completeArtifact e) (by simp)

theorem State.completeArtifact_encOwns (s : State) (e : Enc) (wc : Count) :
    (s.completeArtifact e).encOwns wc = false := rfl

/-- ENC's writes and completions leave what a claimed run finds at a word as it was, where the word and its mark are. -/
theorem State.words_congr {s t : State} {i : Nat} (hr : t.wmem.read i = s.wmem.read i)
    (hm : i ∈ t.unfinished ↔ i ∈ s.unfinished) : t.words i = s.words i := by
  unfold State.words State.held
  simp only [hr, hm]

/-- What a word write of ENC does where it goes through (R70). -/
theorem State.encWrite_some {s t : State} {v : Word} (h : s.encWrite v = some t) :
    ∃ u, s.writeWmem s.enc.wcount.toNat v = some u ∧
      t = { u with unfinished := markIndex s.unfinished s.enc.wcount.toNat } := by
  unfold State.encWrite at h
  rw [Option.map_eq_some_iff] at h
  obtain ⟨u, hu, rfl⟩ := h
  exact ⟨u, hu, by rw [State.writeWmem_unfinished hu]⟩

/-! ## The flush -/

/-- What a flush can do (R125): nothing, or one word emitted at `WCOUNT`. -/
theorem State.encFlush_some {s t : State} (h : s.encFlush = some t) :
    (s.enc.nbits.toNat < 32 ∧ t = s) ∨
      (32 ≤ s.enc.nbits.toNat ∧ ∃ u, s.writeWmem s.enc.wcount.toNat s.enc.topWord = some u ∧
        t = { u with enc := s.enc.emitted, unfinished := markIndex s.unfinished s.enc.wcount.toNat }) := by
  unfold State.encFlush at h
  split_ifs at h with hn
  · rw [Option.map_eq_some_iff] at h
    obtain ⟨u, hu, rfl⟩ := h
    obtain ⟨w, hw, rfl⟩ := State.encWrite_some hu
    refine .inr ⟨hn, w, hw, ?_⟩
    rw [(State.writeWmem_some hw).2.2.1]
  · exact .inl ⟨by omega, (Option.some.inj h).symm⟩

/-- What an ENC operation leaves of everything but ENC's registers: `WMEM` changes only at the words from the old to below
the new `WCOUNT`, a decoder only in the note a write leaves it (log 8). -/
structure EncFrame (s t : State) : Prop where
  cap : t.wmemCap = s.wmemCap
  inputs : t.inputs = s.inputs
  actor : t.actor = s.actor
  dec : ∀ d, t.dec d = { s.dec d with taint := (t.dec d).taint }
  idle : ∀ d, (s.dec d).state ≠ .run → t.dec d = s.dec d
  wf : s.wmem.wf = true → t.wmem.wf = true
  within : s.wmem.within s.wmemCap = true → t.wmem.within s.wmemCap = true
  sorted : s.unfinished.Pairwise (· < ·) → t.unfinished.Pairwise (· < ·)
  words : ∀ d, (t.dec d).taint = none → (s.dec d).state = .run →
    (s.dec d).taint = none ∧ ∀ i, i < (s.dec d).wordCount.toNat → t.wmem.read i = s.wmem.read i

theorem EncFrame.refl (s : State) : EncFrame s s :=
  ⟨rfl, rfl, rfl, fun _ => rfl, fun _ _ => rfl, id, id, id, fun _ h _ => ⟨h, fun _ _ => rfl⟩⟩

theorem EncFrame.trans {s t u : State} (h : EncFrame s t) (k : EncFrame t u) : EncFrame s u where
  cap := k.cap.trans h.cap
  inputs := k.inputs.trans h.inputs
  actor := k.actor.trans h.actor
  dec d := by rw [k.dec d, h.dec d]
  idle d hd := by
    have e := h.idle d hd
    rw [k.idle d (by rw [e]; exact hd), e]
  wf hw := k.wf (h.wf hw)
  within hw := by rw [← h.cap]; exact k.within (by rw [h.cap]; exact h.within hw)
  sorted hs := k.sorted (h.sorted hs)
  words d ht hr := by
    have e := h.dec d
    have hr' : (t.dec d).state = .run := by rw [e]; exact hr
    have hwc : (t.dec d).wordCount = (s.dec d).wordCount := by rw [e]
    obtain ⟨k1, k2⟩ := k.words d ht hr'
    obtain ⟨h1, h2⟩ := h.words d k1 hr
    exact ⟨h1, fun i hi => by rw [k2 i (by rw [hwc]; exact hi), h2 i hi]⟩

/-- A change of ENC's registers alone. -/
theorem EncFrame.withEnc {s t : State} (h : EncFrame s t) (e : Enc) : EncFrame s { t with enc := e } :=
  ⟨h.cap, h.inputs, h.actor, h.dec, h.idle, h.wf, h.within, h.sorted, h.words⟩

/-- A change of the list of unfinished words alone. -/
theorem EncFrame.withUnfinished {s t : State} (h : EncFrame s t) (l : List Nat)
    (hl : s.unfinished.Pairwise (· < ·) → l.Pairwise (· < ·)) : EncFrame s { t with unfinished := l } :=
  ⟨h.cap, h.inputs, h.actor, h.dec, h.idle, h.wf, h.within, hl, h.words⟩

theorem Dec.noteFinish_of_idle {x : Dec} (l : List Nat) (n : Nat) (h : x.state ≠ .run) : x.noteFinish l n = x := by
  unfold Dec.noteFinish Dec.readsWord; simp [h]

theorem Dec.noteFinish_taint_none {x : Dec} {l : List Nat} {n : Nat} (h : (x.noteFinish l n).taint = none)
    (hr : x.state = .run) : x.taint = none ∧ ∀ i ∈ l, x.wordCount.toNat ≤ i := by
  unfold Dec.noteFinish at h
  split_ifs at h with hl
  refine ⟨h, fun i hi => ?_⟩
  simp [Dec.readsWord, hr] at hl
  exact hl i hi

/-- `ENC.STATE <- DONE` (R128): a decoder may only get the note that words it reads ceased to be unfinished. -/
theorem State.completeArtifact_dec (s : State) (e : Enc) (d : DecId) :
    ∃ n, (s.completeArtifact e).dec d = (s.dec d).noteFinish s.unfinished n := by
  cases d <;> exact ⟨_, rfl⟩

theorem State.completeArtifact_frame (s : State) (e : Enc) : EncFrame s (s.completeArtifact e) := by
  refine ⟨rfl, rfl, rfl, fun d => ?_, fun d hd => ?_, id, id, fun _ => .nil, fun d ht hr => ?_⟩ <;>
    obtain ⟨n, hn⟩ := s.completeArtifact_dec e d
  · rw [hn]; unfold Dec.noteFinish; split <;> rfl
  · rw [hn, Dec.noteFinish_of_idle _ _ hd]
  · rw [hn] at ht
    exact ⟨(Dec.noteFinish_taint_none ht hr).1, fun _ _ => rfl⟩

theorem EncFrame.complete {s t : State} (h : EncFrame s t) (e : Enc) : EncFrame s (t.completeArtifact e) :=
  h.trans (t.completeArtifact_frame e)

theorem Dec.noteWrite_of_idle {x : Dec} (i n : Nat) (h : x.state ≠ .run) : x.noteWrite i n = x := by
  unfold Dec.noteWrite Dec.readsWord; simp [h]

theorem Dec.noteWrite_taint_none {x : Dec} {i n : Nat} (h : (x.noteWrite i n).taint = none) (hr : x.state = .run) :
    x.taint = none ∧ x.wordCount.toNat ≤ i := by
  unfold Dec.noteWrite Dec.readsWord at h
  by_cases hi : i < x.wordCount.toNat
  · simp [hr, hi] at h
  · simp [hi] at h
    exact ⟨h, by omega⟩

/-- A word write leaves everything but the word and the notes (R66, R70). -/
theorem State.writeWmem_frame {s t : State} {i : Nat} {v : Word} (h : s.writeWmem i v = some t) : EncFrame s t := by
  obtain ⟨h1, h2, h3, h4, h5, h6, h7, h8⟩ := State.writeWmem_some h
  refine ⟨h4, h5, h6, ?_, ?_, fun hw => ?_, fun hw => ?_, fun hs => by rw [State.writeWmem_unfinished h]; exact hs, ?_⟩
  · intro d; cases d <;> simp only [State.dec_sdec, State.dec_bdec, h7, h8] <;>
      (unfold Dec.noteWrite; split_ifs <;> rfl)
  · intro d hd
    cases d
    · simp only [State.dec_sdec] at *; rw [h7, Dec.noteWrite_of_idle _ _ hd]
    · simp only [State.dec_bdec] at *; rw [h8, Dec.noteWrite_of_idle _ _ hd]
  · rw [h2]; exact Mem.wf_write _ _ _ hw
  · rw [h2]; exact Mem.within_write _ _ h1 hw
  · intro d ht hr
    have key : (s.dec d).taint = none ∧ (s.dec d).wordCount.toNat ≤ i := by
      cases d
      · simp only [State.dec_sdec] at *; rw [h7] at ht; exact Dec.noteWrite_taint_none ht hr
      · simp only [State.dec_bdec] at *; rw [h8] at ht; exact Dec.noteWrite_taint_none ht hr
    exact ⟨key.1, fun j hj => by rw [h2, Mem.read_write_other _ _ (by omega)]⟩

/-- A claimed run reads no word that is written (R78). -/
theorem State.writeWmem_claimed {s t : State} {i : Nat} {v : Word} (h : s.writeWmem i v = some t) {d : DecId}
    (ht : (t.dec d).taint = none) (hr : (s.dec d).state = .run) : (s.dec d).wordCount.toNat ≤ i := by
  obtain ⟨-, -, -, -, -, -, h7, h8⟩ := State.writeWmem_some h
  cases d
  · simp only [State.dec_sdec] at *; rw [h7] at ht; exact (Dec.noteWrite_taint_none ht hr).2
  · simp only [State.dec_bdec] at *; rw [h8] at ht; exact (Dec.noteWrite_taint_none ht hr).2

theorem State.encAppend_frame (s : State) (b : Buffer) (k : Nat) : EncFrame s (s.encAppend b k) :=
  (EncFrame.refl s).withEnc _

theorem State.encFlush_frame {s t : State} (h : s.encFlush = some t) : EncFrame s t := by
  rcases State.encFlush_some h with ⟨-, rfl⟩ | ⟨-, u, hu, rfl⟩
  · exact EncFrame.refl _
  · exact ((State.writeWmem_frame hu).withEnc _).withUnfinished _ (markIndex_sorted _)

/-- What ENC's word writes leave of a run of whose words a claim is made: which of its words are unfinished is as before,
and if `WCOUNT` moved the run reads no word from the old `WCOUNT` on (R78, R289). -/
def ClaimKept (s t : State) : Prop :=
  ∀ d, (t.dec d).taint = none → (s.dec d).state = .run →
    (∀ i, i < (s.dec d).wordCount.toNat → (i ∈ t.unfinished ↔ i ∈ s.unfinished)) ∧
      (t.enc.wcount = s.enc.wcount ∨ (s.dec d).wordCount.toNat ≤ s.enc.wcount.toNat)

theorem ClaimKept.trans {s t u : State} (hf : EncFrame s t) (kf : EncFrame t u) (h : ClaimKept s t) (k : ClaimKept t u) :
    ClaimKept s u := by
  intro d ht hr
  have e := hf.dec d
  have hr' : (t.dec d).state = .run := by rw [e]; exact hr
  have hw : (t.dec d).wordCount = (s.dec d).wordCount := by rw [e]
  obtain ⟨h1, h2⟩ := h d (kf.words d ht hr').1 hr
  obtain ⟨k1, k2⟩ := k d ht hr'
  rw [hw] at k1 k2
  refine ⟨fun i hi => (k1 i hi).trans (h1 i hi), ?_⟩
  rcases h2 with h2 | h2
  · rw [h2] at k2; exact k2
  · exact .inr h2

theorem State.encFlush_claim {s t : State} (h : s.encFlush = some t) : ClaimKept s t := by
  intro d ht hr
  rcases State.encFlush_some h with ⟨-, rfl⟩ | ⟨-, u, hu, rfl⟩
  · exact ⟨fun _ _ => Iff.rfl, .inl rfl⟩
  · have hw := State.writeWmem_claimed hu (d := d) (by cases d <;> exact ht) hr
    refine ⟨fun i hi => ?_, .inr hw⟩
    rw [mem_markIndex]
    exact ⟨fun h => h.resolve_left (by omega), .inr⟩

/-! ## Append, then flush -/

/-- What `ENC.append(b, k); ENC.flush()` can do to ENC and `WMEM` (R124, R125), for `NBITS ≤ 31` and `k ≤ 32`: at most one
word is emitted, `NBITS ≤ 31` again (R136), the counters and the state stay. -/
theorem State.appendFlush_some {s t : State} {b : Buffer} {k : Nat} (he : s.enc.Tight) (hn : s.enc.nbits.toNat ≤ 31)
    (hk : k ≤ 32) (hb : b.toNat < 2 ^ k) (h : (s.encAppend b k).encFlush = some t) :
    t.enc.Tight ∧ t.enc.nbits.toNat ≤ 31 ∧ t.enc.bitCount = s.enc.bitCount ∧ t.enc.valueCount = s.enc.valueCount ∧
      t.enc.state = s.enc.state ∧ t.enc.stuck = s.enc.stuck ∧
      ((s.enc.nbits.toNat + k < 32 ∧ t.enc.wcount = s.enc.wcount ∧ t.enc.nbits.toNat = s.enc.nbits.toNat + k ∧
          t.wmem = s.wmem ∧ t.enc.acc = (s.enc.append b k).acc) ∨
        (32 ≤ s.enc.nbits.toNat + k ∧ t.enc.wcount = s.enc.wcount + 1 ∧
          t.enc.nbits.toNat = s.enc.nbits.toNat + k - 32 ∧ s.enc.wcount.toNat < s.wmemCap ∧
          t.wmem = s.wmem.write s.enc.wcount.toNat (s.enc.append b k).topWord ∧
          t.enc.acc = (s.enc.append b k).emitted.acc)) := by
  have hn2 := s.enc.append_nbits_toNat b (k := k) (by omega)
  have ht := Enc.append_tight (b := b) (k := k) he (by omega) hb
  rcases State.encFlush_some h with ⟨h1, rfl⟩ | ⟨h1, u, hu, rfl⟩
  · rw [State.encAppend_enc, hn2] at h1
    refine ⟨ht, by rw [State.encAppend_enc, hn2]; omega, rfl, rfl, rfl, rfl, .inl ⟨h1, rfl, hn2, rfl, rfl⟩⟩
  · rw [State.encAppend_enc] at h1 hu
    obtain ⟨g1, g2, -⟩ := State.writeWmem_some hu
    have h1' := h1
    rw [hn2] at h1'
    have hne := Enc.emitted_nbits_toNat _ h1
    refine ⟨Enc.emitted_tight _ h1, ?_, rfl, rfl, rfl, rfl, .inr ⟨h1', rfl, ?_, g1, g2, rfl⟩⟩
    · show (s.enc.append b k).emitted.nbits.toNat ≤ 31
      rw [hne, hn2]; omega
    · show (s.enc.append b k).emitted.nbits.toNat = _
      rw [hne, hn2]

/-- `ENC.append(b, k); ENC.flush()` goes through where the word it may emit exists (R69). -/
theorem State.appendFlush_isSome {s : State} {b : Buffer} {k : Nat} (hn : s.enc.nbits.toNat ≤ 31) (hk : k ≤ 32)
    (hc : 32 ≤ s.enc.nbits.toNat + k → s.enc.wcount.toNat < s.wmemCap) : ∃ t, (s.encAppend b k).encFlush = some t := by
  have hn2 := s.enc.append_nbits_toNat b (k := k) (by omega)
  unfold State.encFlush
  rw [State.encAppend_enc]
  split_ifs with h
  · rw [hn2] at h
    obtain ⟨u, hu⟩ := State.writeWmem_isSome (s := s.encAppend b k) (i := s.enc.wcount.toNat)
      (s.enc.append b k).topWord (hc h)
    exact ⟨_, by unfold State.encWrite; rw [State.encAppend_enc, Enc.append_wcount, hu]; rfl⟩
  · exact ⟨_, rfl⟩

/-- It stops exactly where that word does not exist (R69). -/
theorem State.appendFlush_none {s : State} {b : Buffer} {k : Nat} (hn : s.enc.nbits.toNat ≤ 31) (hk : k ≤ 32)
    (h : (s.encAppend b k).encFlush = none) : 32 ≤ s.enc.nbits.toNat + k ∧ s.wmemCap ≤ s.enc.wcount.toNat := by
  by_contra hc
  obtain ⟨t, ht⟩ := State.appendFlush_isSome (b := b) hn hk (by omega)
  rw [ht] at h
  cases h

/-- The bits appended so far grow by the `k` bits of `b`, most significant first (R124, R125, R134). -/
theorem State.appendFlush_bits {s t : State} {b : Buffer} {k : Nat} (he : s.enc.Tight) (hn : s.enc.nbits.toNat ≤ 31)
    (hk : k ≤ 32) (hb : b.toNat < 2 ^ k) (hw : s.enc.wcount.toNat + 1 < 2 ^ 64 ∨ s.enc.nbits.toNat + k < 32)
    (h : (s.encAppend b k).encFlush = some t) :
    t.enc.bitsAppended = s.enc.bitsAppended + k ∧
      (∀ i, i < s.enc.bitsAppended → t.appendedBit i = s.appendedBit i) ∧
      ∀ i, i < k → t.appendedBit (s.enc.bitsAppended + i) = b.getLsbD (k - 1 - i) := by
  obtain ⟨-, -, -, -, -, -, hc⟩ := State.appendFlush_some he hn hk hb h
  unfold Enc.bitsAppended
  rcases hc with ⟨c1, c2, c3, c4, c5⟩ | ⟨c1, c2, c3, -, c5, c6⟩
  · have hwords : t.held = s.held := by funext i; unfold State.held; rw [c4]
    refine ⟨by rw [c2, c3]; omega, fun i hi => ?_, fun i hi => ?_⟩
    · unfold State.appendedBit
      rw [c2, c3, hwords, c5]
      split_ifs with h1
      · rfl
      · rw [s.enc.append_acc_bit hb (by omega), if_neg (by omega)]
        congr 1; omega
    · unfold State.appendedBit
      rw [c2, c3, c5, if_neg (by omega), s.enc.append_acc_bit hb (by omega), if_pos (by omega)]
      congr 1; omega
  · have hw64 : s.enc.wcount.toNat + 1 < 2 ^ 64 := by omega
    have hwc : t.enc.wcount.toNat = s.enc.wcount.toNat + 1 := by
      rw [c2, BitVec.toNat_add]; simp; omega
    have hn2 := s.enc.append_nbits_toNat b (k := k) (by omega)
    have hold : ∀ i, i < 32 * s.enc.wcount.toNat → streamBit t.held i = streamBit s.held i := by
      intro i hi
      unfold streamBit State.held
      rw [c5, Mem.read_write_other _ _ (by omega)]
    have hnew : ∀ i, 32 * s.enc.wcount.toNat ≤ i → i < 32 * (s.enc.wcount.toNat + 1) →
        streamBit t.held i =
          (s.enc.append b k).acc.getLsbD (s.enc.nbits.toNat + k - 1 - (i - 32 * s.enc.wcount.toNat)) := by
      intro i h1 h2
      have e : i / 32 = s.enc.wcount.toNat := by omega
      unfold streamBit State.held
      rw [e, c5, Mem.read_write_same, Option.getD_some, Enc.topWord_bit _ (by omega), hn2]
      congr 1; omega
    have hpend : ∀ j, j < t.enc.nbits.toNat → t.enc.acc.getLsbD j = (s.enc.append b k).acc.getLsbD j := by
      intro j hj
      rw [c6, Enc.emitted_acc_bit _ (by rw [hn2]; omega), hn2]
      simp [show j < s.enc.nbits.toNat + k - 32 by omega]
    have hall : ∀ i, 32 * s.enc.wcount.toNat ≤ i → i < 32 * s.enc.wcount.toNat + s.enc.nbits.toNat + k →
        t.appendedBit i =
          (s.enc.append b k).acc.getLsbD (s.enc.nbits.toNat + k - 1 - (i - 32 * s.enc.wcount.toNat)) := by
      intro i h1 h2
      unfold State.appendedBit
      rw [hwc]
      split_ifs with h3
      · exact hnew i h1 h3
      · rw [hpend _ (by omega), c3]
        congr 1; omega
    refine ⟨by rw [hwc, c3]; omega, fun i hi => ?_, fun i hi => ?_⟩
    · by_cases h1 : i < 32 * s.enc.wcount.toNat
      · unfold State.appendedBit
        rw [if_pos (by omega), if_pos h1, hold i h1]
      · rw [hall i (by omega) (by omega)]
        unfold State.appendedBit
        rw [if_neg h1, s.enc.append_acc_bit hb (by omega), if_neg (by omega)]
        congr 1; omega
    · rw [hall _ (by omega) (by omega), s.enc.append_acc_bit hb (by omega), if_pos (by omega)]
      congr 1; omega

/-! ## The push -/

theorem payloadOf_toNat_lt (v : Word) (w : Nat) : (payloadOf v w).toNat < 2 ^ w := by
  refine toNat_lt_of_bits fun i hi => ?_
  unfold payloadOf
  rw [BitVec.getLsbD_and, maskBits_getLsbD]
  simp [show ¬ i < w by omega]

theorem tag_toNat_lt (c : WClass) : (c.tag.setWidth 64).toNat < 2 ^ Config.tagBits := by cases c <;> decide

theorem payload64_toNat (v : Word) (w : Nat) : ((payloadOf v w).setWidth 64).toNat = (payloadOf v w).toNat := by
  rw [BitVec.toNat_setWidth]
  have := (payloadOf v w).isLt
  omega

/-- A push is two appends with their flushes, then the counters (R123, R126). -/
theorem State.pushValue_some {s t : State} {v : Word} (h : s.pushValue v = some t) :
    ∃ u w, (s.encAppend ((classOf v).tag.setWidth 64) Config.tagBits).encFlush = some u ∧
      (u.encAppend ((payloadOf v (classOf v).width).setWidth 64) (classOf v).width).encFlush = some w ∧
      t = { w with enc := w.enc.count (classOf v) } := by
  unfold State.pushValue at h
  simp only [Option.bind_eq_some_iff, Option.map_eq_some_iff] at h
  obtain ⟨u, hu, w, hw, rfl⟩ := h
  exact ⟨u, w, hu, hw, rfl⟩

theorem State.pushValue_frame {s t : State} {v : Word} (h : s.pushValue v = some t) : EncFrame s t := by
  obtain ⟨u, w, hu, hw, rfl⟩ := State.pushValue_some h
  exact (((State.encAppend_frame s _ _).trans (State.encFlush_frame hu)).trans
    ((State.encAppend_frame u _ _).trans (State.encFlush_frame hw))).withEnc _

theorem State.pushValue_claim {s t : State} {v : Word} (h : s.pushValue v = some t) : ClaimKept s t := by
  obtain ⟨u, w, hu, hw, rfl⟩ := State.pushValue_some h
  have h1 : ClaimKept s u := State.encFlush_claim (s := s.encAppend _ _) hu
  have h2 : ClaimKept u w := State.encFlush_claim (s := u.encAppend _ _) hw
  exact ClaimKept.trans (t := u) (u := w) ((State.encAppend_frame s _ _).trans (State.encFlush_frame hu))
    ((State.encAppend_frame u _ _).trans (State.encFlush_frame hw)) h1 h2

/-- What a finish can do (R128): nothing but `DONE` where nothing is pending, else one last word. -/
theorem State.finishStream_some {s t : State} (h : s.finishStream = some t) :
    (s.enc.nbits = 0 ∧ t = s.completeArtifact s.enc) ∨
      (s.enc.nbits ≠ 0 ∧ ∃ u, s.writeWmem s.enc.wcount.toNat s.enc.lastWord = some u ∧
        t = u.completeArtifact { s.enc with wcount := s.enc.wcount + 1, nbits := 0, acc := 0 }) := by
  unfold State.finishStream at h
  split_ifs at h with hn
  · exact .inl ⟨hn, (Option.some.inj h).symm⟩
  · rw [Option.map_eq_some_iff] at h
    obtain ⟨u, hu, rfl⟩ := h
    refine .inr ⟨hn, u, hu, ?_⟩
    rw [(State.writeWmem_some hu).2.2.1]

theorem State.finishStream_frame {s t : State} (h : s.finishStream = some t) : EncFrame s t := by
  rcases State.finishStream_some h with ⟨-, rfl⟩ | ⟨-, u, hu, rfl⟩
  · exact (EncFrame.refl s).complete _
  · exact (State.writeWmem_frame hu).complete _

/-- A run that is still claimed behind `ENC.STATE <- DONE` reads no word that was unfinished (R288; log 23). -/
theorem State.completeArtifact_claim {s : State} {e : Enc} {d : DecId} (ht : ((s.completeArtifact e).dec d).taint = none)
    (hr : (s.dec d).state = .run) : ∀ i, i < (s.dec d).wordCount.toNat → i ∉ s.unfinished := by
  obtain ⟨n, hn⟩ := s.completeArtifact_dec e d
  rw [hn] at ht
  intro i hi hm
  have := (Dec.noteFinish_taint_none ht hr).2 i hm
  omega

/-- A finish leaves which words of a claimed run are unfinished as it was. -/
theorem State.finishStream_claim {s t : State} (h : s.finishStream = some t) {d : DecId} (ht : (t.dec d).taint = none)
    (hr : (s.dec d).state = .run) : ∀ i, i < (s.dec d).wordCount.toNat → (i ∈ t.unfinished ↔ i ∈ s.unfinished) := by
  intro i hi
  rcases State.finishStream_some h with ⟨-, rfl⟩ | ⟨-, u, hu, rfl⟩
  · simp [State.completeArtifact_claim ht hr i hi]
  · have e := (State.writeWmem_frame hu).dec d
    have := State.completeArtifact_claim (s := u) ht (by rw [e]; exact hr) i (by rw [e]; exact hi)
    rw [State.writeWmem_unfinished hu] at this
    simp [this]

/-- The bits of the last word (R128): the pending bits left-justified, zeros below. -/
theorem Enc.lastWord_bit (e : Enc) {i : Nat} (hi : i < 32) :
    e.lastWord.getLsbD i = (decide (32 - e.nbits.toNat ≤ i) && e.acc.getLsbD (i - (32 - e.nbits.toNat))) := by
  unfold Enc.lastWord
  rw [BitVec.getLsbD_setWidth, BitVec.getLsbD_shiftLeft]
  by_cases h : 32 - e.nbits.toNat ≤ i
  · simp [h, hi, show i < 64 by omega, show ¬ i < 32 - e.nbits.toNat by omega]
  · simp [h, hi, show i < 32 - e.nbits.toNat by omega]

end Sys2Proof.Machine
end

