-- ==== Sys2Proof/Laws/PerInstr.lean ====
section
/-! SUPPORT. A law for each instruction: its encoding is a number of its opcode-table row (spec/opcode_table.json): below
`2 ^ width`, and equal to the row's match value under the row's mask. -/

namespace Sys2Proof.Laws.TableRow

/-- A row of the opcode table: width in bits, mask, match. -/
structure Row where
  width : Nat
  mask : Nat
  expect : Nat
  deriving DecidableEq, Repr

/-- The opcode table's row of each instruction. -/
def row : Instr → Row
  | .recC0 _ => ⟨6, 0x30, 0x0⟩
  | .recC1 _ => ⟨13, 0x1800, 0x800⟩
  | .recC2 _ => ⟨26, 0x3000000, 0x2000000⟩
  | .recC3 _ => ⟨34, 0x300000000, 0x300000000⟩
  | .pat0 .. => ⟨32, 0xC30C3000, 0x00000000⟩
  | .pat1 .. => ⟨32, 0xC30C3000, 0x00001000⟩
  | .pat2 .. => ⟨32, 0xC30C2000, 0x00002000⟩
  | .pat3 .. => ⟨32, 0xC30C0000, 0x00040000⟩
  | .pat4 .. => ⟨32, 0xC3080000, 0x00080000⟩
  | .pat5 .. => ⟨32, 0xC3001800, 0x01000000⟩
  | .pat6 .. => ⟨32, 0xC3001800, 0x01000800⟩
  | .pat7 .. => ⟨32, 0xC3001000, 0x01001000⟩
  | .pat8 .. => ⟨32, 0xC3000000, 0x02000000⟩
  | .pat9 .. => ⟨32, 0xC3000000, 0x03000000⟩
  | .pat10 .. => ⟨32, 0xC0061800, 0x40000000⟩
  | .pat11 .. => ⟨32, 0xC0061800, 0x40000800⟩
  | .pat12 .. => ⟨32, 0xC0061000, 0x40001000⟩
  | .pat13 .. => ⟨32, 0xC0060000, 0x40020000⟩
  | .pat14 .. => ⟨32, 0xC0040000, 0x40040000⟩
  | .pat15 .. => ⟨32, 0xC0000000, 0x80000000⟩
  | .encStart => ⟨4, 0xF, 0x0⟩
  | .encPush _ => ⟨4, 0xF, 0x1⟩
  | .encFinish => ⟨4, 0xF, 0x2⟩
  | .sdecStart .. => ⟨4, 0xF, 0x4⟩
  | .bdecStart .. => ⟨4, 0xF, 0x8⟩

/-- The number the table gives an encoding: a record's first bit and a window's bit 31 are the most significant; of a
command, its code. -/
def number : Encoding → Nat
  | .record bits => numOf bits 0
  | .window win => win.toNat
  | .command c => c.cmd.toNat

/-- The encoding of an instruction lies in its row. -/
def Statement (i : Instr) : Prop :=
  number (encode i) < 2 ^ (row i).width ∧ number (encode i) &&& (row i).mask = (row i).expect

theorem number_record (c : WClass) (p : Nat) (h : p < 2 ^ c.width) :
    numOf (recordBits c p) 0 = 2 ^ c.width * c.tag.toNat + p := by
  rw [recordBits, numOf_append, numOf_acc, numOf_bitsOf, numOf_bitsOf, length_bitsOf, Nat.mod_eq_of_lt h,
    Nat.mod_eq_of_lt (show c.tag.toNat < 2 ^ Config.tagBits from c.tag.isLt), Nat.mul_comm]

/-- Under the tag's mask a record's number is its tag. -/
theorem record_row (c : WClass) (p : Nat) (h : p < 2 ^ c.width) :
    numOf (recordBits c p) 0 < 2 ^ c.recLen ∧
      numOf (recordBits c p) 0 &&& 2 ^ c.width * 3 = 2 ^ c.width * c.tag.toNat := by
  rw [number_record c p h]
  have ht : c.tag.toNat < 4 := c.tag.isLt
  refine ⟨?_, Nat.eq_of_testBit_eq fun i => ?_⟩
  · rw [WClass.recLen, Nat.pow_add]
    have : 2 ^ c.width * c.tag.toNat ≤ 2 ^ c.width * 3 := Nat.mul_le_mul_left _ (by omega)
    simp only [Config.tagBits]
    omega
  · rw [Nat.testBit_and, Nat.testBit_two_pow_mul_add _ h, Nat.testBit_two_pow_mul, Nat.testBit_two_pow_mul]
    by_cases hi : i < c.width
    · simp [hi, show ¬ c.width ≤ i by omega]
    · by_cases h2 : i - c.width < 2
      · have h3 : Nat.testBit 3 (i - c.width) = true := by
          generalize i - c.width = j at h2
          interval_cases j <;> rfl
        simp [hi, h3, show c.width ≤ i by omega]
      · have h4 : c.tag.toNat.testBit (i - c.width) = false :=
          Nat.testBit_lt_two_pow (lt_of_lt_of_le (show _ < 2 ^ 2 from ht) (Nat.pow_le_pow_right (by decide) (by omega)))
        simp [hi, h4]

/-- A window that matches an entry lies in the entry's row. -/
theorem window_row {win mask expect : Word} (h : win &&& mask = expect) :
    win.toNat < 2 ^ 32 ∧ win.toNat &&& mask.toNat = expect.toNat :=
  ⟨win.isLt, by rw [← h, BitVec.toNat_and]⟩

theorem recC0 (v : BitVec 4) : Statement (.recC0 v) := record_row .c0 v.toNat v.isLt

theorem recC1 (v : BitVec 11) : Statement (.recC1 v) := record_row .c1 v.toNat v.isLt

theorem recC2 (v : BitVec 24) : Statement (.recC2 v) := record_row .c2 v.toNat v.isLt

theorem recC3 (v : BitVec 32) : Statement (.recC3 v) := record_row .c3 v.toNat v.isLt

theorem pat0 (a b c d : BitVec 4) (x : BitVec 8) : Statement (.pat0 a b c d x) := window_row (winPat0_matches a b c d x)

theorem pat1 (a b c : BitVec 4) (d : BitVec 11) (x : BitVec 1) : Statement (.pat1 a b c d x) := window_row (winPat1_matches a b c d x)

theorem pat2 (a b c : BitVec 4) (x : BitVec 13) : Statement (.pat2 a b c x) := window_row (winPat2_matches a b c x)

theorem pat3 (a b : BitVec 4) (c : BitVec 11) (x : BitVec 7) : Statement (.pat3 a b c x) := window_row (winPat3_matches a b c x)

theorem pat4 (a b : BitVec 4) (x : BitVec 19) : Statement (.pat4 a b x) := window_row (winPat4_matches a b x)

theorem pat5 (a : BitVec 4) (b : BitVec 11) (c : BitVec 4) (x : BitVec 7) : Statement (.pat5 a b c x) := window_row (winPat5_matches a b c x)

theorem pat6 (a : BitVec 4) (b c : BitVec 11) : Statement (.pat6 a b c) := window_row (winPat6_matches a b c)

theorem pat7 (a : BitVec 4) (b : BitVec 11) (x : BitVec 12) : Statement (.pat7 a b x) := window_row (winPat7_matches a b x)

theorem pat8 (a : BitVec 4) (b : BitVec 24) : Statement (.pat8 a b) := window_row (winPat8_matches a b)

theorem pat9 (a : BitVec 4) (x : BitVec 24) : Statement (.pat9 a x) := window_row (winPat9_matches a x)

theorem pat10 (a : BitVec 11) (b c : BitVec 4) (x : BitVec 7) : Statement (.pat10 a b c x) := window_row (winPat10_matches a b c x)

theorem pat11 (a : BitVec 11) (b : BitVec 4) (c : BitVec 11) : Statement (.pat11 a b c) := window_row (winPat11_matches a b c)

theorem pat12 (a : BitVec 11) (b : BitVec 4) (x : BitVec 12) : Statement (.pat12 a b x) := window_row (winPat12_matches a b x)

theorem pat13 (a b : BitVec 11) (x : BitVec 6) : Statement (.pat13 a b x) := window_row (winPat13_matches a b x)

theorem pat14 (a : BitVec 11) (x : BitVec 18) : Statement (.pat14 a x) := window_row (winPat14_matches a x)

theorem pat15 (a : BitVec 24) (x : BitVec 6) : Statement (.pat15 a x) := window_row (winPat15_matches a x)

theorem encStart : Statement .encStart := (by decide : (0 : Nat) < 2 ^ 4 ∧ 0 &&& 0xF = 0)

theorem encPush (v : BitVec 32) : Statement (.encPush v) := (by decide : (1 : Nat) < 2 ^ 4 ∧ 1 &&& 0xF = 1)

theorem encFinish : Statement .encFinish := (by decide : (2 : Nat) < 2 ^ 4 ∧ 2 &&& 0xF = 2)

theorem sdecStart (wc vc : BitVec 64) : Statement (.sdecStart wc vc) := (by decide : (4 : Nat) < 2 ^ 4 ∧ 4 &&& 0xF = 4)

theorem bdecStart (wc vc : BitVec 64) : Statement (.bdecStart wc vc) := (by decide : (8 : Nat) < 2 ^ 4 ∧ 8 &&& 0xF = 8)

end Sys2Proof.Laws.TableRow
end

