-- ==== Sys2Proof/Tests/Slice0.lean ====
section
/-! SUPPORT. The model's own tests: ill-formed terms refused, words decoded, single steps against the spec's test vectors
(95_test_vectors.md), and for each statement with hypotheses a witness that meets them. -/

namespace Sys2Proof.Tests

open Machine

/-! ## Well-formedness: an ill-formed term for each check -/

theorem test_wf_every_field_is_legal : (Instr.recC0 15).wf = true ∧ (Instr.encPush 0).wf = true := by decide
theorem test_wf_refuses_reserved_code : (⟨3, 0, 0⟩ : CommandWord).wf = false ∧ (⟨8, 0, 0⟩ : CommandWord).wf = true := by
  decide
theorem test_wf_refuses_noncanonical_records :
    (Instr.recC1 15).canonical = false ∧ (Instr.recC2 2047).canonical = false ∧
      (Instr.recC3 16777215).canonical = false ∧ (Instr.recC3 16777216).canonical = true := by decide
theorem test_wf_refuses_unsorted_memory : Mem.wf [(1, 0), (0, 0)] = false ∧ Mem.wf [(1, 0), (1, 0)] = false := by decide
theorem test_wf_refuses_index_beyond_capacity : Mem.within 4 [(4, 0)] = false ∧ Mem.within 5 [(4, 0)] = true := by
  decide
theorem test_wf_refuses_expect_outside_mask : ({ pt0 with expect := 1 } : PatEntry).wf = false := by decide
theorem test_wf_refuses_bad_count :
    ({ pt0 with count := 0 } : PatEntry).wf = false ∧ ({ pt0 with count := 5 } : PatEntry).wf = false := by decide
theorem test_wf_refuses_bad_consumed :
    ({ pt0 with consumed := 5 } : PatEntry).wf = false ∧ ({ pt0 with consumed := 33 } : PatEntry).wf = false := by decide
theorem test_wf_refuses_lane_outside_window : ({ pt0 with shift := ⟨27, 20, 14, 8⟩ } : PatEntry).wf = false := by decide
theorem test_wf_refuses_short_and_long_bits :
    isOneRecord [] = false ∧ isOneRecord (bitsOf 5 0) = false ∧ isOneRecord (bitsOf 7 0) = false ∧
      isOneRecord (bitsOf 6 0) = true := by decide

/-! ## Decoding: words written out from the encodings (30_encoding.md R93 to R96, R109; 43_batched_decoder.md R203) -/

theorem test_decode_recC0 : decode (.record (bitsOf 6 0b00_0101)) = .ok (.recC0 5) := by decide
theorem test_decode_recC1 : decode (.record (bitsOf 13 0b01_01111101000)) = .ok (.recC1 1000) := by decide
theorem test_decode_recC2 : decode (.record (bitsOf 26 0b10_000000010001000101110000)) = .ok (.recC2 70000) := by
  decide
theorem test_decode_recC3 :
    decode (.record (bitsOf 34 0b11_11011110101011011011111011101111)) = .ok (.recC3 0xDEADBEEF) := by decide
theorem test_decode_pat0 : decode (.window 0b00_1001_00_0011_00_1100_00_0110_00000100) = .ok (.pat0 9 3 12 6 4) := by decide
theorem test_decode_pat1 : decode (.window 0b00_1001_00_0011_00_1100_01_10101010101_0) = .ok (.pat1 9 3 12 0x555 0) := by decide
theorem test_decode_pat2 : decode (.window 0b00_1001_00_0011_00_1100_1_1100010011010) = .ok (.pat2 9 3 12 0x189A) := by decide
theorem test_decode_pat3 : decode (.window 0b00_1001_00_0011_01_10101010101_0000010) = .ok (.pat3 9 3 0x555 2) := by decide
theorem test_decode_pat4 : decode (.window 0b00_1001_00_0011_1_1100010011010101111) = .ok (.pat4 9 3 0x626AF) := by decide
theorem test_decode_pat5 : decode (.window 0b00_1001_01_10101010101_00_0011_0000010) = .ok (.pat5 9 0x555 3 2) := by decide
theorem test_decode_pat6 : decode (.window 0b00_1001_01_10101010101_01_01010101010) = .ok (.pat6 9 0x555 0x2AA) := by decide
theorem test_decode_pat7 : decode (.window 0b00_1001_01_10101010101_1_110001001101) = .ok (.pat7 9 0x555 0xC4D) := by decide
theorem test_decode_pat8 : decode (.window 0b00_1001_10_101010111100110111101111) = .ok (.pat8 9 0xABCDEF) := by decide
theorem test_decode_pat9 : decode (.window 0b00_1001_11_100010011010101111001101) = .ok (.pat9 9 0x89ABCD) := by decide
theorem test_decode_pat10 : decode (.window 0b01_10101010101_00_1001_00_0011_0000010) = .ok (.pat10 0x555 9 3 2) := by decide
theorem test_decode_pat11 : decode (.window 0b01_10101010101_00_1001_01_01010101010) = .ok (.pat11 0x555 9 0x2AA) := by decide
theorem test_decode_pat12 : decode (.window 0b01_10101010101_00_1001_1_110001001101) = .ok (.pat12 0x555 9 0xC4D) := by decide
theorem test_decode_pat13 : decode (.window 0b01_10101010101_01_01010101010_000001) = .ok (.pat13 0x555 0x2AA 1) := by decide
theorem test_decode_pat14 : decode (.window 0b01_10101010101_1_110001001101010111) = .ok (.pat14 0x555 0x31357) := by decide
theorem test_decode_pat15 : decode (.window 0b10_101010111100110111101111_000001) = .ok (.pat15 0xABCDEF 1) := by decide
theorem test_decode_encStart : decode (.command ⟨0b0000, 7, 9⟩) = .ok .encStart := by decide
theorem test_decode_encPush : decode (.command ⟨0b0001, 0x1DEADBEEF, 9⟩) = .ok (.encPush 0xDEADBEEF) := by decide
theorem test_decode_encFinish : decode (.command ⟨0b0010, 7, 9⟩) = .ok .encFinish := by decide
theorem test_decode_sdecStart : decode (.command ⟨0b0100, 3, 5⟩) = .ok (.sdecStart 3 5) := by decide
theorem test_decode_bdecStart : decode (.command ⟨0b1000, 3, 5⟩) = .ok (.bdecStart 3 5) := by decide
theorem test_decode_refuses_reserved : decode (.command ⟨0b0011, 0, 0⟩) = .error (.reservedCommand 3) := by decide
theorem test_decode_refuses_tag_11_window : decode (.window 0xC0000000) = .error .noPattern := by decide
theorem test_decode_refuses_truncated_record :
    decode (.record [true]) = .error .truncatedRecord ∧ decode (.record (bitsOf 12 0x400)) = .error .truncatedRecord := by
  decide

/-! ## Single steps -/

/-- Whether an outcome is a next state. -/
def isNext : Host.Outcome State Fault Refusal → Bool
  | .next _ => true
  | .fault _ => false
  | .refused _ => false

/-- The next state of an outcome; the reset state where there is none. -/
def landed : Host.Outcome State Fault Refusal → State
  | .next s => s
  | .fault _ => State.reset
  | .refused _ => State.reset

theorem next_landed {o : Host.Outcome State Fault Refusal} (h : isNext o = true) : o = .next (landed o) := by
  cases o with
  | next s => rfl
  | fault r => simp [isNext] at h
  | refused r => simp [isNext] at h

/-- What the tests read of a decoder: the first four slots, `OCUR` and the bit buffer. -/
def seen (x : Dec) : List (Option Word) × Count × BB :=
  ([x.vout.read 0, x.vout.read 1, x.vout.read 2, x.vout.read 3], x.ocur, x.bb)

/-- Decoder `d` started on `words` for `vc` values, from reset. -/
def startedOn (d : DecId) (words : List Word) (vc : Count) : State := State.reset.loadStream d words vc

/-- SDEC inside program A (95_test_vectors.md section 3), its bit buffer as given. -/
def inProgramA (bb : BB) : State :=
  let s := startedOn .sdec [0x157D1008, 0x8B87BD5B, 0x7DDE0000] 5
  { s with sdec := { s.sdec with bb := bb } }

/-- 95_test_vectors.md section 3, rows 1 to 7. -/
theorem test_exec_recC0 :
    seen (landed (exec (.recC0 5) (inProgramA ⟨0, 0, 0⟩))).sdec =
      ([some 5, none, none, none], 1, ⟨0x5F44020000000000, 26, 1⟩) := by decide
/-- Rows 8 to 13. -/
theorem test_exec_recC1 :
    seen (landed (exec (.recC1 1000) (inProgramA ⟨0x5F44020000000000, 26, 1⟩))).sdec =
      ([some 1000, none, none, none], 1, ⟨0x8040000000000000, 13, 1⟩) := by decide
/-- Rows 14 to 19. -/
theorem test_exec_recC2 :
    seen (landed (exec (.recC2 70000) (inProgramA ⟨0x8040000000000000, 13, 1⟩))).sdec =
      ([some 70000, none, none, none], 1, ⟨0xF7AB600000000000, 19, 2⟩) := by decide
/-- Rows 20 to 25. -/
theorem test_exec_recC3 :
    seen (landed (exec (.recC3 0xDEADBEEF) (inProgramA ⟨0xF7AB600000000000, 19, 2⟩))).sdec =
      ([some 0xDEADBEEF, none, none, none], 1, ⟨0, 17, 3⟩) := by decide
/-- 95_test_vectors.md section 5, `PAT0`. -/
theorem test_exec_pat0 :
    seen (landed (exec (.pat0 9 3 12 6 4) (startedOn .bdec [0x24330604] 21))).bdec =
      ([some 9, some 3, some 0xc, some 6], 4, ⟨0x400000000000000, 8, 1⟩) := by decide
/-- 95_test_vectors.md section 5, `PAT1`. -/
theorem test_exec_pat1 :
    seen (landed (exec (.pat1 9 3 12 0x555 0) (startedOn .bdec [0x24331AAA] 21))).bdec =
      ([some 9, some 3, some 0xc, some 0x555], 4, ⟨0x0, 1, 1⟩) := by decide
/-- 95_test_vectors.md section 5, `PAT2`. -/
theorem test_exec_pat2 :
    seen (landed (exec (.pat2 9 3 12 0x189A) (startedOn .bdec [0x2433389A] 21))).bdec =
      ([some 9, some 3, some 0xc, some 0], 3, ⟨0xE268000000000000, 14, 1⟩) := by decide
/-- 95_test_vectors.md section 5, `PAT3`. -/
theorem test_exec_pat3 :
    seen (landed (exec (.pat3 9 3 0x555 2) (startedOn .bdec [0x2436AA82] 20))).bdec =
      ([some 9, some 3, some 0x555, some 0], 3, ⟨0x400000000000000, 7, 1⟩) := by decide
/-- 95_test_vectors.md section 5, `PAT4`. -/
theorem test_exec_pat4 :
    seen (landed (exec (.pat4 9 3 0x626AF) (startedOn .bdec [0x243E26AF] 20))).bdec =
      ([some 9, some 3, some 0, some 0], 2, ⟨0xE26AF00000000000, 20, 1⟩) := by decide
/-- 95_test_vectors.md section 5, `PAT5`. -/
theorem test_exec_pat5 :
    seen (landed (exec (.pat5 9 0x555 3 2) (startedOn .bdec [0x25AAA182] 20))).bdec =
      ([some 9, some 0x555, some 3, some 0], 3, ⟨0x400000000000000, 7, 1⟩) := by decide
/-- 95_test_vectors.md section 5, `PAT6`. -/
theorem test_exec_pat6 :
    seen (landed (exec (.pat6 9 0x555 0x2AA) (startedOn .bdec [0x25AAAAAA] 20))).bdec =
      ([some 9, some 0x555, some 0x2aa, some 0], 3, ⟨0x0, 0, 1⟩) := by decide
/-- 95_test_vectors.md section 5, `PAT7`. -/
theorem test_exec_pat7 :
    seen (landed (exec (.pat7 9 0x555 0xC4D) (startedOn .bdec [0x25AABC4D] 20))).bdec =
      ([some 9, some 0x555, some 0, some 0], 2, ⟨0xE268000000000000, 13, 1⟩) := by decide
/-- 95_test_vectors.md section 5, `PAT8`. -/
theorem test_exec_pat8 :
    seen (landed (exec (.pat8 9 0xABCDEF) (startedOn .bdec [0x26ABCDEF] 19))).bdec =
      ([some 9, some 0xabcdef, some 0, some 0], 2, ⟨0x0, 0, 1⟩) := by decide
/-- 95_test_vectors.md section 5, `PAT9`. -/
theorem test_exec_pat9 :
    seen (landed (exec (.pat9 9 0x89ABCD) (startedOn .bdec [0x2789ABCD] 19))).bdec =
      ([some 9, some 0, some 0, some 0], 1, ⟨0xE26AF34000000000, 26, 1⟩) := by decide
/-- 95_test_vectors.md section 5, `PAT10`. -/
theorem test_exec_pat10 :
    seen (landed (exec (.pat10 0x555 9 3 2) (startedOn .bdec [0x6AA92182] 20))).bdec =
      ([some 0x555, some 9, some 3, some 0], 3, ⟨0x400000000000000, 7, 1⟩) := by decide
/-- 95_test_vectors.md section 5, `PAT11`. -/
theorem test_exec_pat11 :
    seen (landed (exec (.pat11 0x555 9 0x2AA) (startedOn .bdec [0x6AA92AAA] 20))).bdec =
      ([some 0x555, some 9, some 0x2aa, some 0], 3, ⟨0x0, 0, 1⟩) := by decide
/-- 95_test_vectors.md section 5, `PAT12`. -/
theorem test_exec_pat12 :
    seen (landed (exec (.pat12 0x555 9 0xC4D) (startedOn .bdec [0x6AA93C4D] 20))).bdec =
      ([some 0x555, some 9, some 0, some 0], 2, ⟨0xE268000000000000, 13, 1⟩) := by decide
/-- 95_test_vectors.md section 5, `PAT13`. -/
theorem test_exec_pat13 :
    seen (landed (exec (.pat13 0x555 0x2AA 1) (startedOn .bdec [0x6AAAAA81] 19))).bdec =
      ([some 0x555, some 0x2aa, some 0, some 0], 2, ⟨0x400000000000000, 6, 1⟩) := by decide
/-- 95_test_vectors.md section 5, `PAT14`. -/
theorem test_exec_pat14 :
    seen (landed (exec (.pat14 0x555 0x31357) (startedOn .bdec [0x6AAF1357] 19))).bdec =
      ([some 0x555, some 0, some 0, some 0], 1, ⟨0xE26AE00000000000, 19, 1⟩) := by decide
/-- 95_test_vectors.md section 5, `PAT15`. -/
theorem test_exec_pat15 :
    seen (landed (exec (.pat15 0xABCDEF 1) (startedOn .bdec [0xAAF37BC1] 18))).bdec =
      ([some 0xabcdef, some 0, some 0, some 0], 1, ⟨0x400000000000000, 6, 1⟩) := by decide

/-- ENC begun, with the registers given. -/
def encAt (acc : Buffer) (nbits : Fill) : State :=
  { State.reset with enc := { Enc.reset with acc := acc, nbits := nbits, bitCount := nbits.setWidth 64, state := .busy } }

/-- `ENC_START` from a stuck, half filled ENC. -/
theorem test_exec_encStart :
    let t := landed (exec .encStart { State.reset with enc := ⟨5, 3, 7, 9, 2, .busy, true⟩ })
    t.enc = ⟨0, 0, 0, 0, 0, .busy, false⟩ := by decide
/-- 95_test_vectors.md section 2, corner rows `NBITS = 30` (two words out) and `NBITS = 29` (the peak occupancy of 63). -/
theorem test_exec_encPush :
    let t := landed (exec (.encPush 0xFFFFFFFF) (encAt 0x1041041 30))
    let u := landed (exec (.encPush 0xFFFFFFFF) (encAt 0x1041041 29))
    (t.enc.acc, t.enc.nbits, t.enc.wcount, t.wmem) = (0, 0, 2, [(0, 0x04104107), (1, 0xFFFFFFFF)]) ∧
      (u.enc.acc, u.enc.nbits, u.enc.wcount, u.wmem) = (0x7FFFFFFF, 31, 1, [(0, 0x0820820F)]) := by decide
/-- 95_test_vectors.md section 2, row 1000 (`5F400000`), and empty input (R128): no word. -/
theorem test_exec_encFinish :
    let t := landed (exec .encFinish (encAt 0xBE8 13))
    let u := landed (exec .encFinish (encAt 0 0))
    (t.enc.state, t.enc.nbits, t.enc.wcount, t.enc.bitCount, t.wmem) = (.done, 0, 1, 13, [(0, 0x5F400000)]) ∧
      (u.enc.state, u.enc.wcount, u.wmem) = (.done, 0, []) := ⟨by decide, by decide⟩
/-- R171: `vc > 0` runs. -/
theorem test_exec_sdecStart :
    let t := landed (exec (.sdecStart 3 5) State.reset)
    (t.sdec.state, t.sdec.wordCount, t.sdec.valueCount, t.bdec) = (.run, 3, 5, State.reset.bdec) := by decide
/-- R191: `vc = 0` is done at once. -/
theorem test_exec_bdecStart :
    let t := landed (exec (.bdecStart 3 0) State.reset)
    (t.bdec.state, t.bdec.wordCount, t.bdec.valueCount, t.sdec) = (.done, 3, 0, State.reset.sdec) := by decide
/-- R252, R257: the payload's bits run out after the tag was read: `FAULT`, two bits consumed, no slot. -/
theorem test_step_takes_underrun :
    let t := landed (step (startedOn .sdec [0xF7AB6FBB] 1))
    (t.sdec.state, t.sdec.faultCode, t.sdec.ocur, t.sdec.bb, t.sdec.vout) =
      (.fault, .wordUnderrun, 0, ⟨0xDEADBEEC00000000, 30, 1⟩, []) := by decide
/-- R280: `RESET` overrides a command given with it. -/
theorem test_step_reset_overrides :
    let t := landed (step { inProgramA ⟨0, 0, 0⟩ with inputs := [⟨true, .command ⟨0, 0, 0⟩⟩] })
    (t.sdec.state, t.sdec.wordCount, t.enc.state, t.wmem.length) = (.idle, 0, .idle, 3) := by decide
/-- Log 14: a table word runs as the first instruction after reset. -/
theorem test_withFetchWord_runs :
    (landed (step (State.reset.withFetchWord 16 0b0101111101000))).sdec.vout = [(0, 1000)] ∧
      (landed (step (State.reset.withFetchWord 32 0xAAF37BC1))).bdec.ocur = 1 ∧
      (landed (step (State.reset.withFetchWord 8 0))).enc.state = .busy := by decide

/-! ## Witnesses: for each statement with hypotheses, a state and operands that meet all of them -/

/-- Program A behind its first two records: 13 stream bits buffered, words 1 and 2 still to pull. -/
def midA : State := inProgramA ⟨0x8040000000000000, 13, 1⟩

/-- BDEC started on `words` for `vc` values, its bit buffer as given. -/
def bdecAt (words : List Word) (vc : Count) (bb : BB) : State :=
  let s := startedOn .bdec words vc
  { s with bdec := { s.bdec with bb := bb } }

/-- SDEC on one word, its bit buffer as given: nothing left to pull where `WIDX` is 1. -/
def sdecAt (bb : BB) : State :=
  let s := startedOn .sdec [0xFFFFFFFF] 2
  { s with sdec := { s.sdec with bb := bb } }

/-- A state at the boundary of a matched step: exactly 32 stream bits left, exactly 16 values, 4 slots. -/
def batchEdge : State :=
  let s := startedOn .bdec [0x24330604] 16
  { s with bdec := { s.bdec with voutCap := 4 } }

/-- Both decoders in `RUN`. -/
def bothRun : State := landed (exec (.bdecStart 3 5) midA)

theorem midA_holds : midA.sdec.bb.Inv midA.sdec.wordCount ∧ midA.sdec.bb.Holds midA.words := by
  unfold BB.Inv BB.Holds; decide

theorem batchEdge_inv : batchEdge.bdec.bb.Inv batchEdge.bdec.wordCount := by
  unfold BB.Inv; decide

theorem witness_DecodeOfEncodeIsTheInstruction : (Instr.pat5 9 0x555 3 2).wf = true := by decide

theorem witness_EncodeOfDecodedWindowIsTheWindow : decodeWindow 0x25AABC4D = .ok (.pat7 9 0x555 0xC4D) := by decide

theorem witness_DecodedRecordBitsAreItsEncoding :
    decodeRecord (bitsOf 8 0b00010111) = .ok (.recC0 5, [true, true]) := by decide

/-- Each class at exactly its length: 6, 13, 26 and 34 bits. -/
theorem witness_EveryLongEnoughBitStringIsARecord :
    ∀ p ∈ ([(0, bitsOf 6 0b000101), (1, bitsOf 13 0b0101111101000), (2, bitsOf 26 0x2011170),
        (3, bitsOf 34 0x3DEADBEEF)] : List (BitVec 2 × List Bool)),
      p.2.take 2 = bitsOf 2 p.1.toNat ∧ (WClass.ofTag p.1).recLen = p.2.length := by decide

/-- The widths at both ends of the clause's range, and a value at the boundary of each. -/
theorem witness_ClassByValueAndByLeadingZeros :
    (0 ≤ 32 ∧ clz32 0 = 32 ∧ clz32 1 = 31) ∧ 32 ≤ 32 ∧ clz32 0xFFFFFFFF = 0 ∧ clz32 15 = 28 ∧ clz32 16 = 27 := by decide

theorem witness_ExactlyOneEntryMatchesUnlessTag11 :
    (0xC0000000#32).extractLsb' 30 2 = 0b11#2 ∧ (0xBFFFFFFF#32).extractLsb' 30 2 ≠ 0b11#2 := by decide

theorem witness_MatchedEntryParsesAsItsRecords : decodeWindow 0x3EFFFFFF = .ok (.pat8 15 0xFFFFFF) := by decide

theorem witness_ResetPutsEveryRegisterAtItsResetValue :
    ({ midA with inputs := [⟨true, .command ⟨0, 0, 0⟩⟩] } : State).inputs = ⟨true, .command ⟨0, 0, 0⟩⟩ :: [] := rfl

theorem witness_PushAndFinishRefusedUnlessBusy :
    State.reset.enc.state = .idle ∧ (landed (exec .encFinish (encAt 0 0))).enc.state = .done := by decide

theorem witness_DecoderStartInitialisesItsRegisters :
    State.reset.sdec.state ≠ .run ∧ State.reset.bdec.state ≠ .run := by decide

theorem witness_DecoderStartRefusedInRun : bothRun.sdec.state = .run ∧ bothRun.bdec.state = .run := by decide

/-- The machine behind `ENC_START` and one push of a record of 34 bits: word 0 of an unfinished encode is written. -/
def midEncode : State := landed (runInstrs [.encStart, .encPush 0xFFFFFFFF] State.reset)

/-- `midEncode`, its encode abandoned by `RESET`, and then word 0 supplied by the host. -/
def abandoned : State := landed (step { midEncode with inputs := [⟨true, .none⟩] })
def supplied : State := landed (step { abandoned with inputs := [⟨false, .writeWord 0 0x14000000⟩] })

/-- An encode of two words that has not reached `DONE`; behind it a finished artifact of one word, whose word 0 stands
before the first encode's word 1; and the same one word supplied by the host behind a `RESET`. -/
def twoWords : State := landed (runInstrs [.encStart, .encPush 0xFFFFFFFF, .encPush 0xFFFFFFFF] State.reset)
def leftOver : State := landed (runInstrs (encodeCommands [5]) twoWords)
def suppliedOver : State :=
  landed (step (landed (step { twoWords with inputs := [⟨true, .none⟩, ⟨false, .writeWord 0 0x14000000⟩] })))

/-- A START while ENC is `BUSY`; one behind a `RESET` that abandoned the encode, on its word; one on a word that the host
supplied. -/
theorem witness_StartOnUnfinishedWordsMakesThemFree :
    (midEncode.sdec.state ≠ .run ∧ 0 < midEncode.wmemCap ∧ midEncode.enc.state = .busy ∧ 0 < (1 : Count).toNat) ∧
      (abandoned.bdec.state ≠ .run ∧ 0 < abandoned.wmemCap ∧
        ¬ (abandoned.enc.state = .busy ∧ 0 < (1 : Count).toNat) ∧ 0 ∈ abandoned.unfinished) ∧
      supplied.sdec.state ≠ .run ∧ 0 < supplied.wmemCap ∧
      ¬ (supplied.enc.state = .busy ∧ 0 < (1 : Count).toNat) ∧ 0 ∉ supplied.unfinished := by decide

/-- R290 H2: with a `wc` that reaches a left-over word, the finished artifact's value is decoded (R113: the record of 5 is
`000101`). R255: with a `vc` that is too large as well, the bits of the left-over word are parsed: the sixth record's payload
is `1111` of `0xFFFFFFFF`. The same word behind an artifact that the host supplied stands as well. -/
theorem test_start_unfinished :
    twoWords.unfinished = [0, 1] ∧ suppliedOver.unfinished = [] ∧ suppliedOver.words 1 = 0xFFFFFFFF ∧
      leftOver.unfinished = [] ∧ leftOver.words 0 = 0x14000000 ∧ leftOver.words 1 = 0xFFFFFFFF ∧
      (landed ((leftOver.startDec .sdec 2 1).decSteps .sdec 1)).sdec.vout.read 0 = some 5 ∧
      (landed ((leftOver.startDec .sdec 2 6).decSteps .sdec 6)).sdec.vout.read 5 = some 15 ∧
      (midEncode.startDec .sdec 1 1).sdec.taint = some 0 ∧ (midEncode.startDec .sdec 0 1).sdec.taint = none ∧
      (abandoned.startDec .sdec 1 1).sdec.taint = none := by decide

/-- R237: the pattern table passes its offline validation; a table with an entry twice does not. -/
theorem test_table_validated : tableValidated patTable = true ∧ tableValidated (pt0 :: patTable) = false := by decide

theorem witness_WordsStayUnfinishedUntilDone :
    exec (.encPush 0xFFFFFFFF) midEncode = .next (landed (exec (.encPush 0xFFFFFFFF) midEncode)) ∧
      (landed (exec (.encPush 0xFFFFFFFF) midEncode)).enc.wcount ≠ midEncode.enc.wcount ∧
      (let s := { encAt 0x1041041 30 with wmemCap := 2 };
        (landed (exec (.encPush 0xFFFFFFFF) s)).enc.wcount = s.enc.wcount + 2) ∧
      midEncode.enc.accepts = true ∧ exec .encFinish midEncode = .next (landed (exec .encFinish midEncode)) ∧
      (landed (exec .encFinish midEncode)).enc.state = .done ∧
      exec .encStart midEncode = .next (landed (exec .encStart midEncode)) ∧
      step { midEncode with inputs := [⟨true, .none⟩] } = .next abandoned ∧
      ({ abandoned with inputs := [⟨false, .writeWord 0 0x14000000⟩] } : State).inputs =
        ⟨false, .writeWord 0 0x14000000⟩ :: [] ∧ (0 : Count).toNat < abandoned.wmemCap :=
  ⟨next_landed (by decide), by decide, by decide, by decide, next_landed (by decide), by decide, next_landed (by decide),
    next_landed (by decide), rfl, by decide⟩

theorem witness_ReservedCommandChangesNothing :
    (⟨15, 1, 2⟩ : CommandWord).wf = false ∧
      ({ midA with inputs := [⟨false, .command ⟨15, 1, 2⟩⟩] } : State).inputs = ⟨false, .command ⟨15, 1, 2⟩⟩ :: [] := by
  decide

theorem witness_StepRunsTheCommandAtThePort :
    ({ midA with inputs := [⟨false, .command ⟨1, 7, 2⟩⟩] } : State).inputs = ⟨false, .command ⟨1, 7, 2⟩⟩ :: [] ∧
      decodeCommand ⟨1, 7, 2⟩ = .ok (.encPush 7) := by decide

theorem witness_StepRunsTheInstructionAtTheCursor_sdec :
    midA.inputs = [] ∧ (midA.dec .sdec).enabled = true ∧ (∀ d', d' ≠ .sdec → (midA.dec d').enabled = false) ∧
      midA.fetch .sdec = .instr (.recC2 70000) := ⟨by decide, by decide, fun d' => by cases d' <;> decide, by decide⟩

theorem witness_StepRunsTheInstructionAtTheCursor_bdec :
    ({ batchEdge with inputs := [⟨false, .none⟩] } : State).inputs = ⟨false, .none⟩ :: [] ∧
      (batchEdge.dec .bdec).enabled = true ∧ (∀ d', d' ≠ .bdec → (batchEdge.dec d').enabled = false) ∧
      batchEdge.fetch .bdec = .instr (.pat0 9 3 12 6 4) := ⟨rfl, by decide, fun d' => by cases d' <;> decide, by decide⟩

/-- One bit left and no word: the tag cannot be had. With `WMEM_CAP` 0 the word to pull does not exist. -/
theorem witness_StepRunsTheInstructionAtTheCursor_stops :
    (sdecAt ⟨0x8000000000000000, 1, 1⟩).fetch .sdec = .underrun ⟨0x8000000000000000, 1, 1⟩ ∧
      ({ sdecAt ⟨0, 0, 0⟩ with wmemCap := 0 } : State).fetch .sdec = .noWord 0 := by decide

theorem witness_StepWithoutEnabledDecoderChangesNothing :
    (∀ d, (State.reset.dec d).enabled = false) ∧ State.reset.inputs = [] := ⟨fun d => by cases d <;> decide, rfl⟩

theorem witness_EitherEnabledDecoderMayStep :
    bothRun.inputs = [] ∧ bothRun.sdec.enabled = true ∧ bothRun.bdec.enabled = true := by decide

/-- A record of 34 bits with 32 left, in SDEC; a window with 31 bits left, in BDEC. -/
theorem witness_StepTakesWordUnderrunWhereBitsRunOut :
    (let s := startedOn .sdec [0xFFFFFFFF] 1;
      (s.dec .sdec).enabled = true ∧ (s.dec .sdec).taint = none ∧ (s.dec .sdec).bb.Inv (s.dec .sdec).wordCount ∧
        (s.dec .sdec).bb.Holds s.words ∧ (s.dec .sdec).wordCount.toNat ≤ s.wmemCap ∧
        (s.dec .sdec).bitsLeft < (classAt s.words (s.dec .sdec).bb.pos).recLen) ∧
      let s := bdecAt [0x12345678] 16 ⟨0x2468ACF000000000, 31, 1⟩;
      (s.dec .bdec).enabled = true ∧ (s.dec .bdec).taint = none ∧ (s.dec .bdec).bb.Inv (s.dec .bdec).wordCount ∧
        (s.dec .bdec).bb.Holds s.words ∧ (s.dec .bdec).wordCount.toNat ≤ s.wmemCap ∧
        (s.dec .bdec).batchMode .bdec = true ∧ (s.dec .bdec).bitsLeft < Config.windowBits := by
  unfold BB.Inv BB.Holds; decide

theorem witness_FetchedRecordIsTheStreamsRecord :
    (midA.dec .sdec).batchMode .sdec = false ∧ (midA.dec .sdec).taint = none ∧
      midA.fetch .sdec = .instr (.recC2 70000) ∧ (midA.dec .sdec).bb.Inv (midA.dec .sdec).wordCount ∧
      (midA.dec .sdec).bb.Holds midA.words :=
  ⟨by decide, by decide, by decide, midA_holds⟩

theorem witness_FetchedPatternIsTheStreamsWindow :
    batchEdge.bdec.batchMode .bdec = true ∧ batchEdge.bdec.taint = none ∧
      batchEdge.fetch .bdec = .instr (.pat0 9 3 12 6 4) ∧ batchEdge.bdec.bb.Inv batchEdge.bdec.wordCount ∧
      batchEdge.bdec.bb.Holds batchEdge.words :=
  ⟨by decide, by decide, by decide, batchEdge_inv, by unfold BB.Holds; decide⟩

/-- The same statement's second clause: a window no entry matches. -/
theorem witness_FetchedPatternIsTheStreamsWindow_noMatch :
    let s := bdecAt [0xF7AB6FBB, 0xC0000000] 16 ⟨0, 0, 0⟩
    s.bdec.batchMode .bdec = true ∧ s.bdec.taint = none ∧ s.fetch .bdec = .instr (.recC3 0xDEADBEEF) ∧
      s.bdec.bb.Inv s.bdec.wordCount ∧ s.bdec.bb.Holds s.words :=
  ⟨by decide, by decide, by decide, by unfold BB.Inv; decide, by unfold BB.Holds; decide⟩

theorem witness_SdecStepIsRecordThenStore : midA.sdec.enabled = true := by decide

theorem witness_BdecBatchStepFollowsThePseudocode :
    batchEdge.bdec.enabled = true ∧ batchEdge.bdec.batchMode .bdec = true := by decide

theorem witness_TailStepIsTheScalarStep :
    let s := bdecAt [0x157D1008] 15 ⟨0, 0, 0⟩
    s.bdec.enabled = true ∧ s.bdec.tail = true ∧
      s.swapDecs.decoderStep .sdec = .next (landed (s.swapDecs.decoderStep .sdec)) :=
  ⟨by decide, by decide, next_landed (by decide)⟩

/-- `k = 32` with one bit missing, and with all bits there. -/
theorem witness_OneRefillIsEnough :
    BB.need ⟨0, 31, 1⟩ (midA.wordAt .sdec) 3 32 = .ok (BB.pulled ⟨0, 31, 1⟩ 0x8B87BD5B) ∧
      BB.need ⟨0, 32, 1⟩ (midA.wordAt .sdec) 3 32 = .ok ⟨0, 32, 1⟩ := by decide

/-- `k` equal to `NAVAIL`. -/
theorem witness_ReadTakesTheStreamsBits :
    midA.sdec.bb.Inv 3 ∧ midA.sdec.bb.Holds midA.words ∧ 13 ≤ 32 ∧ 13 ≤ midA.sdec.bb.navail.toNat :=
  ⟨midA_holds.1, midA_holds.2, by decide, by decide⟩

/-- Each record with exactly its bits left. -/
theorem witness_RecordsDecodeToTheirPayload :
    ((sdecAt ⟨0, 6, 1⟩).recordReady .c0 ∧ (sdecAt ⟨0, 6, 1⟩).sdec.bb.Inv 1) ∧
      ((sdecAt ⟨0, 13, 1⟩).recordReady .c1 ∧ (sdecAt ⟨0, 13, 1⟩).sdec.bb.Inv 1) ∧
      ((sdecAt ⟨0, 26, 1⟩).recordReady .c2 ∧ (sdecAt ⟨0, 26, 1⟩).sdec.bb.Inv 1) ∧
      ((inProgramA ⟨0, 2, 2⟩).recordReady .c3 ∧ (inProgramA ⟨0, 2, 2⟩).sdec.bb.Inv 3 ∧
        (inProgramA ⟨0, 2, 2⟩).sdec.bitsLeft = 34) := by
  unfold State.recordReady State.bitsReady BB.Inv; decide

/-- One bit too few for the record (the tag there), for the tag, and for the window. -/
theorem witness_RecordWithoutBitsTakesWordUnderrun :
    (∀ n ∈ [1, 5], (sdecAt ⟨0, n, 1⟩).sdec.enabled = true ∧ (sdecAt ⟨0, n, 1⟩).sdec.bb.Inv 1 ∧
        (sdecAt ⟨0, n, 1⟩).sdec.wordCount.toNat ≤ (sdecAt ⟨0, n, 1⟩).wmemCap ∧
        (sdecAt ⟨0, n, 1⟩).sdec.bitsLeft < WClass.c0.recLen) ∧
      (Instr.recC0 5).recClass = some .c0 ∧
      (bdecAt [0] 16 ⟨0, 31, 1⟩).bdec.enabled = true ∧ (bdecAt [0] 16 ⟨0, 31, 1⟩).bdec.bb.Inv 1 ∧
      (bdecAt [0] 16 ⟨0, 31, 1⟩).bdec.wordCount.toNat ≤ (bdecAt [0] 16 ⟨0, 31, 1⟩).wmemCap ∧
      (bdecAt [0] 16 ⟨0, 31, 1⟩).bdec.batchMode .bdec = true ∧ (bdecAt [0] 16 ⟨0, 31, 1⟩).bdec.bitsLeft < 32 := by
  unfold BB.Inv; decide

theorem witness_RecordStepFrame :
    (Instr.recC2 70000).recClass = some .c2 ∧
      exec (.recC2 70000) midA = .next (landed (exec (.recC2 70000) midA)) :=
  ⟨rfl, next_landed (by decide)⟩

/-- The slot `OCUR` is the first that does not exist. -/
theorem witness_RecordBeyondVoutSticks :
    let s := { midA with sdec := { midA.sdec with voutCap := 0 } }
    (Instr.recC2 70000).recClass = some .c2 ∧ (s.dec s.actor).enabled = true ∧ s.bitsReady s.actor WClass.c2.recLen ∧
      (s.dec s.actor).voutCap ≤ (s.dec s.actor).ocur.toNat := by
  unfold State.bitsReady; decide

theorem witness_StepNotEnabledChangesNothing :
    (Instr.recC0 5).recClass = some .c0 ∧ (State.reset.dec State.reset.actor).enabled = false ∧
      (Instr.pat9 9 0).isPattern = true ∧ State.reset.bdec.enabled = false ∧
      (bdecAt [0] 15 ⟨0, 0, 0⟩).bdec.batchMode .bdec = false := by decide

theorem witness_patternReady : batchEdge.patternReady := by
  unfold State.patternReady State.bitsReady; decide

theorem witness_FourValuePatternsDecode :
    batchEdge.patternReady ∧ batchEdge.bdec.bb.Inv batchEdge.bdec.wordCount := ⟨witness_patternReady, batchEdge_inv⟩

theorem witness_ThreeValuePatternsDecode :
    batchEdge.patternReady ∧ batchEdge.bdec.bb.Inv batchEdge.bdec.wordCount := ⟨witness_patternReady, batchEdge_inv⟩

theorem witness_TwoValuePatternsDecode :
    batchEdge.patternReady ∧ batchEdge.bdec.bb.Inv batchEdge.bdec.wordCount := ⟨witness_patternReady, batchEdge_inv⟩

theorem witness_OneValuePatternsDecode :
    batchEdge.patternReady ∧ batchEdge.bdec.bb.Inv batchEdge.bdec.wordCount := ⟨witness_patternReady, batchEdge_inv⟩

theorem witness_PatternWithoutWindowTakesWordUnderrun :
    let s := bdecAt [0] 16 ⟨0, 31, 1⟩
    (Instr.pat9 9 0).isPattern = true ∧ s.bdec.enabled = true ∧ s.bdec.batchMode .bdec = true ∧
      s.bdec.bitsLeft < Config.windowBits := by decide

theorem witness_PatternStepFrame :
    (Instr.pat0 9 3 12 6 4).isPattern = true ∧
      exec (.pat0 9 3 12 6 4) batchEdge = .next (landed (exec (.pat0 9 3 12 6 4) batchEdge)) :=
  ⟨rfl, next_landed (by decide)⟩

/-- The fourth slot is the first that does not exist. -/
theorem witness_PatternBeyondVoutSticks :
    let s := { batchEdge with bdec := { batchEdge.bdec with voutCap := 3 } }
    (Instr.pat9 9 0).isPattern = true ∧ s.bdec.enabled = true ∧ s.bdec.batchMode .bdec = true ∧
      s.bitsReady .bdec Config.windowBits ∧ s.bdec.voutCap ≤ s.bdec.ocur.toNat + 3 := by
  unfold State.bitsReady; decide

/-- A push of two words that just fit, and one of no word where no word fits. -/
theorem witness_PushAppendsTheRecordOfItsValue :
    let s := { encAt 0x1041041 30 with wmemCap := 2 }
    let t := { encAt 0 0 with wmemCap := 0 }
    (s.enc.accepts = true ∧ s.enc.Inv ∧ (0 < s.pushWords 0xFFFFFFFF →
        s.enc.wcount.toNat + s.pushWords 0xFFFFFFFF ≤ s.wmemCap ∧
          s.enc.wcount.toNat + s.pushWords 0xFFFFFFFF < 2 ^ 64)) ∧
      (t.enc.accepts = true ∧ t.enc.Inv ∧ (0 < t.pushWords 5 →
        t.enc.wcount.toNat + t.pushWords 5 ≤ t.wmemCap ∧ t.enc.wcount.toNat + t.pushWords 5 < 2 ^ 64)) := by
  unfold Enc.Inv; decide

theorem witness_FinishEmitsThePendingBits :
    let s := { encAt 0xBE8 13 with wmemCap := 1 }
    let t := { encAt 0 0 with wmemCap := 0 }
    (s.enc.accepts = true ∧ s.enc.Inv ∧ s.enc.nbits ≠ 0 ∧ s.enc.wcount.toNat < s.wmemCap) ∧
      t.enc.accepts = true ∧ t.enc.Inv ∧ t.enc.nbits = 0 := by
  unfold Enc.Inv; decide

theorem witness_EncStoreFrame :
    let s := encAt 0x1041041 30
    exec (.encPush 3) s = .next (landed (exec (.encPush 3) s)) ∧
      (landed (exec (.encPush 3) s)).enc.wcount = s.enc.wcount + 1 ∧
      exec .encFinish s = .next (landed (exec .encFinish s)) :=
  ⟨next_landed (by decide), by decide, next_landed (by decide)⟩

/-- The second of two words does not exist; the finish's word does not exist; a stuck ENC. -/
theorem witness_EncBeyondWmemSticksUntilStart :
    let s := { encAt 0x1041041 30 with wmemCap := 1 }
    let t := { encAt 0x1041041 30 with wmemCap := 0 }
    (s.enc.accepts = true ∧ s.enc.Inv ∧ 0 < s.pushWords 0xFFFFFFFF ∧
        s.wmemCap < s.enc.wcount.toNat + s.pushWords 0xFFFFFFFF ∧ s.enc.wcount.toNat + 2 < 2 ^ 64) ∧
      (t.enc.accepts = true ∧ t.enc.Inv ∧ t.enc.nbits ≠ 0 ∧ t.wmemCap ≤ t.enc.wcount.toNat) ∧
      s.stickEnc.enc.stuck = true := by
  unfold Enc.Inv; decide

/-- The last word of the run of program A. -/
theorem witness_WriteUnderARunningDecoderFreesItsWords :
    let s := { midA with inputs := [⟨false, .writeWord 2 0xFFFFFFFF⟩] }
    s.inputs = ⟨false, .writeWord 2 0xFFFFFFFF⟩ :: [] ∧ (2 : Count).toNat < s.wmemCap ∧ (s.dec .sdec).state = .run ∧
      (2 : Count).toNat < (s.dec .sdec).wordCount.toNat := by decide

theorem midA_inv : midA.Inv := by
  refine ⟨by unfold Enc.Inv; decide, ?_, ?_, by decide, by decide, by decide, fun d => ?_⟩
  · refine ⟨midA_holds.1, ?_⟩; decide
  · refine ⟨by unfold BB.Inv; decide, ?_⟩; decide
  · cases d
    · exact fun _ _ => ⟨midA_holds.2, by decide⟩
    · intro h; exact absurd h (by decide)

theorem witness_EveryStepKeepsTheInvariant : midA.Inv ∧ step midA = .next (landed (step midA)) :=
  ⟨midA_inv, next_landed (by decide)⟩

theorem witness_DecodersDoNotAffectEachOther :
    midA.decoderStep .sdec = .next (landed (midA.decoderStep .sdec)) := next_landed (by decide)

theorem witness_EveryDecoderStepMakesProgress :
    (midA.dec .sdec).Inv ∧ (midA.dec .sdec).enabled = true ∧
      midA.decoderStep .sdec = .next (landed (midA.decoderStep .sdec)) :=
  ⟨midA_inv.2.1, by decide, next_landed (by decide)⟩

theorem witness_BatchStepStaysInsideTheOutput :
    batchEdge.bdec.Inv ∧ batchEdge.bdec.enabled = true ∧ batchEdge.bdec.batchMode .bdec = true ∧
      batchEdge.decoderStep .bdec = .next (landed (batchEdge.decoderStep .bdec)) := by
  refine ⟨⟨batchEdge_inv, ?_⟩, by decide, by decide, next_landed (by decide)⟩
  decide

/-- The capacity is exactly the words of the stream. -/
theorem witness_EncodeWritesTheStreamOfItsValues :
    wordsFor (streamOf [5, 1000, 70000]).length ≤ ({ State.reset with wmemCap := 2 } : State).wmemCap ∧
      wordsFor (streamOf [5, 1000, 70000]).length < 2 ^ 64 ∧ wordsFor (streamOf [5, 1000, 70000]).length = 2 := by decide

/-- Program A: exactly its five values, in exactly its words. -/
theorem witness_SdecRunDecodesTheParse :
    let s := { State.reset with
      wmem := [(0, 0x157D1008), (1, 0x8B87BD5B), (2, 0x7DDE0000)], wmemCap := 3 }
    s.sdec.state ≠ .run ∧ s.encOwns 3 = false ∧ (3 : Count).toNat ≤ s.wmemCap ∧ (5 : Count).toNat ≤ s.sdec.voutCap ∧
      recordStart s.words (5 : Count).toNat ≤ 32 * (3 : Count).toNat := by decide

theorem witness_ScalarRoundTrip :
    let s := { State.reset with wmemCap := 2, sdec := { State.reset.sdec with voutCap := 3 } }
    s.sdec.state ≠ .run ∧ ([5, 1000, 70000] : List Word).length < 2 ^ 64 ∧
      wordsFor (streamOf [5, 1000, 70000]).length ≤ s.wmemCap ∧
      wordsFor (streamOf [5, 1000, 70000]).length < 2 ^ 64 ∧
      ([5, 1000, 70000] : List Word).length ≤ s.sdec.voutCap := by decide

/-- The word count itself, and one larger (R290 H2). -/
theorem witness_ScalarRoundTrip_wordCount :
    let s := { State.reset with wmemCap := 3 }
    let t := landed (runInstrs (encodeCommands [5, 1000, 70000]) s)
    runInstrs (encodeCommands [5, 1000, 70000]) s = .next t ∧ t.enc.wcount ≤ 2 ∧ (2 : Count).toNat ≤ s.wmemCap ∧
      t.enc.wcount ≤ 3 ∧ (3 : Count).toNat ≤ s.wmemCap :=
  ⟨next_landed (by decide), by decide, by decide, by decide, by decide⟩

theorem witness_BatchedRoundTrip :
    let s := { State.reset with wmemCap := 4, bdec := { State.reset.bdec with voutCap := 20 } }
    s.bdec.state ≠ .run ∧ (List.replicate 20 (0 : Word)).length < 2 ^ 64 ∧
      wordsFor (streamOf (List.replicate 20 0)).length ≤ s.wmemCap ∧
      wordsFor (streamOf (List.replicate 20 0)).length < 2 ^ 64 ∧
      (List.replicate 20 (0 : Word)).length ≤ s.bdec.voutCap :=
  ⟨by decide, by decide, by decide, by decide, by decide⟩

/-- A run that ends in `DONE`, and one that ends in `FAULT`. -/
theorem witness_BatchedDecoderAgreesWithScalar :
    let s := { State.reset with wmem := [(0, 0x04104104)] }
    s.sdec.state ≠ .run ∧ s.bdec.state ≠ .run ∧ (1 : Count).toNat ≤ s.wmemCap ∧ (6 : Count).toNat ≤ s.sdec.voutCap ∧
      (6 : Count).toNat ≤ s.bdec.voutCap ∧
      (∀ vc ∈ [5, 6], (s.startDec .sdec 1 (BitVec.ofNat 64 vc)).decSteps .sdec vc =
        .next (landed ((s.startDec .sdec 1 (BitVec.ofNat 64 vc)).decSteps .sdec vc))) ∧
      (landed ((s.startDec .sdec 1 5).decSteps .sdec 5)).sdec.state = .done ∧
      (landed ((s.startDec .sdec 1 6).decSteps .sdec 6)).sdec.state = .fault := by
  refine ⟨by decide, by decide, by decide, by decide, by decide, fun vc h => next_landed ?_, by decide, by decide⟩
  revert vc; decide

/-- Two machines that differ in the two pad bits of their one word. -/
theorem witness_DecodedValuesIgnorePadBits :
    let s := { State.reset with wmem := [(0, 0x04104104)] }
    let s' := { State.reset with wmem := [(0, 0x04104107)] }
    s.sdec.state ≠ .run ∧ s'.sdec.state ≠ .run ∧ s.encOwns 1 = false ∧ s'.encOwns 1 = false ∧
      (1 : Count).toNat ≤ s.wmemCap ∧ (1 : Count).toNat ≤ s'.wmemCap ∧
      (5 : Count).toNat ≤ s.sdec.voutCap ∧ (5 : Count).toNat ≤ s'.sdec.voutCap ∧
      recordStart s.words (5 : Count).toNat ≤ 32 * (1 : Count).toNat ∧
      (∀ p, p < recordStart s.words (5 : Count).toNat → streamBit s'.words p = streamBit s.words p) ∧
      (s.startDec .sdec 1 5).decSteps .sdec 5 = .next (landed ((s.startDec .sdec 1 5).decSteps .sdec 5)) ∧
      (s'.startDec .sdec 1 5).decSteps .sdec 5 = .next (landed ((s'.startDec .sdec 1 5).decSteps .sdec 5)) :=
  ⟨by decide, by decide, by decide, by decide, by decide, by decide, by decide, by decide, by decide, by decide,
    next_landed (by decide), next_landed (by decide)⟩

end Sys2Proof.Tests
end

section
/-! PROOFS. The class of a value by its leading zeros and by its range (R14, R121), and the step on a command at the port
(R109). -/

namespace Sys2Proof.Machine

/-! ## Leading zeros -/

theorem clzBelow_le (v : Word) (n : Nat) : clzBelow v n ≤ n := by
  induction n with
  | zero => exact Nat.le_refl 0
  | succ n ih =>
    rw [clzBelow]
    split
    · exact Nat.zero_le _
    · exact Nat.succ_le_succ ih

theorem clz32_le (v : Word) : clz32 v ≤ 32 := clzBelow_le v 32

/-- The leading zeros among the low `n` bits reach down to bit `w` exactly when bits `w` to `n - 1` are zero. -/
theorem le_clzBelow_iff (v : Word) {w n : Nat} (h : w ≤ n) :
    n - w ≤ clzBelow v n ↔ ∀ i, w ≤ i → i < n → v.getLsbD i = false := by
  induction n, h using Nat.le_induction with
  | base => simp only [Nat.sub_self, Nat.zero_le, true_iff]; omega
  | succ n hwn ih =>
    cases hbit : v.getLsbD n with
    | true =>
      have hone : ¬ ∀ i, w ≤ i → i < n + 1 → v.getLsbD i = false := fun hz => by
        simpa [hbit] using hz n hwn (Nat.lt_succ_self n)
      simp only [clzBelow, hbit, if_true, hone, iff_false]
      omega
    | false =>
      have hsucc : n + 1 - w ≤ clzBelow v n + 1 ↔ n - w ≤ clzBelow v n := by omega
      simp only [clzBelow, hbit, Bool.false_eq_true, if_false, hsucc, ih]
      constructor
      · intro hz i hwi hin
        rcases Nat.lt_succ_iff_lt_or_eq.mp hin with hlt | rfl
        · exact hz i hwi hlt
        · exact hbit
      · exact fun hz i hwi hin => hz i hwi (Nat.lt_succ_of_lt hin)

/-- R121's inference from R14: at least `32 - w` leading zeros are a value below `2^w`. -/
theorem le_clz32_iff (v : Word) {w : Nat} (h : w ≤ 32) : 32 - w ≤ clz32 v ↔ v.toNat < 2 ^ w := by
  rw [clz32, le_clzBelow_iff v h]
  constructor
  · intro hz
    refine toNat_lt_of_bits fun i hwi => ?_
    rcases Nat.lt_or_ge i 32 with hi | hi
    · exact hz i hwi hi
    · exact BitVec.getLsbD_of_ge v i hi
  · exact fun hv i hwi _ => getLsbD_of_toNat_lt hv hwi

/-! ## The class of a value -/

/-- R121, the column of values: each bound of `CLZ2CLASS` is the bound of a class's width. -/
theorem classOf_eq_of_value (v : Word) :
    classOf v =
      if v.toNat < 16 then .c0 else if v.toNat < 2048 then .c1 else if v.toNat < 16777216 then .c2 else .c3 := by
  have h0 : 28 ≤ clz32 v ↔ v.toNat < 16 := le_clz32_iff v (w := 4) (by decide)
  have h1 : 21 ≤ clz32 v ↔ v.toNat < 2048 := le_clz32_iff v (w := 11) (by decide)
  have h2 : 8 ≤ clz32 v ↔ v.toNat < 16777216 := le_clz32_iff v (w := 24) (by decide)
  simp only [classOf, clz2class, h0, h1, h2]

/-- R121, the columns of the tag and of the width, along the leading zeros. -/
theorem clz2class_tag_width (z : Nat) :
    ((clz2class z).tag, (clz2class z).width) =
      if 28 ≤ z then (0b00#2, 4) else if 21 ≤ z then (0b01#2, 11) else if 8 ≤ z then (0b10#2, 24) else (0b11#2, 32) := by
  simp only [clz2class, apply_ite WClass.tag, apply_ite WClass.width]
  split_ifs <;> rfl

theorem toNat_lt_two_pow_classOf_width (v : Word) : v.toNat < 2 ^ (classOf v).width := by
  rw [classOf_eq_of_value]
  split_ifs with h0 h1 h2
  · exact h0
  · exact h1
  · exact h2
  · exact v.isLt

/-- Settles O8: the leading-zero bounds are value bounds (`le_clz32_iff`), so the two readings of the table agree. -/
theorem classByValueAndByLeadingZeros : Obligations.ClassByValueAndByLeadingZeros := fun v =>
  ⟨classOf_eq_of_value v, clz32_le v, fun _ h => le_clz32_iff v h, clz2class_tag_width (clz32 v),
    toNat_lt_two_pow_classOf_width v⟩

/-! ## The step on an entry of the host's timeline -/

theorem step_of_input {s : State} {inp : Input} {later : List Input} (h : s.inputs = inp :: later) :
    step s = ({ s with inputs := later }).inputStep inp := by
  simp only [step, State.timeStep, h]

@[simp] theorem State.inputStep_command (s : State) (c : CommandWord) :
    s.inputStep ⟨false, .command c⟩ = s.commandStep c := rfl

theorem State.commandStep_of_ok {c : CommandWord} {i : Instr} (h : decodeCommand c = .ok i) (s : State) :
    s.commandStep c = exec i s := by
  simp only [State.commandStep, h]

/-- Settles O20: the entry is taken, its action is a command, the command decodes. -/
theorem stepRunsTheCommandAtThePort : Obligations.StepRunsTheCommandAtThePort := by
  intro s c later i hin hdec
  calc step s = ({ s with inputs := later }).inputStep ⟨false, .command c⟩ := step_of_input hin
    _ = ({ s with inputs := later }).commandStep c := State.inputStep_command _ c
    _ = exec i { s with inputs := later } := State.commandStep_of_ok hdec _

end Sys2Proof.Machine
end

section
/-! PROOFS. The pattern table (R202, R203, R237), the refill (R157), the machine invariant at RESET (R49, R280) and under
every step (R22, R23, R29, R36 to R38, R136, R156, R253). -/

namespace Sys2Proof.Machine

/-! ## The pattern table (R202, R203, R237) -/

/-- The construction (R202) takes the entries in the order of the table (R203, D10). -/
theorem builtTable_eq : builtTable = patTable := by decide

theorem patTable_wf : ∀ e ∈ patTable, e.wf = true := by decide

/-- R205 check (a). -/
theorem patTable_disjoint : tableDisjoint patTable = true := by decide

/-- R205 check (b). -/
theorem patTable_covers : tableCovers patTable = true := by decide

/-- R206 on the windows of every layout whose untested bits are all 0 or all 1. -/
theorem patTable_agreesWithScalar :
    (patTable.all fun e => agreesWithScalar e.expect && agreesWithScalar (e.expect ||| ~~~e.mask)) = true := by decide

theorem patTable_validated : tableValidated patTable = true := by
  simp only [tableValidated, patTable_disjoint, patTable_covers, patTable_agreesWithScalar, Bool.and_self]

/-- Settles O9: finite checks on the sixteen constant entries. -/
theorem constructionYieldsTheTable : Obligations.ConstructionYieldsTheTable :=
  ⟨builtTable_eq, rfl, patTable_wf, patTable_validated⟩

/-! ## The refill (R153, R157) -/

/-- Settles O30: `need` either had the bits or pulled one word (`BB.need_ok`); a pull happens below 32 bits, so the buffer
ends below 64. -/
theorem oneRefillIsEnough : Obligations.OneRefillIsEnough := by
  intro bb b src wc k hk h
  obtain ⟨henough, -, hpos, -⟩ := BB.need_spec hk h
  refine ⟨henough, hpos, ?_⟩
  rcases BB.need_ok h with hthere | ⟨hfew, hwidx, w, hsrc, rfl⟩
  · exact .inl hthere
  · have hnavail := bb.pulled_navail_toNat w (by omega)
    exact .inr ⟨hfew, by omega, ⟨w, hsrc, rfl⟩, bb.pulled_widx_toNat w hwidx, hnavail, by omega, by omega⟩

/-! ## RESET (R49, R280, R281) -/

@[simp] theorem State.inputStep_reset (s : State) (a : HostAction) : s.inputStep ⟨true, a⟩ = .next s.resetRegisters := rfl

theorem State.resetRegisters_dec (s : State) (d : DecId) :
    s.resetRegisters.dec d = Dec.resetOver (s.dec d).vout (s.dec d).voutCap := by
  cases d <;> rfl

/-- Settles O12: the entry's `RESET` runs `State.resetRegisters`, whatever the action beside it. -/
theorem resetPutsEveryRegisterAtItsResetValue : Obligations.ResetPutsEveryRegisterAtItsResetValue := by
  intro s a later hin
  refine ⟨({ s with inputs := later }).resetRegisters, ?_, rfl, ⟨rfl, rfl, rfl, rfl, rfl, rfl⟩, fun d => ?_, rfl,
    fun d => ?_, rfl⟩
  · rw [step_of_input hin, State.inputStep_reset]
  · rw [State.resetRegisters_dec]
    exact ⟨rfl, rfl, rfl, rfl, rfl, rfl, rfl, rfl⟩
  · rw [State.resetRegisters_dec, State.dec_withInputs]
    exact ⟨rfl, rfl⟩

/-! ## The invariant, part by part -/

/-- A decoder's registers meet its invariant and, in a run of whose words a claim is made, its bit buffer holds the stream
`words` (R156 d). -/
def Dec.Sound (x : Dec) (words : Nat → Word) : Prop :=
  x.Inv ∧ (x.state = .run → x.taint = none → x.bb.Holds words)

/-- An encode under way has written no word yet, unless the decoder's run makes no claim or reads no word (R288, R289). -/
def Enc.SparesRun (e : Enc) (x : Dec) : Prop :=
  x.state = .run → x.taint = none → e.state = .busy → x.wordCount.toNat = 0 ∨ e.wcount.toNat = 0

/-- `State.Inv`, the same for each decoder. -/
structure State.InvParts (s : State) : Prop where
  enc : s.enc.Inv
  wf : s.wmem.wf = true
  within : s.wmem.within s.wmemCap = true
  sorted : s.unfinished.Pairwise (· < ·)
  sound : ∀ d, (s.dec d).Sound s.words
  spares : ∀ d, s.enc.SparesRun (s.dec d)

theorem State.inv_iff (s : State) : s.Inv ↔ s.InvParts := by
  constructor
  · rintro ⟨henc, hsdec, hbdec, hwf, hwithin, hsorted, hclaim⟩
    have hdec : ∀ d, (s.dec d).Inv := fun d => by
      cases d
      · exact hsdec
      · exact hbdec
    exact ⟨henc, hwf, hwithin, hsorted, fun d => ⟨hdec d, fun hr ht => (hclaim d hr ht).1⟩,
      fun d hr ht => (hclaim d hr ht).2⟩
  · rintro ⟨henc, hwf, hwithin, hsorted, hsound, hspares⟩
    exact ⟨henc, (hsound .sdec).1, (hsound .bdec).1, hwf, hwithin, hsorted,
      fun d hr ht => ⟨(hsound d).2 hr ht, hspares d hr ht⟩⟩

theorem Dec.Sound.of_not_run {x : Dec} {words : Nat → Word} (h : x.Inv) (hr : x.state ≠ .run) : x.Sound words :=
  ⟨h, fun hrun => absurd hrun hr⟩

theorem Enc.SparesRun.of_not_run {e : Enc} {x : Dec} (hr : x.state ≠ .run) : e.SparesRun x := fun h => absurd h hr

/-! ## The invariant at RESET -/

theorem Enc.reset_inv : Enc.reset.Inv := by
  unfold Enc.Inv
  decide

theorem BB.reset_inv (wc : Count) : BB.reset.Inv wc :=
  ⟨fun _ _ => BitVec.getLsbD_zero, Nat.zero_le _, Nat.zero_le _⟩

theorem BB.reset_holds (words : Nat → Word) : BB.reset.Holds words := fun t ht => absurd ht (Nat.not_lt_zero t)

theorem Dec.resetOver_inv {vout : Mem} {cap : Nat} (hwf : vout.wf = true) (hcap : vout.within cap = true) :
    (Dec.resetOver vout cap).Inv := by
  refine ⟨BB.reset_inv _, BitVec.le_refl _, ?_, ?_, ?_, ?_, ?_, hwf, hcap⟩ <;> simp [Dec.resetOver]

/-- RESET needs of the state before it only the memories' form and the capacities. -/
theorem State.resetRegisters_invParts {s : State} (hwf : s.wmem.wf = true) (hwithin : s.wmem.within s.wmemCap = true)
    (hsorted : s.unfinished.Pairwise (· < ·))
    (hvout : ∀ d, (s.dec d).vout.wf = true ∧ (s.dec d).vout.within (s.dec d).voutCap = true) :
    s.resetRegisters.InvParts where
  enc := Enc.reset_inv
  wf := hwf
  within := hwithin
  sorted := hsorted
  sound d := by
    rw [State.resetRegisters_dec]
    exact .of_not_run (Dec.resetOver_inv (hvout d).1 (hvout d).2) (by simp [Dec.resetOver])
  spares d := by
    rw [State.resetRegisters_dec]
    exact .of_not_run (by simp [Dec.resetOver])

/-- Settles O50: the state after reset is the reset of itself, its memories empty. -/
theorem invariantHoldsAtReset : Obligations.InvariantHoldsAtReset :=
  (State.inv_iff State.reset).2 <| State.resetRegisters_invParts (s := State.reset) rfl rfl .nil fun d => by
    cases d <;> exact ⟨rfl, rfl⟩

theorem State.InvParts.resetRegisters {s : State} (h : s.InvParts) : s.resetRegisters.InvParts :=
  State.resetRegisters_invParts h.wf h.within h.sorted fun d => by
    obtain ⟨-, -, -, -, -, -, -, hwf, hcap⟩ := (h.sound d).1
    exact ⟨hwf, hcap⟩

/-! ## A decoder's registers under its own step -/

/-- A decoder behind a step that left the bit buffer `bb`, wrote the slots `vs` from `OCUR` on and decoded `n` values
(R172, R192): what `Dec.storeValue` and `Dec.storeLanes` leave where the slots exist. -/
def Dec.decoded (x : Dec) (bb : BB) (vs : List Word) (n : Nat) : Dec :=
  { x with
    bb := bb
    vout := x.vout.writeAll x.ocur.toNat vs
    ocur := x.ocur + BitVec.ofNat 64 n
    state := if x.ocur + BitVec.ofNat 64 n = x.valueCount then .done else x.state }

theorem Dec.storeValue_eq_decoded (x : Dec) (bb : BB) (v : Word) :
    x.storeValue bb v = if x.ocur.toNat < x.voutCap then x.decoded bb [v] 1 else x.stick := Dec.storeValue_eq x bb v

theorem Dec.storeLanes_eq_decoded (x : Dec) (e : PatEntry) (bb : BB) (v : Lanes4 Word) :
    x.storeLanes e bb v =
      if x.ocur.toNat + 3 < x.voutCap then x.decoded (bb.consume e.consumed) [v.l0, v.l1, v.l2, v.l3] e.count
      else x.stick := Dec.storeLanes_eq x e bb v

theorem Dec.enabled_iff (x : Dec) : x.enabled = true ↔ x.state = .run ∧ x.stuck = false := by
  simp [Dec.enabled]

/-- R36: while it runs, a decoder has a value to decode. -/
theorem Dec.Inv.ocur_lt {x : Dec} (h : x.Inv) (hr : x.state = .run) : x.ocur.toNat < x.valueCount.toNat := by
  obtain ⟨-, -, hrun, -⟩ := h
  exact hrun hr

theorem Dec.Inv.stick {x : Dec} (h : x.Inv) (hr : x.state = .run) : x.stick.Inv := by
  obtain ⟨hbb, hle, hrun, hdone, hcode, hfault, -, hwf, hcap⟩ := h
  exact ⟨hbb, hle, hrun, hdone, hcode, hfault, fun _ => hr, hwf, hcap⟩

/-- R253: the words have run out, so `WIDX = WORD_COUNT`. -/
theorem Dec.Inv.raiseUnderrun {x : Dec} {bb : BB} (h : x.Inv) (hen : x.enabled = true) (hi : bb.Inv x.wordCount)
    (hout : x.wordCount.toNat ≤ bb.widx.toNat) : ({ x with bb := bb }).raiseUnderrun.Inv := by
  obtain ⟨-, hle, -, -, -, -, -, hwf, hcap⟩ := h
  have hstuck := ((Dec.enabled_iff x).1 hen).2
  have ⟨_, _, hwidx⟩ := hi
  have hall : bb.widx = x.wordCount := BitVec.le_antisymm hwidx hout
  refine ⟨hi, hle, ?_, ?_, ?_, fun _ => hall, ?_, hwf, hcap⟩ <;> simp [hstuck]

/-- R36, R37: `OCUR` moves within `VALUE_COUNT`, and the `DONE` test finds it there. -/
theorem Dec.Inv.decoded {x : Dec} {bb : BB} {vs : List Word} {n : Nat} (h : x.Inv) (hen : x.enabled = true)
    (hbb : bb.Inv x.wordCount) (hroom : x.ocur.toNat + n ≤ x.valueCount.toNat)
    (hslots : x.ocur.toNat + vs.length ≤ x.voutCap) : (x.decoded bb vs n).Inv := by
  obtain ⟨-, -, -, -, hcode, -, -, hwf, hcap⟩ := h
  obtain ⟨hr, hstuck⟩ := (Dec.enabled_iff x).1 hen
  have hvc := x.valueCount.isLt
  have hocur : (x.ocur + BitVec.ofNat 64 n).toNat = x.ocur.toNat + n := by
    rw [BitVec.toNat_add, BitVec.toNat_ofNat]
    omega
  have hle : x.ocur + BitVec.ofNat 64 n ≤ x.valueCount := by
    rw [BitVec.le_def, hocur]
    exact hroom
  refine ⟨hbb, hle, fun hrun => ?_, fun hdone => ?_, ?_, fun hfault => ?_, fun hs => ?_, Mem.wf_writeAll vs _ _ hwf,
    Mem.within_writeAll vs _ hslots hcap⟩
  · have hne : x.ocur + BitVec.ofNat 64 n ≠ x.valueCount := fun heq => by simp [Dec.decoded, heq] at hrun
    exact Nat.lt_of_le_of_ne hle fun heq => hne (BitVec.eq_of_toNat_eq heq)
  · by_contra hne
    simp [Dec.decoded, hr, show ¬ x.ocur + BitVec.ofNat 64 n = x.valueCount from hne] at hdone
  · rw [hr] at hcode
    simp only [Dec.decoded, hcode, hr]
    split <;> simp
  · simp only [Dec.decoded, hr] at hfault
    split at hfault <;> cases hfault
  · exact absurd hs (by simp [Dec.decoded, hstuck])

/-- R193: a batch-mode step has at least `MARGIN` values to decode. -/
theorem Dec.Inv.batch_room {x : Dec} {d : DecId} (h : x.Inv) (hb : x.batchMode d = true) :
    x.ocur.toNat + 16 ≤ x.valueCount.toNat := by
  obtain ⟨-, hle, -⟩ := h
  have hrem : x.remaining.toNat = x.valueCount.toNat - x.ocur.toNat := BitVec.toNat_sub_of_le hle
  obtain ⟨-, hmargin⟩ : d = .bdec ∧ Config.margin ≤ x.remaining.toNat := by simpa [Dec.batchMode, Dec.tail] using hb
  rw [Config.margin] at hmargin
  omega

theorem patTable_getD_mem {k : Nat} (h : k < 16) : patTable.getD k pt0 ∈ patTable := by
  rw [List.getD_eq_getElem patTable pt0 h]
  exact List.getElem_mem _

/-- A decoder's step keeps its START operands, its run's note and its capacity. -/
theorem StepEnd.sameRun {s : State} {d : DecId} {x : Dec} (h : StepEnd s d x) : (s.dec d).sameRun x := by
  cases h with
  | record b b' t p =>
    rw [Dec.storeValue_eq_decoded]
    split <;> exact ⟨rfl, rfl, rfl, rfl⟩
  | lanes b k =>
    rw [Dec.storeLanes_eq_decoded]
    split <;> exact ⟨rfl, rfl, rfl, rfl⟩
  | windowUnderrun => exact ⟨rfl, rfl, rfl, rfl⟩
  | recordUnderrun => exact ⟨rfl, rfl, rfl, rfl⟩

theorem Dec.Sound.stick {x : Dec} {words : Nat → Word} (h : x.Sound words) (hr : x.state = .run) : x.stick.Sound words :=
  ⟨h.1.stick hr, h.2⟩

/-- Every way a decoder's step can end keeps its invariant, and the stream in its bit buffer. -/
theorem StepEnd.sound {s : State} {d : DecId} {x : Dec} (h : StepEnd s d x) (hen : (s.dec d).enabled = true)
    (hs : (s.dec d).Sound s.words) : x.Sound s.words := by
  obtain ⟨hinv, hholds⟩ := hs
  have hbb : (s.dec d).bb.Inv (s.dec d).wordCount := hinv.1
  have hr : (s.dec d).state = .run := ((Dec.enabled_iff _).1 hen).1
  have hsrc : (s.dec d).taint = none → ∀ i w, s.wordAt d i = some w → w = s.words i :=
    fun ht _ _ => State.wordAt_words ht
  cases h with
  | record b b' t p hw hk hrec =>
    obtain ⟨-, -, hfill, -, hfillHolds⟩ := Dec.windowFill_spec hw
    obtain ⟨-, -, hpass, hpassHolds⟩ := BB.passRecord_spec (BB.record_value hrec)
    rw [Dec.storeValue_eq_decoded]
    split
    · next hslot =>
      refine ⟨hinv.decoded hen (hpass (hfill hbb)).1 (hinv.ocur_lt hr) hslot, fun _ ht => ?_⟩
      exact hpassHolds _ (hsrc ht) (hfill hbb) (hfillHolds _ (hsrc ht) hbb (hholds hr ht))
    · exact Dec.Sound.stick ⟨hinv, hholds⟩ hr
  | lanes b k hb hw hk =>
    obtain ⟨-, -, hfill, hwin, hfillHolds⟩ := Dec.windowFill_spec hw
    obtain ⟨-, hcount, -, hconsumed⟩ := patTable_bounds (patTable_getD_mem (match_of_kselect hk).1)
    have hbits : (patTable.getD k pt0).consumed ≤ b.navail.toNat := hconsumed.trans (hwin hb)
    obtain ⟨-, -, hconsume⟩ := BB.consume_spec (wc := (s.dec d).wordCount) hbits
    have hroom := hinv.batch_room hb
    rw [Dec.storeLanes_eq_decoded]
    split
    · next hslots =>
      refine ⟨hinv.decoded hen (hconsume (hfill hbb)) (by omega) hslots, fun _ ht => ?_⟩
      exact (hfillHolds _ (hsrc ht) hbb (hholds hr ht)).consume hbits (hfill hbb).2.1
    · exact Dec.Sound.stick ⟨hinv, hholds⟩ hr
  | windowUnderrun b hw =>
    obtain ⟨rfl, -, -, hout⟩ := Dec.windowFill_underrun hw
    exact .of_not_run (hinv.raiseUnderrun hen hbb hout) (by simp)
  | recordUnderrun b b' hw hrec =>
    obtain ⟨-, -, hfill, -, -⟩ := Dec.windowFill_spec hw
    obtain ⟨c, hpass⟩ := BB.record_underrun hrec
    obtain ⟨-, hout, hpassInv⟩ := BB.passRecord_underrun hpass
    exact .of_not_run (hinv.raiseUnderrun hen (hpassInv (hfill hbb)) hout) (by simp)

/-! ## The machine under updates of one part -/

/-- The invariant speaks of no input, of no `actor` and of no free-value number. -/
theorem State.InvParts.congr {s t : State} (h : s.InvParts) (henc : t.enc = s.enc) (hwmem : t.wmem = s.wmem)
    (hcap : t.wmemCap = s.wmemCap) (hunf : t.unfinished = s.unfinished) (hdec : ∀ d, t.dec d = s.dec d) :
    t.InvParts where
  enc := by rw [henc]; exact h.enc
  wf := by rw [hwmem]; exact h.wf
  within := by rw [hwmem, hcap]; exact h.within
  sorted := by rw [hunf]; exact h.sorted
  sound d := by
    have hwords : t.words = s.words := by
      funext i
      exact State.words_congr (by rw [hwmem]) (by rw [hunf])
    rw [hdec, hwords]
    exact h.sound d
  spares d := by rw [henc, hdec]; exact h.spares d

theorem State.InvParts.withInputs {s : State} (h : s.InvParts) (l : List Input) : ({ s with inputs := l }).InvParts :=
  h.congr rfl rfl rfl rfl (s.dec_withInputs l)

theorem State.InvParts.withActor {s : State} (h : s.InvParts) (d : DecId) : ({ s with actor := d }).InvParts :=
  h.congr rfl rfl rfl rfl (s.dec_withActor d)

theorem State.InvParts.withFree {s : State} (h : s.InvParts) (n : Nat) : ({ s with free := n }).InvParts :=
  h.congr rfl rfl rfl rfl (s.dec_withFree n)

/-- A change of one decoder's registers and output memory (R75). -/
theorem State.InvParts.setDec {s : State} (h : s.InvParts) {d : DecId} {x : Dec} (hx : x.Sound s.words)
    (hsp : s.enc.SparesRun x) : (s.setDec d x).InvParts where
  enc := by simpa using h.enc
  wf := by simpa using h.wf
  within := by simpa using h.within
  sorted := by simpa using h.sorted
  sound d' := by
    rw [State.words_setDec]
    by_cases hd : d' = d
    · rw [hd, State.setDec_dec_same]; exact hx
    · rw [State.setDec_dec_other _ _ hd]; exact h.sound d'
  spares d' := by
    rw [State.setDec_enc]
    by_cases hd : d' = d
    · rw [hd, State.setDec_dec_same]; exact hsp
    · rw [State.setDec_dec_other _ _ hd]; exact h.spares d'

/-- What a bit buffer holds are bits of words below its run's `WORD_COUNT` (R29, R33). -/
theorem BB.Holds.congr {bb : BB} {wc : Count} {words words' : Nat → Word} (hi : bb.Inv wc) (h : bb.Holds words)
    (heq : ∀ i, i < wc.toNat → words' i = words i) : bb.Holds words' := by
  obtain ⟨-, hnavail, hwidx⟩ := hi
  intro t ht
  have hpos : bb.pos = 32 * bb.widx.toNat - bb.navail.toNat := rfl
  have hwidx' : bb.widx.toNat ≤ wc.toNat := hwidx
  rw [h t ht, streamBit, streamBit, heq _ (by omega)]

/-- Only the note of a decoder may change from `s` to `t` (log 8), so its invariant does not. -/
theorem EncFrame.dec_inv {s t : State} (hf : EncFrame s t) {d : DecId} (h : (s.dec d).Inv) : (t.dec d).Inv := by
  rw [hf.dec d]
  exact h

/-- An operation with ENC's frame keeps the invariant where, for each run that stays claimed, it leaves the marks on the
run's words, and ENC still spares the run (R289; log 8, log 23). -/
theorem State.InvParts.of_encFrame {s t : State} (h : s.InvParts) (hf : EncFrame s t) (henc : t.enc.Inv)
    (hmarks : ∀ d, (t.dec d).taint = none → (s.dec d).state = .run →
      ∀ i, i < (s.dec d).wordCount.toNat → (i ∈ t.unfinished ↔ i ∈ s.unfinished))
    (hspares : ∀ d, (t.dec d).taint = none → (s.dec d).state = .run → s.enc.SparesRun (s.dec d) →
      t.enc.SparesRun (s.dec d)) : t.InvParts where
  enc := henc
  wf := hf.wf h.wf
  within := by rw [hf.cap]; exact hf.within h.within
  sorted := hf.sorted h.sorted
  sound d := by
    refine ⟨hf.dec_inv (h.sound d).1, fun hr ht => ?_⟩
    have hrun : (s.dec d).state = .run := by rw [hf.dec d] at hr; exact hr
    obtain ⟨hclaimed, hread⟩ := hf.words d ht hrun
    have hholds : (s.dec d).bb.Holds t.words := BB.Holds.congr (h.sound d).1.1 ((h.sound d).2 hrun hclaimed) fun i hi =>
      State.words_congr (hread i hi) (hmarks d ht hrun i hi)
    rw [hf.dec d]
    exact hholds
  spares d hr ht := by
    have hrun : (s.dec d).state = .run := by rw [hf.dec d] at hr; exact hr
    obtain ⟨hclaimed, -⟩ := hf.words d ht hrun
    rw [hf.dec d]
    exact hspares d ht hrun (h.spares d) hrun hclaimed

/-! ## ENC's commands -/

theorem Enc.accepts_iff (e : Enc) : e.accepts = true ↔ e.state = .busy ∧ e.stuck = false := by
  simp [Enc.accepts]

theorem Enc.started_inv : ({ Enc.reset with state := .busy }).Inv := by
  unfold Enc.Inv
  decide

theorem State.InvParts.encStart {s t : State} (h : s.InvParts) (hx : execEncStart s = .next t) : t.InvParts := by
  cases hx
  exact h.of_encFrame ((EncFrame.refl s).withEnc _) Enc.started_inv (fun _ _ _ _ _ => Iff.rfl)
    fun _ _ _ _ _ _ _ => .inr rfl

/-- R69: ENC gets stuck in `BUSY` only. -/
theorem State.InvParts.stickEnc {s : State} (h : s.InvParts) (hb : s.enc.state = .busy) : s.stickEnc.InvParts := by
  obtain ⟨hn, hacc, hbusy, hdone, hidle, -⟩ := h.enc
  exact h.of_encFrame ((EncFrame.refl s).withEnc _) ⟨hn, hacc, hbusy, hdone, hidle, fun _ => hb⟩
    (fun _ _ _ _ _ => Iff.rfl) fun _ _ _ hsp => hsp

/-- The bits appended, modulo 2^64 as R25's counter, grow by `k` in `ENC.append(b, k); ENC.flush()` (R124, R125). -/
theorem State.appendFlush_count {s t : State} {b : Buffer} {k : Nat} (he : s.enc.Tight) (hn : s.enc.nbits.toNat ≤ 31)
    (hk : k ≤ 32) (hb : b.toNat < 2 ^ k) (h : (s.encAppend b k).encFlush = some t) :
    32 * t.enc.wcount + t.enc.nbits.setWidth 64 =
      32 * s.enc.wcount + s.enc.nbits.setWidth 64 + BitVec.ofNat 64 k := by
  obtain ⟨-, -, -, -, -, -, hcase⟩ := State.appendFlush_some he hn hk hb h
  rcases hcase with ⟨-, hw, hbits, -⟩ | ⟨hge, hw, hbits, -⟩
  · rw [hw]; bv_omega
  · rw [hw]; bv_omega

/-- R126, R136: a push keeps `BIT_COUNT` the number of bits appended, and `NBITS ≤ 31`. -/
theorem State.pushValue_encInv {s t : State} {v : Word} (h : s.enc.Inv) (hacc : s.enc.accepts = true)
    (hp : s.pushValue v = some t) : t.enc.Inv := by
  obtain ⟨hbusy, -⟩ := (Enc.accepts_iff _).1 hacc
  obtain ⟨hn, htight, hcount, -, -, -⟩ := h
  obtain ⟨u, w, hu, hw, rfl⟩ := State.pushValue_some hp
  have htag := tag_toNat_lt (classOf v)
  have hpay : ((payloadOf v (classOf v).width).setWidth 64).toNat < 2 ^ (classOf v).width := by
    rw [payload64_toNat]; exact payloadOf_toNat_lt v _
  have hwidth := WClass.width_le (classOf v)
  have hcu := State.appendFlush_count htight hn (by decide) htag hu
  obtain ⟨htu, hnu, hbu, -, hsu, -, -⟩ := State.appendFlush_some htight hn (by decide) htag hu
  have hcw := State.appendFlush_count htu hnu hwidth hpay hw
  obtain ⟨htw, hnw, hbw, -, hsw, -, -⟩ := State.appendFlush_some htu hnu hwidth hpay hw
  have hstate : w.enc.state = .busy := by rw [hsw, hsu, hbusy]
  have hbits : w.enc.bitCount + BitVec.ofNat 64 (classOf v).recLen =
      32 * w.enc.wcount + w.enc.nbits.setWidth 64 := by
    rw [hcw, hcu, hbw, hbu, hcount hbusy, WClass.recLen, BitVec.ofNat_add, ← BitVec.add_assoc]
  refine ⟨hnw, htw, fun _ => hbits, ?_, ?_, fun _ => hstate⟩ <;> simp [hstate]

theorem State.InvParts.encPush {s t : State} {v : Word} (h : s.InvParts) (hx : execEncPush v s = .next t) :
    t.InvParts := by
  unfold execEncPush at hx
  split at hx
  · next hacc =>
    cases hx
    cases hp : s.pushValue v with
    | none => exact h.stickEnc ((Enc.accepts_iff _).1 hacc).1
    | some u =>
      have hbusy := ((Enc.accepts_iff _).1 hacc).1
      have hclaim := State.pushValue_claim hp
      refine h.of_encFrame (State.pushValue_frame hp) (State.pushValue_encInv h.enc hacc hp)
        (fun d ht hr => (hclaim d ht hr).1) fun d ht hr hsp hrun hclaimed _ => ?_
      have hspared := hsp hrun hclaimed hbusy
      rcases (hclaim d ht hr).2 with hsame | hbeyond
      · rw [Option.getD_some, hsame]; exact hspared
      · omega
  · cases hx; exact h

/-- R128, R136: the words then hold all bits, fewer than 32 of the last word being padding. -/
theorem State.finishStream_encInv {s t : State} (h : s.enc.Inv) (hacc : s.enc.accepts = true)
    (hp : s.finishStream = some t) : t.enc.Inv ∧ t.enc.state = .done := by
  obtain ⟨hbusy, hstuck⟩ := (Enc.accepts_iff _).1 hacc
  obtain ⟨hn, htight, hcount, -, -, -⟩ := h
  have hbits := hcount hbusy
  rcases State.finishStream_some hp with ⟨hzero, rfl⟩ | ⟨hpending, u, -, rfl⟩
  · have hacc0 : s.enc.acc = 0 := by
      rw [hzero] at htight
      exact BitVec.eq_of_toNat_eq (Nat.lt_one_iff.1 htight)
    refine ⟨⟨hn, htight, ?_, fun _ => ⟨hzero, hacc0, ?_⟩, ?_, ?_⟩, rfl⟩
    · simp
    · simp [hbits, hzero]
    · simp
    · simp [hstuck]
  · have hpad : (32 * (s.enc.wcount + 1) - s.enc.bitCount).toNat < 32 := by
      rw [hbits]
      bv_omega
    refine ⟨⟨?_, ?_, ?_, fun _ => ⟨rfl, rfl, hpad⟩, ?_, ?_⟩, rfl⟩ <;> simp [hstuck]

theorem State.InvParts.encFinish {s t : State} (h : s.InvParts) (hx : execEncFinish s = .next t) : t.InvParts := by
  unfold execEncFinish at hx
  split at hx
  · next hacc =>
    cases hx
    cases hp : s.finishStream with
    | none => exact h.stickEnc ((Enc.accepts_iff _).1 hacc).1
    | some u =>
      obtain ⟨hinv, hdone⟩ := State.finishStream_encInv h.enc hacc hp
      refine h.of_encFrame (State.finishStream_frame hp) hinv (fun d ht hr => State.finishStream_claim hp ht hr)
        fun d _ _ _ _ _ hb => ?_
      rw [Option.getD_some, hdone] at hb
      cases hb
  · cases hx; exact h

/-! ## START, and the command port -/

/-- START initialises every register (R171, R191, R284), whatever the run is noted as. -/
theorem Dec.Inv.start {x : Dec} (h : x.Inv) (wc vc : Count) (note : Option Nat) :
    ({ x.start wc vc with taint := note }).Inv := by
  obtain ⟨-, -, -, -, -, -, -, hwf, hcap⟩ := h
  refine ⟨BB.reset_inv wc, Nat.zero_le _, ?_, ?_, ?_, ?_, ?_, hwf, hcap⟩ <;> simp only [Dec.start, startState]
  · split
    · simp
    · next hvc => exact fun _ => (BitVec.pos_iff_ne_zero vc).2 hvc
  · split
    · next hvc => exact fun _ => hvc.symm
    · simp
  · split <;> simp
  · split <;> simp
  · simp

/-- A START claims its words only where ENC does not own them (R288; log 23). -/
theorem State.startNote_eq_none (s : State) (wc : Count) : s.startNote wc = none ↔ s.encOwns wc = false := by
  unfold State.startNote
  split <;> simp_all

theorem State.InvParts.startDec {s : State} (h : s.InvParts) (d : DecId) (wc vc : Count) :
    (s.startDec d wc vc).InvParts := by
  unfold State.startDec
  split
  · exact h
  · refine (h.withFree _).setDec ⟨(h.sound d).1.start wc vc _, fun _ _ => BB.reset_holds _⟩ fun _ hnote hb => .inl ?_
    exact (s.encOwns_eq_false wc).1 ((s.startNote_eq_none wc).1 hnote) hb

/-- The instructions that the command port carries (R109). -/
inductive PortInstr : Instr → Prop
  | encStart : PortInstr .encStart
  | encPush (v : BitVec 32) : PortInstr (.encPush v)
  | encFinish : PortInstr .encFinish
  | sdecStart (wc vc : BitVec 64) : PortInstr (.sdecStart wc vc)
  | bdecStart (wc vc : BitVec 64) : PortInstr (.bdecStart wc vc)

theorem decodeCommand_portInstr {c : CommandWord} {i : Instr} (h : decodeCommand c = .ok i) : PortInstr i := by
  unfold decodeCommand at h
  split_ifs at h <;> cases h <;> constructor

theorem State.InvParts.exec_portInstr {s t : State} {i : Instr} (h : s.InvParts) (hi : PortInstr i)
    (hx : exec i s = .next t) : t.InvParts := by
  cases hi with
  | encStart => exact h.encStart hx
  | encPush v => exact h.encPush hx
  | encFinish => exact h.encFinish hx
  | sdecStart wc vc => cases hx; exact h.startDec .sdec wc vc
  | bdecStart wc vc => cases hx; exact h.startDec .bdec wc vc

/-! ## The step -/

theorem State.InvParts.commandStep {s t : State} {c : CommandWord} (h : s.InvParts) (hx : s.commandStep c = .next t) :
    t.InvParts := by
  unfold State.commandStep at hx
  split at hx
  · next i hdec => exact h.exec_portInstr (decodeCommand_portInstr hdec) hx
  · cases hx; exact h

/-- A host write leaves the marks on the words of a run that stays claimed: the word is none of the run's (R289). -/
theorem State.InvParts.hostWrite {s t : State} {i : Count} {v : Word} (h : s.InvParts)
    (hx : s.hostWrite i v = .next t) : t.InvParts := by
  unfold State.hostWrite at hx
  split at hx
  · next u hu =>
    cases hx
    have hunf := State.writeWmem_unfinished hu
    obtain ⟨-, -, henc, -⟩ := State.writeWmem_some hu
    refine h.of_encFrame ((State.writeWmem_frame hu).withUnfinished _ fun hs => ?_) ?_ (fun d ht hr j hj => ?_)
      fun d _ _ hsp => ?_
    · rw [hunf]; exact unmarkIndex_sorted _ hs
    · rw [henc]; exact h.enc
    · rw [State.dec_withUnfinished] at ht
      have hbeyond := State.writeWmem_claimed hu ht hr
      rw [mem_unmarkIndex, hunf]
      exact ⟨And.left, fun hm => ⟨hm, by omega, by omega⟩⟩
    · rw [henc]; exact hsp
  · cases hx

/-- A step of an enabled decoder (R75): its own registers end as `StepEnd` says, ENC and `WMEM` stay. -/
theorem State.InvParts.decoderStep {s t : State} {d : DecId} (h : s.InvParts) (hen : (s.dec d).enabled = true)
    (hx : s.decoderStep d = .next t) : t.InvParts := by
  obtain ⟨x, hend, rfl⟩ := State.decoderStep_next hen hx
  obtain ⟨hwc, -, htaint, -⟩ := hend.sameRun
  refine (h.withActor d).setDec (hend.sound hen (h.sound d)) fun _ ht hb => ?_
  rw [hwc]
  exact h.spares d ((Dec.enabled_iff _).1 hen).1 (htaint ▸ ht) hb

/-- The decoder chosen has an enabled step; the choice may count up `free` (log 2). -/
theorem State.chooseDecoder_some {s s' : State} {d : DecId} (h : s.chooseDecoder = some (d, s')) :
    (s.dec d).enabled = true ∧ ∃ n, s' = { s with free := n } := by
  unfold State.chooseDecoder at h
  by_cases hs : s.sdec.enabled = true
  · rw [if_pos hs] at h
    by_cases hb : s.bdec.enabled = true
    · rw [if_pos hb] at h
      cases h
      refine ⟨?_, s.free + 1, rfl⟩
      split
      · exact hs
      · exact hb
    · rw [if_neg hb] at h
      cases h
      exact ⟨hs, s.free, rfl⟩
  · rw [if_neg hs] at h
    split_ifs at h with hb
    cases h
    exact ⟨hb, s.free, rfl⟩

theorem State.InvParts.ownStep {s t : State} (h : s.InvParts) (hx : s.ownStep = .next t) : t.InvParts := by
  unfold State.ownStep at hx
  split at hx
  · next d s' hchoose =>
    obtain ⟨hen, n, rfl⟩ := State.chooseDecoder_some hchoose
    exact (h.withFree n).decoderStep (by rw [State.dec_withFree]; exact hen) hx
  · cases hx; exact h

theorem State.InvParts.inputStep {s t : State} {inp : Input} (h : s.InvParts) (hx : s.inputStep inp = .next t) :
    t.InvParts := by
  obtain ⟨reset, action⟩ := inp
  cases reset with
  | true => cases hx; exact h.resetRegisters
  | false =>
    cases action with
    | command c => exact h.commandStep hx
    | writeWord i v => exact h.hostWrite hx
    | none => exact h.ownStep hx

theorem State.InvParts.step {s t : State} (h : s.InvParts) (hx : step s = .next t) : t.InvParts := by
  cases hin : s.inputs with
  | nil =>
    simp only [Machine.step, State.timeStep, hin] at hx
    exact h.ownStep hx
  | cons inp later =>
    rw [step_of_input hin] at hx
    exact (h.withInputs later).inputStep hx

/-- Settles O51: part by part, one lemma for each kind of step (`State.InvParts.step`). -/
theorem everyStepKeepsTheInvariant : Obligations.EveryStepKeepsTheInvariant := fun s t h hx =>
  (State.inv_iff t).2 (((State.inv_iff s).1 h).step hx)

end Sys2Proof.Machine
end

section
/-! PROOFS. The memories' frames (R60 to R75): what a decoder's step and ENC's storing commands leave unchanged, where an
agent gets stuck (R69), how far a decoder's step gets (R292), and what a host write does (R60, R78, R289). -/

namespace Sys2Proof.Machine

/-! ## What a decoder's step leaves of its own registers -/

/-- The frame of a decoder's step that writes `k` slots: the run's operands stay; of `VOUT` only the `k` slots from `OCUR`
on may change, and none where `OCUR` stays (R75, R173, R198). -/
structure Dec.Framed (x y : Dec) (k : Nat) : Prop where
  sameRun : x.sameRun y
  slots : ∀ a, (a < x.ocur.toNat ∨ x.ocur.toNat + k ≤ a) → y.vout.read a = x.vout.read a
  unmoved : y.ocur = x.ocur → y.vout = x.vout

theorem Dec.sameRun_refl (x : Dec) : x.sameRun x := ⟨rfl, rfl, rfl, rfl⟩

theorem Dec.Framed.refl (x : Dec) (k : Nat) : x.Framed x k := ⟨x.sameRun_refl, fun _ _ => rfl, fun _ => rfl⟩

theorem Dec.Framed.mono {x y : Dec} {k m : Nat} (h : x.Framed y k) (hkm : k ≤ m) : x.Framed y m :=
  ⟨h.sameRun, fun a ha => h.slots a (by omega), h.unmoved⟩

theorem Dec.framed_stick (x : Dec) (k : Nat) : x.Framed x.stick k := ⟨x.sameRun_refl, fun _ _ => rfl, fun _ => rfl⟩

theorem Dec.framed_raiseUnderrun (x : Dec) (bb : BB) (k : Nat) : x.Framed ({ x with bb := bb }).raiseUnderrun k :=
  ⟨x.sameRun_refl, fun _ _ => rfl, fun _ => rfl⟩

/-- A step that decoded at least one value has moved `OCUR`. -/
theorem Dec.framed_decoded (x : Dec) (bb : BB) (vs : List Word) {n : Nat} (hn : 1 ≤ n ∧ n ≤ 4) :
    x.Framed (x.decoded bb vs n) vs.length where
  sameRun := x.sameRun_refl
  slots _ ha := Mem.read_writeAll_other vs x.vout ha
  unmoved hsame := by
    have hmoved : x.ocur + BitVec.ofNat 64 n ≠ x.ocur := by bv_omega
    exact absurd hsame hmoved

theorem Dec.framed_storeValue (x : Dec) (bb : BB) (v : Word) : x.Framed (x.storeValue bb v) 1 := by
  rw [Dec.storeValue_eq_decoded]
  split
  · exact x.framed_decoded bb [v] (by omega)
  · exact x.framed_stick 1

theorem Dec.framed_storeLanes (x : Dec) {e : PatEntry} (he : e ∈ patTable) (bb : BB) (v : Lanes4 Word) :
    x.Framed (x.storeLanes e bb v) 4 := by
  obtain ⟨hpos, hle, -⟩ := patTable_bounds he
  rw [Dec.storeLanes_eq_decoded]
  split
  · exact x.framed_decoded _ [v.l0, v.l1, v.l2, v.l3] ⟨hpos, hle⟩
  · exact x.framed_stick 4

/-! ## What a decoder's step leaves of the machine -/

theorem State.onlyDec_refl (s : State) (d : DecId) : s.onlyDec s d :=
  ⟨rfl, fun _ _ => rfl, rfl, rfl, rfl, rfl, rfl, rfl⟩

theorem State.onlyDec_setDec (s : State) (d : DecId) (x : Dec) : s.onlyDec (s.setDec d x) d :=
  ⟨s.setDec_enc d x, fun _ hd => s.setDec_dec_other x hd, s.setDec_wmem d x, s.setDec_wmemCap d x,
    s.setDec_unfinished d x, s.setDec_inputs d x, s.setDec_actor d x, s.setDec_free d x⟩

/-- The frame of a step of decoder `d` that writes `k` slots. -/
structure State.StepFramed (s t : State) (d : DecId) (k : Nat) : Prop where
  only : s.onlyDec t d
  dec : (s.dec d).Framed (t.dec d) k

theorem State.StepFramed.refl (s : State) (d : DecId) (k : Nat) : s.StepFramed s d k :=
  ⟨s.onlyDec_refl d, .refl _ k⟩

theorem State.StepFramed.mono {s t : State} {d : DecId} {k m : Nat} (h : s.StepFramed t d k) (hkm : k ≤ m) :
    s.StepFramed t d m :=
  ⟨h.only, h.dec.mono hkm⟩

theorem State.StepFramed.setDec {s : State} {d : DecId} {x : Dec} {k : Nat} (h : (s.dec d).Framed x k) :
    s.StepFramed (s.setDec d x) d k :=
  ⟨s.onlyDec_setDec d x, by rw [State.setDec_dec_same]; exact h⟩

theorem State.StepFramed.takeUnderrun (s : State) (d : DecId) (bb : BB) (k : Nat) :
    s.StepFramed (s.takeUnderrun d bb) d k :=
  .setDec ((s.dec d).framed_raiseUnderrun bb k)

theorem State.recordStep_framed {s t : State} {c : WClass} {v : Word} (h : s.recordStep c v = .next t) :
    s.StepFramed t s.actor 1 := by
  rcases State.recordStep_next h with ⟨-, rfl⟩ | ⟨-, ⟨bb, -, rfl⟩ | ⟨bb, -, rfl⟩⟩
  · exact .refl _ _ 1
  · exact .setDec (Dec.framed_storeValue _ bb v)
  · exact .takeUnderrun s s.actor bb 1

theorem State.matchedStep_framed {s t : State} {e : PatEntry} {win : Word} (he : e ∈ patTable)
    (h : s.matchedStep e win = .next t) : s.StepFramed t .bdec 4 := by
  rcases State.matchedStep_next h with ⟨-, rfl⟩ | ⟨-, ⟨bb, -, rfl⟩ | ⟨bb, -, rfl⟩⟩
  · exact .refl _ .bdec 4
  · exact .setDec (Dec.framed_storeLanes _ he bb _)
  · exact .takeUnderrun s .bdec bb 4

theorem exec_record_framed {s t : State} {i : Instr} {c : WClass} (hc : i.recClass = some c)
    (h : exec i s = .next t) : s.StepFramed t s.actor 1 := by
  obtain ⟨v, hexec⟩ := exec_of_recClass hc
  exact State.recordStep_framed (hexec s ▸ h)

theorem exec_pattern_framed {s t : State} {i : Instr} (hi : i.isPattern = true) (h : exec i s = .next t) :
    s.StepFramed t .bdec 4 := by
  obtain ⟨e, he, win, hexec⟩ := exec_of_isPattern hi
  exact State.matchedStep_framed he (hexec s ▸ h)

/-- Settles O34: the one slot of a record step (`exec_record_framed`) is the slot `OCUR`. -/
theorem recordStepFrame : Obligations.RecordStepFrame := by
  intro s t i c hc h
  obtain ⟨honly, hrun, hslots, hunmoved⟩ := exec_record_framed hc h
  exact ⟨honly, hrun, fun a ha => hslots a (by omega), hunmoved⟩

/-- Settles O42: a chunk has four slots (`exec_pattern_framed`). -/
theorem patternStepFrame : Obligations.PatternStepFrame := by
  intro s t i hi h
  obtain ⟨honly, hrun, hslots, hunmoved⟩ := exec_pattern_framed hi h
  exact ⟨honly, hrun, hslots, hunmoved⟩

/-! ## What a decoder fetches, and the frame of its step (R75) -/

theorem recordInstr_recClass (t : BitVec 2) (p : Word) : (recordInstr t p).recClass = some (WClass.ofTag t) := by
  unfold recordInstr
  cases WClass.ofTag t <;> rfl

theorem patInstr_isPattern {k : Nat} {win : Word} {i : Instr} (h : patInstr k win = some i) : i.isPattern = true := by
  unfold patInstr at h
  split at h <;> cases h <;> rfl

theorem decodeWindow_isPattern {win : Word} {i : Instr} (h : decodeWindow win = .ok i) : i.isPattern = true := by
  unfold decodeWindow at h
  split at h
  · next j hsel =>
    cases h
    obtain ⟨k, -, hk⟩ := Option.bind_eq_some_iff.1 hsel
    exact patInstr_isPattern hk
  · cases h

theorem BB.fetchRecord_recClass {bb : BB} {src : Nat → Option Word} {wc : Count} {i : Instr}
    (h : bb.fetchRecord src wc = .instr i) : ∃ c, i.recClass = some c := by
  rcases bb.fetchRecord_eq src wc with ⟨t, p, b, -, hf⟩ | ⟨b, -, hf⟩ | ⟨k, -, hf⟩ <;> rw [hf] at h <;> cases h
  exact ⟨_, recordInstr_recClass t p⟩

/-- A decoder finds a record, or, BDEC only, a pattern entry (R172, R192). -/
theorem State.fetch_instr {s : State} {d : DecId} {i : Instr} (h : s.fetch d = .instr i) :
    (∃ c, i.recClass = some c) ∨ (d = .bdec ∧ i.isPattern = true) := by
  unfold State.fetch at h
  cases hb : (s.dec d).batchMode d with
  | false =>
    simp only [hb, Bool.false_eq_true, if_false] at h
    exact .inl (BB.fetchRecord_recClass h)
  | true =>
    have hd : d = .bdec := by
      cases d with
      | sdec => rw [Dec.batchMode_sdec] at hb; cases hb
      | bdec => rfl
    simp only [hb, if_true] at h
    cases hw : (s.dec d).windowFill d (s.wordAt d) with
    | underrun b => simp only [hw] at h; cases h
    | noWord k => simp only [hw] at h; cases h
    | ok b =>
      simp only [hw] at h
      cases hdec : decodeWindow (b.peek Config.windowBits) with
      | ok j =>
        simp only [hdec] at h
        cases h
        exact .inr ⟨hd, decodeWindow_isPattern hdec⟩
      | error e =>
        simp only [hdec] at h
        exact .inl (BB.fetchRecord_recClass h)

/-- The frame of a step of decoder `d`, enabled or not: it writes at most a chunk. -/
theorem State.decoderStep_framed {s t : State} {d : DecId} (h : s.decoderStep d = .next t) :
    ({ s with actor := d }).StepFramed t d 4 := by
  unfold State.decoderStep at h
  cases hf : s.fetch d with
  | underrun bb =>
    simp only [hf] at h
    cases h
    exact .takeUnderrun { s with actor := d } d bb 4
  | noWord k => simp only [hf] at h; cases h
  | instr i =>
    simp only [hf] at h
    rcases State.fetch_instr hf with ⟨c, hc⟩ | ⟨rfl, hi⟩
    · exact (exec_record_framed hc h).mono (by omega)
    · exact exec_pattern_framed hi h

/-- Settles O52: the frame of the step (`State.decoderStep_framed`), read at ENC, `WMEM` and the other decoder. -/
theorem decodersDoNotAffectEachOther : Obligations.DecodersDoNotAffectEachOther := by
  intro s t d h
  obtain ⟨⟨henc, hother, hwmem, -⟩, hrun, -⟩ := State.decoderStep_framed h
  refine ⟨henc, hwmem, fun d' hd => ?_, ?_⟩
  · rw [hother d' hd, State.dec_withActor]
  · rw [State.dec_withActor] at hrun; exact hrun

/-! ## A slot that does not exist (R69) -/

theorem Dec.storeValue_stuck {x : Dec} (bb : BB) (v : Word) (h : x.voutCap ≤ x.ocur.toNat) :
    x.storeValue bb v = x.stick := by
  rw [Dec.storeValue_eq, if_neg (by omega)]

theorem Dec.storeLanes_stuck {x : Dec} (e : PatEntry) (bb : BB) (v : Lanes4 Word) (h : x.voutCap ≤ x.ocur.toNat + 3) :
    x.storeLanes e bb v = x.stick := by
  rw [Dec.storeLanes_eq, if_neg (by omega)]

/-- Settles O35: the bits are there, so the step comes to its slot write, and that one refuses. -/
theorem recordBeyondVoutSticks : Obligations.RecordBeyondVoutSticks := by
  intro s i c hc hen hready hslot
  obtain ⟨v, hexec⟩ := exec_of_recClass hc
  obtain ⟨bb, hpull⟩ := State.recordPull_complete hready
  rw [hexec, State.recordStep_of_enabled c v hen, hpull, State.settle_ok, Dec.storeValue_stuck bb v hslot]
  rfl

/-- Settles O43: the window is there, so the step comes to its chunk write, and that one refuses. -/
theorem patternBeyondVoutSticks : Obligations.PatternBeyondVoutSticks := by
  intro s i hi hen hb hready hslots
  obtain ⟨-, hwindow, hwords⟩ := hready
  obtain ⟨e, -, win, hexec⟩ := exec_of_isPattern hi
  obtain ⟨bb, hfill⟩ : ∃ bb, s.bdec.windowFill .bdec (s.wordAt .bdec) = .ok bb :=
    Dec.windowFill_complete hwindow fun k hk => s.wordAt_isSome .bdec (Nat.lt_of_lt_of_le hk hwords)
  rw [hexec, State.matchedStep_of_batch e win hen hb, hfill, State.settle_ok, Dec.storeLanes_stuck e bb _ hslots]
  rfl

/-! ## Progress (R292) -/

/-- What R292 says can become of a decoder `x` in its step: `OCUR` raised by 1 to 4 within `VALUE_COUNT`, a fault, or
stuck. -/
def Dec.Progress (x y : Dec) : Prop :=
  (x.ocur.toNat < y.ocur.toNat ∧ y.ocur.toNat ≤ x.ocur.toNat + 4 ∧ y.ocur.toNat ≤ x.valueCount.toNat ∧
      y.state = if y.ocur = x.valueCount then .done else .run) ∨
    (y.state = .fault ∧ y.faultCode = .wordUnderrun ∧ y.ocur = x.ocur) ∨
    (y.stuck = true ∧ y.state = .run ∧ y.ocur = x.ocur)

theorem Dec.progress_stick {x : Dec} (hr : x.state = .run) : x.Progress x.stick := .inr (.inr ⟨rfl, hr, rfl⟩)

theorem Dec.progress_raiseUnderrun (x : Dec) (bb : BB) : x.Progress ({ x with bb := bb }).raiseUnderrun :=
  .inr (.inl ⟨rfl, rfl, rfl⟩)

theorem Dec.progress_decoded {x : Dec} (bb : BB) (vs : List Word) {n : Nat} (hr : x.state = .run) (hpos : 1 ≤ n)
    (hle : n ≤ 4) (hroom : x.ocur.toNat + n ≤ x.valueCount.toNat) : x.Progress (x.decoded bb vs n) := by
  have hocur : (x.decoded bb vs n).ocur.toNat = x.ocur.toNat + n := by
    have := x.valueCount.isLt
    simp only [Dec.decoded, BitVec.toNat_add, BitVec.toNat_ofNat]
    omega
  refine .inl ⟨by omega, by omega, by omega, ?_⟩
  simp only [Dec.decoded, hr]

theorem StepEnd.progress {s : State} {d : DecId} {x : Dec} (h : StepEnd s d x) (hinv : (s.dec d).Inv)
    (hr : (s.dec d).state = .run) : (s.dec d).Progress x := by
  cases h with
  | record b b' t p =>
    have hroom := hinv.ocur_lt hr
    rw [Dec.storeValue_eq_decoded]
    split
    · exact Dec.progress_decoded _ _ hr (by omega) (by omega) (by omega)
    · exact Dec.progress_stick hr
  | lanes b k hb hw hk =>
    obtain ⟨hpos, hle, -⟩ := patTable_bounds (patTable_getD_mem (match_of_kselect hk).1)
    have hroom := hinv.batch_room hb
    rw [Dec.storeLanes_eq_decoded]
    split
    · exact Dec.progress_decoded _ _ hr hpos hle (by omega)
    · exact Dec.progress_stick hr
  | windowUnderrun b => exact Dec.progress_raiseUnderrun _ b
  | recordUnderrun b b' => exact Dec.progress_raiseUnderrun _ b'

/-- Settles O53: each of the ways a step can end (`StepEnd`) is one of R292's. -/
theorem everyDecoderStepMakesProgress : Obligations.EveryDecoderStepMakesProgress := by
  intro s t d hinv hen h
  obtain ⟨x, hend, rfl⟩ := State.decoderStep_next hen h
  rw [State.setDec_dec_same]
  exact hend.progress hinv ((Dec.enabled_iff _).1 hen).1

/-! ## The choice between two enabled decoders (R75) -/

theorem step_of_no_input {s : State} (h : s.inputs = []) : step s = s.ownStep := by
  simp only [step, State.timeStep, h]

@[simp] theorem State.inputStep_none (s : State) : s.inputStep ⟨false, .none⟩ = s.ownStep := rfl

theorem State.ownStep_of_both {s : State} (hs : s.sdec.enabled = true) (hb : s.bdec.enabled = true) :
    s.ownStep =
      ({ s with free := s.free + 1 }).decoderStep (if Config.arbiter s.free then .sdec else .bdec) := by
  simp only [State.ownStep, State.chooseDecoder, hs, hb, if_true]

/-- Settles O23: without an action of the host the time step is the decoders' own, and both are enabled in it. -/
theorem eitherEnabledDecoderMayStep : Obligations.EitherEnabledDecoderMayStep := by
  intro s hs hb
  refine ⟨fun hin => ?_, fun later hin => ?_⟩
  · rw [step_of_no_input hin, State.ownStep_of_both hs hb]
  · rw [step_of_input hin, State.inputStep_none, State.ownStep_of_both (s := { s with inputs := later }) hs hb]

/-! ## What ENC's storing commands store (R70, R123 to R128) -/

/-- ENC stored no word. -/
structure StoresNone (s t : State) : Prop where
  wmem : t.wmem = s.wmem
  wcount : t.enc.wcount = s.enc.wcount
  unfinished : t.unfinished = s.unfinished

/-- ENC stored one word of an encode under way, at `WCOUNT` (R125). -/
structure StoresWord (s t : State) : Prop where
  wmem : ∃ v, t.wmem = s.wmem.write s.enc.wcount.toNat v
  wcount : t.enc.wcount = s.enc.wcount + 1
  unfinished : t.unfinished = markIndex s.unfinished s.enc.wcount.toNat

theorem StoresWord.read_other {s t : State} (h : StoresWord s t) {a : Nat} (ha : a ≠ s.enc.wcount.toNat) :
    t.wmem.read a = s.wmem.read a := by
  obtain ⟨v, hv⟩ := h.wmem
  rw [hv, Mem.read_write_other _ v ha]

theorem StoresWord.mem_unfinished {s t : State} (h : StoresWord s t) (j : Nat) :
    j ∈ t.unfinished ↔ j = s.enc.wcount.toNat ∨ j ∈ s.unfinished := by
  rw [h.unfinished, mem_markIndex]

theorem StoresNone.refl (s : State) : StoresNone s s := ⟨rfl, rfl, rfl⟩

theorem StoresNone.trans {s t u : State} (h : StoresNone s t) (k : StoresNone t u) : StoresNone s u :=
  ⟨k.wmem.trans h.wmem, k.wcount.trans h.wcount, k.unfinished.trans h.unfinished⟩

theorem StoresNone.trans_word {s t u : State} (h : StoresNone s t) (k : StoresWord t u) : StoresWord s u where
  wmem := by rw [← h.wmem, ← h.wcount]; exact k.wmem
  wcount := by rw [← h.wcount]; exact k.wcount
  unfinished := by rw [← h.unfinished, ← h.wcount]; exact k.unfinished

theorem StoresWord.trans_none {s t u : State} (h : StoresWord s t) (k : StoresNone t u) : StoresWord s u where
  wmem := by rw [k.wmem]; exact h.wmem
  wcount := k.wcount.trans h.wcount
  unfinished := k.unfinished.trans h.unfinished

theorem State.stickEnc_storesNone (s : State) : StoresNone s s.stickEnc := ⟨rfl, rfl, rfl⟩

theorem State.appendFlush_stores {s t : State} {b : Buffer} {k : Nat} (h : (s.encAppend b k).encFlush = some t) :
    StoresNone s t ∨ StoresWord s t := by
  rcases State.encFlush_some h with ⟨-, rfl⟩ | ⟨-, u, hu, rfl⟩
  · exact .inl ⟨rfl, rfl, rfl⟩
  · obtain ⟨-, hwmem, -⟩ := State.writeWmem_some hu
    exact .inr ⟨⟨_, hwmem⟩, rfl, rfl⟩

/-- What a push stores: no word, one, or two (R123, R127). -/
inductive PushStores (s t : State) : Prop
  | none (h : StoresNone s t)
  | one (h : StoresWord s t)
  | two (u : State) (h : StoresWord s u) (k : StoresWord u t)

theorem State.pushValue_stores {s t : State} {v : Word} (h : s.pushValue v = some t) : PushStores s t := by
  obtain ⟨u, w, hu, hw, rfl⟩ := State.pushValue_some h
  have hcount : StoresNone w { w with enc := w.enc.count (classOf v) } := ⟨rfl, rfl, rfl⟩
  rcases State.appendFlush_stores hu with hu | hu <;> rcases State.appendFlush_stores hw with hw | hw
  · exact .none ((hu.trans hw).trans hcount)
  · exact .one ((hu.trans_word hw).trans_none hcount)
  · exact .one (hu.trans_none (hw.trans hcount))
  · exact .two u hu (hw.trans_none hcount)

/-! ## The frame of ENC's storing commands -/

theorem EncFrame.encOnly {s t : State} (h : EncFrame s t) : s.encOnly t := ⟨h.dec, h.idle, h.cap, h.inputs, h.actor⟩

theorem State.stickEnc_frame (s : State) : EncFrame s s.stickEnc := (EncFrame.refl s).withEnc _

theorem exec_encPush_of_accepts {s : State} (v : Word) (h : s.enc.accepts = true) :
    exec (.encPush v) s = .next ((s.pushValue v).getD s.stickEnc) := if_pos h

theorem exec_encPush_of_refused {s : State} (v : Word) (h : s.enc.accepts = false) :
    exec (.encPush v) s = .next s := if_neg (by simp [h])

theorem exec_encFinish_of_accepts {s : State} (h : s.enc.accepts = true) :
    exec .encFinish s = .next (s.finishStream.getD s.stickEnc) := if_pos h

theorem exec_encFinish_of_refused {s : State} (h : s.enc.accepts = false) : exec .encFinish s = .next s :=
  if_neg (by simp [h])

/-- Everything a push can do: refused and stuck store nothing (R69, R123, R129). -/
theorem exec_encPush_next {s t : State} {v : Word} (h : exec (.encPush v) s = .next t) :
    EncFrame s t ∧ PushStores s t := by
  cases hacc : s.enc.accepts with
  | false =>
    rw [exec_encPush_of_refused v hacc] at h
    cases h
    exact ⟨.refl s, .none (.refl s)⟩
  | true =>
    rw [exec_encPush_of_accepts v hacc] at h
    cases h
    cases hp : s.pushValue v with
    | none => exact ⟨s.stickEnc_frame, .none s.stickEnc_storesNone⟩
    | some u => exact ⟨State.pushValue_frame hp, State.pushValue_stores hp⟩

/-- A push counts the words it stores in `WCOUNT`, and stores them at `WCOUNT` and the word behind it. -/
theorem PushStores.frame {s t : State} (h : PushStores s t) :
    (t.enc.wcount = s.enc.wcount → t.wmem = s.wmem) ∧
      (t.enc.wcount = s.enc.wcount + 1 → ∀ a, a ≠ s.enc.wcount.toNat → t.wmem.read a = s.wmem.read a) ∧
      ∀ a, a ≠ s.enc.wcount.toNat → a ≠ (s.enc.wcount + 1).toNat → t.wmem.read a = s.wmem.read a := by
  cases h with
  | none h => exact ⟨fun _ => h.wmem, fun _ a _ => by rw [h.wmem], fun a _ _ => by rw [h.wmem]⟩
  | one h =>
    refine ⟨fun hsame => ?_, fun _ a ha => h.read_other ha, fun a ha _ => h.read_other ha⟩
    have := h.wcount
    bv_omega
  | two u h k =>
    have hcount : t.enc.wcount = s.enc.wcount + 1 + 1 := by rw [k.wcount, h.wcount]
    refine ⟨fun hsame => ?_, fun hone => ?_, fun a ha hnext => ?_⟩
    · bv_omega
    · bv_omega
    · rw [k.read_other (by rw [h.wcount]; exact hnext), h.read_other ha]

/-- What an accepted finish that goes through leaves (R128): the pending bits' word at `WCOUNT`, the counters as they
were. -/
theorem State.finishStream_stores {s t : State} (h : s.finishStream = some t) :
    (t.enc.wcount = s.enc.wcount → t.wmem = s.wmem) ∧
      (∀ a, a ≠ s.enc.wcount.toNat → t.wmem.read a = s.wmem.read a) ∧
      t.enc.bitCount = s.enc.bitCount ∧ t.enc.valueCount = s.enc.valueCount := by
  rcases State.finishStream_some h with ⟨-, rfl⟩ | ⟨-, u, hu, rfl⟩
  · exact ⟨fun _ => rfl, fun _ _ => rfl, rfl, rfl⟩
  · obtain ⟨-, hwmem, -⟩ := State.writeWmem_some hu
    refine ⟨fun hsame => ?_, fun a ha => ?_, rfl, rfl⟩
    · have hmoved : s.enc.wcount + 1 ≠ s.enc.wcount := by bv_omega
      exact absurd hsame hmoved
    · rw [State.completeArtifact_wmem, hwmem, Mem.read_write_other _ _ ha]

/-- Everything a finish can do: refused, stuck with nothing else changed, or gone through. -/
theorem exec_encFinish_next {s t : State} (h : exec .encFinish s = .next t) :
    (s.enc.accepts = false ∧ t = s) ∨ s.enc.accepts = true ∧ (t = s.stickEnc ∨ s.finishStream = some t) := by
  cases hacc : s.enc.accepts with
  | false =>
    rw [exec_encFinish_of_refused hacc] at h
    cases h
    exact .inl ⟨rfl, rfl⟩
  | true =>
    rw [exec_encFinish_of_accepts hacc] at h
    cases h
    refine .inr ⟨rfl, ?_⟩
    cases hp : s.finishStream with
    | none => exact .inl rfl
    | some u => exact .inr rfl

/-- Settles O46: by what a push stores (`PushStores`) and what a finish can do. -/
theorem encStoreFrame : Obligations.EncStoreFrame := by
  refine ⟨fun s t v h => ?_, fun s t h => ?_⟩
  · obtain ⟨hframe, hstores⟩ := exec_encPush_next h
    exact ⟨hframe.encOnly, hstores.frame⟩
  · rcases exec_encFinish_next h with ⟨-, rfl⟩ | ⟨-, rfl | hp⟩
    · exact ⟨(EncFrame.refl _).encOnly, fun _ => rfl, fun _ _ => rfl, rfl, rfl⟩
    · exact ⟨s.stickEnc_frame.encOnly, fun _ => rfl, fun _ _ => rfl, rfl, rfl⟩
    · exact ⟨(State.finishStream_frame hp).encOnly, State.finishStream_stores hp⟩

/-! ## A word that does not exist (R69, R286) -/

/-- A push emits its words one behind the other, so all of them exist where it goes through (R69, R125, R127). -/
theorem State.pushValue_words_exist {s t : State} {v : Word} (hinv : s.enc.Inv) (hpos : 0 < s.pushWords v)
    (hwrap : s.enc.wcount.toNat + 2 < 2 ^ 64) (h : s.pushValue v = some t) :
    s.enc.wcount.toNat + s.pushWords v ≤ s.wmemCap := by
  obtain ⟨hn, htight, -⟩ := hinv
  obtain ⟨u, w, hu, hw, -⟩ := State.pushValue_some h
  have htag := tag_toNat_lt (classOf v)
  have hpay : ((payloadOf v (classOf v).width).setWidth 64).toNat < 2 ^ (classOf v).width := by
    rw [payload64_toNat]; exact payloadOf_toNat_lt v _
  have hwidth := WClass.width_le (classOf v)
  have hcap : u.wmemCap = s.wmemCap := ((State.encAppend_frame s _ _).trans (State.encFlush_frame hu)).cap
  obtain ⟨htu, hnu, -, -, -, -, hfirst⟩ := State.appendFlush_some htight hn (by decide) htag hu
  obtain ⟨-, -, -, -, -, -, hsecond⟩ := State.appendFlush_some htu hnu hwidth hpay hw
  rw [State.pushWords, WClass.recLen_eq] at hpos ⊢
  rw [hcap] at hsecond
  rw [Config.tagBits] at hfirst
  rcases hfirst with ⟨_, huc, hun, -⟩ | ⟨_, huc, hun, hexists, -⟩ <;>
    rcases hsecond with ⟨_, -, -, -⟩ | ⟨_, -, -, hexists2, -⟩
  · omega
  · rw [huc] at hexists2; omega
  · omega
  · have hucNat : u.enc.wcount.toNat = s.enc.wcount.toNat + 1 := by rw [huc]; bv_omega
    omega

theorem Enc.accepts_of_stuck {e : Enc} (h : e.stuck = true) : e.accepts = false := by simp [Enc.accepts, h]

/-- Settles O47: a push or a finish that went through would have stored its last word below `WMEM_CAP`. -/
theorem encBeyondWmemSticksUntilStart : Obligations.EncBeyondWmemSticksUntilStart := by
  intro s v hacc hinv
  refine ⟨fun hpos hbeyond hwrap => ?_, fun hpending hbeyond => ?_, fun t hstuck => ?_⟩
  · have hnone : s.pushValue v = none := by
      rw [Option.eq_none_iff_forall_ne_some]
      intro t hp
      have := State.pushValue_words_exist hinv hpos hwrap hp
      omega
    rw [exec_encPush_of_accepts v hacc, hnone]
    rfl
  · have hnone : s.finishStream = none := by
      rw [Option.eq_none_iff_forall_ne_some]
      intro t hp
      rcases State.finishStream_some hp with ⟨hzero, -⟩ | ⟨-, u, hu, -⟩
      · exact hpending hzero
      · have := (State.writeWmem_some hu).1
        omega
    rw [exec_encFinish_of_accepts hacc, hnone]
    rfl
  · have hrefused := Enc.accepts_of_stuck hstuck
    exact ⟨exec_encPush_of_refused v hrefused, exec_encFinish_of_refused hrefused, _, rfl, rfl⟩

/-! ## The host's writes of `WMEM` (R60, R78, R289) -/

/-- A host write of a word that exists: the word written, no decoder's registers changed but the note (log 8), and the
word unfinished no longer (log 23). -/
theorem State.hostWrite_of_lt {s : State} {i : Count} (v : Word) (h : i.toNat < s.wmemCap) :
    ∃ u, s.writeWmem i.toNat v = some u ∧
      s.hostWrite i v = .next { u with unfinished := unmarkIndex s.unfinished i.toNat } := by
  obtain ⟨u, hu⟩ := State.writeWmem_isSome (s := s) v h
  refine ⟨u, hu, ?_⟩
  simp only [State.hostWrite, hu, State.writeWmem_unfinished hu]

@[simp] theorem State.inputStep_writeWord (s : State) (i : Count) (v : Word) :
    s.inputStep ⟨false, .writeWord i v⟩ = s.hostWrite i v := rfl

/-- The time step of a host write of a word that exists. -/
theorem step_of_hostWrite {s : State} {i : Count} {v : Word} {later : List Input}
    (hin : s.inputs = ⟨false, .writeWord i v⟩ :: later) (h : i.toNat < s.wmemCap) :
    ∃ u, ({ s with inputs := later }).writeWmem i.toNat v = some u ∧
      step s = .next { u with unfinished := unmarkIndex s.unfinished i.toNat } := by
  obtain ⟨u, hu, hstep⟩ := State.hostWrite_of_lt (s := { s with inputs := later }) v h
  exact ⟨u, hu, by rw [step_of_input hin, State.inputStep_writeWord, hstep]⟩

/-- A write below `WORD_COUNT` of a running decoder leaves it a note (R289; log 8). -/
theorem State.writeWmem_notes {s t : State} {i : Nat} {v : Word} {d : DecId} (h : s.writeWmem i v = some t)
    (hr : (s.dec d).state = .run) (hi : i < (s.dec d).wordCount.toNat) : ∃ n, (t.dec d).taint = some n := by
  cases ht : (t.dec d).taint with
  | some n => exact ⟨n, rfl⟩
  | none =>
    have := State.writeWmem_claimed h ht hr
    omega

/-- What a decoder whose run is noted pulls (log 8). -/
theorem State.wordAt_of_taint {s : State} {d : DecId} {n k : Nat} (ht : (s.dec d).taint = some n) (hk : k < s.wmemCap) :
    s.wordAt d k = some (Config.mixedWord n k) := by
  simp only [State.wordAt, hk, if_true, ht]

/-- Settles O48: the write leaves a note (`State.writeWmem_notes`), and a noted run pulls free values. -/
theorem writeUnderARunningDecoderFreesItsWords : Obligations.WriteUnderARunningDecoderFreesItsWords := by
  intro s d i v later hin hi hr hwc
  obtain ⟨u, hu, hstep⟩ := step_of_hostWrite hin hi
  obtain ⟨-, hwmem, -⟩ := State.writeWmem_some hu
  obtain ⟨n, hn⟩ := State.writeWmem_notes hu (d := d) (by rw [State.dec_withInputs]; exact hr)
    (by rw [State.dec_withInputs]; exact hwc)
  have hnote : (({ u with unfinished := unmarkIndex s.unfinished i.toNat } : State).dec d).taint = some n := by
    rw [State.dec_withUnfinished, hn]
  refine ⟨_, n, hstep, ?_, hnote, fun k hk => State.wordAt_of_taint hnote hk⟩
  simp only [hwmem, Mem.read_write_same]

/-! ## The words of an unfinished encode (R74, R285 item 1, R286; log 23) -/

/-- The words a push stored are unfinished, and those that were stay so. -/
theorem PushStores.unfinished {s t : State} (h : PushStores s t) :
    (∀ i ∈ s.unfinished, i ∈ t.unfinished) ∧
      (t.enc.wcount ≠ s.enc.wcount → s.enc.wcount.toNat ∈ t.unfinished) ∧
      (t.enc.wcount = s.enc.wcount + 2 → (s.enc.wcount + 1).toNat ∈ t.unfinished) := by
  cases h with
  | none h =>
    have hcount := h.wcount
    refine ⟨fun i hi => by rw [h.unfinished]; exact hi, fun hne => absurd hcount hne, fun htwo => ?_⟩
    bv_omega
  | one h =>
    have hcount := h.wcount
    refine ⟨fun i hi => (h.mem_unfinished i).2 (.inr hi), fun _ => (h.mem_unfinished _).2 (.inl rfl), fun htwo => ?_⟩
    bv_omega
  | two u h k =>
    refine ⟨fun i hi => (k.mem_unfinished i).2 (.inr ((h.mem_unfinished i).2 (.inr hi))),
      fun _ => (k.mem_unfinished _).2 (.inr ((h.mem_unfinished _).2 (.inl rfl))),
      fun _ => (k.mem_unfinished _).2 (.inl (by rw [h.wcount]))⟩

/-- A finish that goes through leaves no word unfinished, so that each is found as it stands (R74, R255). -/
theorem State.finishStream_unfinished {s t : State} (h : s.finishStream = some t) :
    t.unfinished = [] ∧ ∀ i, t.words i = t.held i := by
  have hnil : t.unfinished = [] := by
    rcases State.finishStream_some h with ⟨-, rfl⟩ | ⟨-, u, -, rfl⟩ <;> rfl
  exact ⟨hnil, fun i => State.words_of_finished (by simp [hnil])⟩

/-- A finish that ends in `DONE` went through. -/
theorem finishStream_of_done {s t : State} (hacc : s.enc.accepts = true) (h : exec .encFinish s = .next t)
    (hdone : t.enc.state = .done) : s.finishStream = some t := by
  rcases exec_encFinish_next h with ⟨hrefused, -⟩ | ⟨-, rfl | hp⟩
  · rw [hacc] at hrefused; cases hrefused
  · have hbusy : s.stickEnc.enc.state = .busy := ((Enc.accepts_iff _).1 hacc).1
    rw [hbusy] at hdone; cases hdone
  · exact hp

/-- Settles O49: clause by clause, what a push stores, what a finish clears, and which word a host write takes out. -/
theorem wordsStayUnfinishedUntilDone : Obligations.WordsStayUnfinishedUntilDone := by
  refine ⟨fun s t v h => (exec_encPush_next h).2.unfinished,
    fun s t hacc h hdone => State.finishStream_unfinished (finishStream_of_done hacc h hdone), fun s t h => ?_,
    fun s t a later hin h => ?_, fun s i v later hin hi => ?_⟩
  · cases h; rfl
  · rw [step_of_input hin, State.inputStep_reset] at h
    cases h; rfl
  · obtain ⟨u, hu, hstep⟩ := step_of_hostWrite hin hi
    obtain ⟨-, hwmem, -⟩ := State.writeWmem_some hu
    refine ⟨_, hstep, ?_, fun a ha => ?_, mem_unmarkIndex s.unfinished i.toNat⟩
    · simp only [hwmem, Mem.read_write_same]
    · simp only [hwmem, Mem.read_write_other _ v ha]

end Sys2Proof.Machine
end

section
/-! PROOFS. Decoding against encoding (30_encoding.md): records, windows and commands, and the record a decoder finds at
its cursor (R92 to R96, R103 to R110, R203, R206). -/

namespace Sys2Proof.Machine

/-! ## Records (R92 to R97, R103) -/

theorem decode_record_of_decodeRecord {bits : List Bool} {i : Instr} (h : decodeRecord bits = .ok (i, [])) :
    decode (.record bits) = .ok i := by
  simp only [decode, h]

/-- The encoding of a record, whatever follows it, decodes to the record. -/
theorem decodeRecord_of_encode {i : Instr} {own : List Bool} (h : encode i = .record own) (rest : List Bool) :
    decodeRecord (own ++ rest) = .ok (i, rest) := by
  cases i <;> cases h
  case recC0.refl v => simpa [recordInstr_c0] using decodeRecord_recordBits .c0 v.toNat rest v.isLt
  case recC1.refl v => simpa [recordInstr_c1] using decodeRecord_recordBits .c1 v.toNat rest v.isLt
  case recC2.refl v => simpa [recordInstr_c2] using decodeRecord_recordBits .c2 v.toNat rest v.isLt
  case recC3.refl v => simpa [recordInstr_c3] using decodeRecord_recordBits .c3 v.toNat rest v.isLt

theorem decode_of_encode_record {i : Instr} {own : List Bool} (h : encode i = .record own) :
    decode (encode i) = .ok i := by
  have hown : decodeRecord own = .ok (i, []) := by simpa using decodeRecord_of_encode h []
  rw [h, decode_record_of_decodeRecord hown]

/-! ## Decode of encode -/

/-- Settles O2: a record's tag fixes where its payload ends (`decodeRecord_of_encode`), the table selects the entry of
each window (`decodeWindow_winPat0` to `decodeWindow_winPat15`), and each command has a code of its own. -/
theorem decodeOfEncodeIsTheInstruction : Obligations.DecodeOfEncodeIsTheInstruction := by
  intro i _
  cases i with
  | recC0 v => exact decode_of_encode_record rfl
  | recC1 v => exact decode_of_encode_record rfl
  | recC2 v => exact decode_of_encode_record rfl
  | recC3 v => exact decode_of_encode_record rfl
  | pat0 a b c d x => exact decodeWindow_winPat0 a b c d x
  | pat1 a b c d x => exact decodeWindow_winPat1 a b c d x
  | pat2 a b c x => exact decodeWindow_winPat2 a b c x
  | pat3 a b c x => exact decodeWindow_winPat3 a b c x
  | pat4 a b x => exact decodeWindow_winPat4 a b x
  | pat5 a b c x => exact decodeWindow_winPat5 a b c x
  | pat6 a b c => exact decodeWindow_winPat6 a b c
  | pat7 a b x => exact decodeWindow_winPat7 a b x
  | pat8 a b => exact decodeWindow_winPat8 a b
  | pat9 a x => exact decodeWindow_winPat9 a x
  | pat10 a b c x => exact decodeWindow_winPat10 a b c x
  | pat11 a b c => exact decodeWindow_winPat11 a b c
  | pat12 a b x => exact decodeWindow_winPat12 a b x
  | pat13 a b x => exact decodeWindow_winPat13 a b x
  | pat14 a x => exact decodeWindow_winPat14 a x
  | pat15 a x => exact decodeWindow_winPat15 a x
  | encStart => rfl
  | encPush v => simp [encode, commandOf, decode, decodeCommand]
  | encFinish => rfl
  | sdecStart wc vc => rfl
  | bdecStart wc vc => rfl

/-! ## The record formats (R93 to R96) -/

theorem bitsOf_eq_map (n v : Nat) : bitsOf n v = (List.range n).map fun j => v.testBit (n - 1 - j) := by
  refine List.ext_getElem (by simp) fun j hj _ => ?_
  have hjn : j < n := by simpa using hj
  rw [List.getElem_map, List.getElem_range, ← getD_bitsOf n v j hjn, List.getD_eq_getElem _ _ hj]

/-- R104: the payload of `v` in a field of `w` bits are the low `w` bits of `v`. -/
theorem payloadOf_toNat (v : Word) {w : Nat} (h : w ≤ 32) : (payloadOf v w).toNat = (v.extractLsb' 0 w).toNat := by
  have hfield : payloadOf v w = (v.extractLsb' 0 w).setWidth 32 := by
    rw [← shift_and_maskBits, BitVec.ushiftRight_zero, payloadOf]
  have hlt : (v.extractLsb' 0 w).toNat < 2 ^ 32 :=
    lt_of_lt_of_le (v.extractLsb' 0 w).isLt (Nat.pow_le_pow_right (by decide) h)
  rw [hfield, BitVec.toNat_setWidth, Nat.mod_eq_of_lt hlt]

theorem recordOf_of_class {v : Word} {c : WClass} (h : classOf v = c) :
    recordOf v = recordBits c (v.extractLsb' 0 c.width).toNat := by
  rw [recordOf, h, payloadOf_toNat v (WClass.width_le c)]

/-- Settles O1: the payload's bits are those of `bitsOf_eq_map`; the class of a value is that of its range
(`classOf_eq_of_value`), its payload the value's low bits. -/
theorem recordFormatsAreTagThenPayload : Obligations.RecordFormatsAreTagThenPayload := by
  refine ⟨fun v => ?_, fun v => ?_, fun v => ?_, fun v => ?_, fun w => ⟨fun h => ?_, fun h1 h2 => ?_, fun h1 h2 => ?_,
    fun h => ?_⟩⟩
  · exact congrArg (fun bits => Encoding.record ([false, false] ++ bits)) (bitsOf_eq_map 4 v.toNat)
  · exact congrArg (fun bits => Encoding.record ([false, true] ++ bits)) (bitsOf_eq_map 11 v.toNat)
  · exact congrArg (fun bits => Encoding.record ([true, false] ++ bits)) (bitsOf_eq_map 24 v.toNat)
  · exact congrArg (fun bits => Encoding.record ([true, true] ++ bits)) (bitsOf_eq_map 32 v.toNat)
  · have hc : classOf w = .c0 := by simp [classOf_eq_of_value, h]
    rw [recordOf_of_class hc]; rfl
  · have hc : classOf w = .c1 := by simp [classOf_eq_of_value, h2, Nat.not_lt.2 h1]
    rw [recordOf_of_class hc]; rfl
  · have hc : classOf w = .c2 := by simp [classOf_eq_of_value, h2, Nat.not_lt.2 h1, show ¬ w.toNat < 16 by omega]
    rw [recordOf_of_class hc]; rfl
  · have hc : classOf w = .c3 := by
      simp [classOf_eq_of_value, Nat.not_lt.2 h, show ¬ w.toNat < 16 by omega, show ¬ w.toNat < 2048 by omega]
    rw [recordOf_of_class hc]; simp [encode, WClass.width]

/-! ## Bit strings as records (R103, R106) -/

/-- Settles O4: `decodeRecord_ok` with the encoding of the record it names. -/
theorem decodedRecordBitsAreItsEncoding : Obligations.DecodedRecordBitsAreItsEncoding := by
  intro bits rest i h
  obtain ⟨c, p, hp, rfl, hbits⟩ := decodeRecord_ok h
  exact ⟨recordBits c p, encode_recordInstr c p hp, hbits⟩

/-- A bit string of at least `RECLEN[c]` bits that begins with the tag of `c` is a record of class `c` and a rest. -/
theorem eq_recordBits_append {c : WClass} {bits : List Bool} (htag : bits.take 2 = bitsOf 2 c.tag.toNat)
    (hlen : c.recLen ≤ bits.length) :
    ∃ p, p < 2 ^ c.width ∧ bits = recordBits c p ++ bits.drop c.recLen := by
  have hfield : ((bits.drop 2).take c.width).length = c.width := by
    rw [WClass.recLen_eq] at hlen
    rw [List.length_take, List.length_drop]
    omega
  have hlt := numOf_lt ((bits.drop 2).take c.width)
  have hpay := bitsOf_numOf ((bits.drop 2).take c.width)
  rw [hfield] at hlt hpay
  refine ⟨_, hlt, ?_⟩
  rw [recordBits, hpay, Config.tagBits, ← htag, WClass.recLen_eq, ← List.drop_drop, List.append_assoc,
    List.take_append_drop, List.take_append_drop]

/-- Settles O5: such a bit string is a record and a rest (`eq_recordBits_append`), and those decode. -/
theorem everyLongEnoughBitStringIsARecord : Obligations.EveryLongEnoughBitStringIsARecord := by
  intro tag bits htag hlen
  obtain ⟨p, hp, hbits⟩ := eq_recordBits_append (c := WClass.ofTag tag) (by rw [WClass.tag_ofTag]; exact htag) hlen
  refine ⟨recordInstr tag (BitVec.ofNat 32 p), bits.drop (WClass.ofTag tag).recLen, ?_, recordInstr_recClass tag _, ?_⟩
  · have hdec := decodeRecord_recordBits _ p (bits.drop (WClass.ofTag tag).recLen) hp
    rwa [← hbits, WClass.tag_ofTag] at hdec
  · rw [List.length_drop]
    omega

/-! ## Sample words (R113, 95_test_vectors.md) -/

/-- A table number that stands for the encoding of an instruction decodes to the instruction. -/
theorem decodeTableWord_of_tableForm {nbits w : Nat} {i : Instr} (h : tableForm nbits w = some (encode i))
    (hwf : i.wf = true) : decodeTableWord nbits w = some i := by
  rw [decodeTableWord, h, Option.bind_some, decodeOfEncodeIsTheInstruction i hwf]
  rfl

/-- Settles O6: each word is the number of its instruction's encoding. -/
theorem sampleWordsDecodeAsTheSpecSays : Obligations.SampleWordsDecodeAsTheSpecSays :=
  ⟨decodeTableWord_of_tableForm rfl rfl, decodeTableWord_of_tableForm rfl rfl, decodeTableWord_of_tableForm rfl rfl,
    decodeTableWord_of_tableForm rfl rfl, decodeTableWord_of_tableForm rfl rfl, decodeTableWord_of_tableForm rfl rfl,
    decodeTableWord_of_tableForm rfl rfl, decodeTableWord_of_tableForm rfl rfl⟩

/-! ## Commands (R109, R110) -/

/-- Settles O7: the arms of `decodeCommand`; the operand of `ENC_PUSH` is `OPA[31:0]`. -/
theorem commandCodesAreThoseOfTheTable : Obligations.CommandCodesAreThoseOfTheTable := by
  intro c
  have hopa : c.opa.setWidth 32 = c.opa.extractLsb' 0 32 := BitVec.setWidth_eq_extractLsb' (by decide)
  rw [← hopa]
  rfl

/-- R110: a command whose code is not assigned is rejected. -/
theorem decodeCommand_of_reserved {c : CommandWord} (h : c.wf = false) :
    decodeCommand c = .error (.reservedCommand c.cmd) := by
  have hcode : ∀ k : BitVec 4, assignedCode k.toNat = true → c.cmd ≠ k := by
    rintro k hk rfl
    rw [CommandWord.wf, hk] at h
    cases h
  unfold decodeCommand
  rw [if_neg (hcode _ rfl), if_neg (hcode _ rfl), if_neg (hcode _ rfl), if_neg (hcode _ rfl), if_neg (hcode _ rfl)]

/-- Settles O19: the entry is taken, and its code decodes to no command. -/
theorem reservedCommandChangesNothing : Obligations.ReservedCommandChangesNothing := by
  intro s c later hwf hin
  rw [step_of_input hin, State.inputStep_command, State.commandStep, decodeCommand_of_reserved hwf]

/-! ## Windows (R203, R206) -/

/-- The bits of a concatenation, most significant first. -/
theorem bitsOf_toNat_append {k m n : Nat} (hk : k = m + n) (x : BitVec m) (y : BitVec n) :
    bitsOf k (x ++ y).toNat = bitsOf m x.toNat ++ bitsOf n y.toNat := by
  subst hk
  refine List.ext_getElem (by simp) fun j hj _ => ?_
  have hjn : j < m + n := by simpa using hj
  rw [← List.getD_eq_getElem _ false hj, getD_bitsOf _ _ j hjn, ← BitVec.getLsbD, BitVec.getLsbD_append,
    List.getElem_append]
  simp only [length_bitsOf]
  split_ifs with hlow hhigh hhigh
  · omega
  · rw [← List.getD_eq_getElem _ false, getD_bitsOf n _ _ (by omega)]
    exact congrArg y.getLsbD (by omega)
  · rw [← List.getD_eq_getElem _ false, getD_bitsOf m _ _ hhigh]
    exact congrArg x.getLsbD (by omega)
  · omega

/-- The instruction selection reads from a window that matches the entry encodes to the window. -/
theorem encode_patInstr {k : Nat} {win : Word} {i : Instr} (hk : k < 16) (h : patInstr k win = some i)
    (hm : win &&& (patTable.getD k pt0).mask = (patTable.getD k pt0).expect) : encode i = .window win := by
  interval_cases k <;> simp only [patInstr, Option.some.injEq] at h <;> subst h
  · exact congrArg Encoding.window (winPat0_of_match hm)
  · exact congrArg Encoding.window (winPat1_of_match hm)
  · exact congrArg Encoding.window (winPat2_of_match hm)
  · exact congrArg Encoding.window (winPat3_of_match hm)
  · exact congrArg Encoding.window (winPat4_of_match hm)
  · exact congrArg Encoding.window (winPat5_of_match hm)
  · exact congrArg Encoding.window (winPat6_of_match hm)
  · exact congrArg Encoding.window (winPat7_of_match hm)
  · exact congrArg Encoding.window (winPat8_of_match hm)
  · exact congrArg Encoding.window (winPat9_of_match hm)
  · exact congrArg Encoding.window (winPat10_of_match hm)
  · exact congrArg Encoding.window (winPat11_of_match hm)
  · exact congrArg Encoding.window (winPat12_of_match hm)
  · exact congrArg Encoding.window (winPat13_of_match hm)
  · exact congrArg Encoding.window (winPat14_of_match hm)
  · exact congrArg Encoding.window (winPat15_of_match hm)

theorem encode_of_decodeWindow {win : Word} {i : Instr} (h : decodeWindow win = .ok i) : encode i = .window win := by
  unfold decodeWindow at h
  cases hk : kselect (matchMask win) with
  | none => simp [hk] at h
  | some k =>
    obtain ⟨hk16, hm⟩ := match_of_kselect hk
    obtain ⟨j, hj⟩ := patInstr_isSome hk16 win
    simp only [hk, Option.bind_some, hj, Except.ok.injEq] at h
    exact encode_patInstr hk16 (h ▸ hj) hm

/-- The bits of a record's encoding; none for a window or a command. -/
@[simp] def encodingBits : Encoding → List Bool
  | .record bits => bits
  | .window _ | .command _ => []

/-- The bits of records one behind the other (R97). -/
@[simp] def recordsBits : List Instr → List Bool
  | [] => []
  | r :: rs => encodingBits (encode r) ++ recordsBits rs

@[simp] theorem recordBits_c0 (p : Nat) : recordBits .c0 p = bitsOf 2 0 ++ bitsOf 4 p := rfl
@[simp] theorem recordBits_c1 (p : Nat) : recordBits .c1 p = bitsOf 2 1 ++ bitsOf 11 p := rfl
@[simp] theorem recordBits_c2 (p : Nat) : recordBits .c2 p = bitsOf 2 2 ++ bitsOf 24 p := rfl

/-- The window of a pattern entry begins with the bits of the entry's records; behind them stand the stop check and the
untested bits (R200, R203). -/
theorem bitsOf_window {i : Instr} {win : Word} (h : encode i = .window win) :
    ∃ rest, bitsOf 32 win.toNat = recordsBits i.records ++ rest := by
  cases i <;> cases h
  case' pat0.refl a b c d x => refine ⟨bitsOf 8 x.toNat, ?_⟩; simp only [winPat0, bitsOf_toNat_append]
  case' pat1.refl a b c d x => refine ⟨bitsOf 1 x.toNat, ?_⟩; simp only [winPat1, bitsOf_toNat_append]
  case' pat2.refl a b c x => refine ⟨bitsOf 1 1 ++ bitsOf 13 x.toNat, ?_⟩; simp only [winPat2, bitsOf_toNat_append]
  case' pat3.refl a b c x => refine ⟨bitsOf 7 x.toNat, ?_⟩; simp only [winPat3, bitsOf_toNat_append]
  case' pat4.refl a b x => refine ⟨bitsOf 1 1 ++ bitsOf 19 x.toNat, ?_⟩; simp only [winPat4, bitsOf_toNat_append]
  case' pat5.refl a b c x => refine ⟨bitsOf 7 x.toNat, ?_⟩; simp only [winPat5, bitsOf_toNat_append]
  case' pat6.refl a b c => refine ⟨[], ?_⟩; simp only [winPat6, bitsOf_toNat_append]
  case' pat7.refl a b x => refine ⟨bitsOf 1 1 ++ bitsOf 12 x.toNat, ?_⟩; simp only [winPat7, bitsOf_toNat_append]
  case' pat8.refl a b => refine ⟨[], ?_⟩; simp only [winPat8, bitsOf_toNat_append]
  case' pat9.refl a x => refine ⟨bitsOf 2 3 ++ bitsOf 24 x.toNat, ?_⟩; simp only [winPat9, bitsOf_toNat_append]
  case' pat10.refl a b c x => refine ⟨bitsOf 7 x.toNat, ?_⟩; simp only [winPat10, bitsOf_toNat_append]
  case' pat11.refl a b c => refine ⟨[], ?_⟩; simp only [winPat11, bitsOf_toNat_append]
  case' pat12.refl a b x => refine ⟨bitsOf 1 1 ++ bitsOf 12 x.toNat, ?_⟩; simp only [winPat12, bitsOf_toNat_append]
  case' pat13.refl a b x => refine ⟨bitsOf 6 x.toNat, ?_⟩; simp only [winPat13, bitsOf_toNat_append]
  case' pat14.refl a x => refine ⟨bitsOf 1 1 ++ bitsOf 18 x.toNat, ?_⟩; simp only [winPat14, bitsOf_toNat_append]
  case' pat15.refl a x => refine ⟨bitsOf 6 x.toNat, ?_⟩; simp only [winPat15, bitsOf_toNat_append]
  all_goals simp [Instr.records, encode]

/-- What an entry stands for are records: each encodes to a record's bits. -/
theorem encode_of_mem_records (i : Instr) : ∀ r ∈ i.records, encode r = .record (encodingBits (encode r)) := by
  cases i <;> simp [Instr.records, encode]

/-- Records, whatever follows them, parse as themselves (R103). -/
theorem parseRecords_recordsBits (rs : List Instr) (rest : List Bool)
    (h : ∀ r ∈ rs, encode r = .record (encodingBits (encode r))) :
    parseRecords rs.length (recordsBits rs ++ rest) = some rs := by
  induction rs with
  | nil => rfl
  | cons r rs ih =>
    have hfirst := decodeRecord_of_encode (h r List.mem_cons_self) (recordsBits rs ++ rest)
    have hrest := ih fun r' hr' => h r' (List.mem_cons_of_mem r hr')
    simp only [recordsBits, List.append_assoc, List.length_cons, parseRecords, hfirst, hrest, Option.map_some]

/-- Settles O11: the window is the encoding of the entry (`encode_of_decodeWindow`), and its bits begin with those of the
entry's records (`bitsOf_window`). -/
theorem matchedEntryParsesAsItsRecords : Obligations.MatchedEntryParsesAsItsRecords := by
  intro win i h
  obtain ⟨rest, hbits⟩ := bitsOf_window (encode_of_decodeWindow h)
  rw [hbits]
  exact parseRecords_recordsBits i.records rest (encode_of_mem_records i)

/-! ## The record at the cursor (R103, R154, R179) -/

/-- Settles O25: outside batch mode a decoder reads `DEC.record`, whose tag and payload are those of the stream at `POS`
(`BB.record_stream`). -/
theorem fetchedRecordIsTheStreamsRecord : Obligations.FetchedRecordIsTheStreamsRecord := by
  intro s d i hb ht hinv hholds h
  unfold State.fetch at h
  simp only [hb, Bool.false_eq_true, if_false] at h
  rcases (s.dec d).bb.fetchRecord_eq (s.wordAt d) (s.dec d).wordCount with
    ⟨t, p, b, hrec, hf⟩ | ⟨b, -, hf⟩ | ⟨k, -, hf⟩
  · obtain ⟨hclass, hvalue⟩ := BB.record_stream (fun _ _ => State.wordAt_words ht) hinv hholds hrec
    have hlt := BB.record_payload_lt hrec
    rw [hf] at h
    cases h
    have henc := encode_recordInstr (WClass.ofTag t) p.toNat hlt
    rw [WClass.tag_ofTag, BitVec.ofNat_toNat, BitVec.setWidth_eq] at henc
    refine ⟨_, henc, ?_⟩
    rw [length_recordBits, hclass, hvalue, bitsFrom_record]
  · rw [hf] at h; cases h
  · rw [hf] at h; cases h

end Sys2Proof.Machine
end

section
/-! PROOFS. The record step (R172, R175 to R178) and SDEC's run over a stream against the stream's parse (R98, R100, R180). -/

namespace Sys2Proof.Machine

/-! ## A record that completes (R172, R173) -/

/-- A record whose bits and whose slot are there: its value in the slot `OCUR`, the bit buffer behind the record. -/
theorem State.recordStep_decodesTo {s : State} {i : Instr} {c : WClass} {v : Word} (hexec : exec i s = s.recordStep c v)
    (hinv : (s.dec s.actor).bb.Inv (s.dec s.actor).wordCount) (h : s.recordReady c) :
    s.decodesTo i s.actor [v] 1 c.recLen := by
  obtain ⟨hen, hbits, hslot⟩ := h
  obtain ⟨bb, hpull⟩ := State.recordPull_complete hbits
  obtain ⟨-, hleft, hpos, hholds⟩ := State.recordPull_ok hpull
  have hrun := ((Dec.enabled_iff _).1 hen).1
  refine ⟨bb, ?_, (hpos hinv).2, hleft, fun ht => hholds ht hinv⟩
  rw [hexec, State.recordStep_of_enabled c v hen, hpull, State.settle_ok, Dec.storeValue_eq, if_pos hslot, hrun,
    State.afterDecode]

/-- Settles O32: each format runs the record step of its class. -/
theorem recordsDecodeToTheirPayload : Obligations.RecordsDecodeToTheirPayload := fun _ hinv =>
  ⟨fun _ => State.recordStep_decodesTo rfl hinv, fun _ => State.recordStep_decodesTo rfl hinv,
    fun _ => State.recordStep_decodesTo rfl hinv, fun _ => State.recordStep_decodesTo rfl hinv⟩

/-! ## `DEC.record` on a stream (R179) -/

/-- The bits left to a bit buffer are those of its words from `POS` on (R33). -/
theorem BB.Inv.left_add_pos {bb : BB} {wc : Count} (h : bb.Inv wc) : bb.left wc + bb.pos = 32 * wc.toNat := by
  obtain ⟨-, hnavail, hwidx⟩ := h
  rw [BitVec.le_def] at hwidx
  unfold BB.left BB.pos
  omega

/-- `DEC.record` goes through where the bits of the stream's record at `POS` are left, if the words exist (R103, R252). -/
theorem BB.record_complete {bb : BB} {src : Nat → Option Word} {wc : Count} {words : Nat → Word}
    (hs : ∀ i w, src i = some w → w = words i) (hsome : ∀ i, i < wc.toNat → (src i).isSome) (hi : bb.Inv wc)
    (hh : bb.Holds words) (hl : (classAt words bb.pos).recLen ≤ bb.left wc) :
    ∃ t p b, bb.record src wc = .value t p b := by
  rw [WClass.recLen_eq] at hl
  obtain ⟨b0, h0⟩ := BB.need_complete (k := Config.tagBits) (le_trans (Nat.le_add_right 2 _) hl) hsome
  obtain ⟨hbits, hleft, hpos, -⟩ := BB.need_spec (by decide) h0
  have htag : (b0.peek Config.tagBits).toNat = streamField words bb.pos Config.tagBits := by
    rw [(BB.Holds.need (by decide) hs hi h0 hh).peek_toNat (by decide) hbits, hpos]
  have hclass : WClass.ofTag ((b0.peek Config.tagBits).setWidth 2) = classAt words bb.pos := by
    rw [classAt, ← htag]
    rfl
  obtain ⟨hconsumed, -, -⟩ := BB.consume_spec (wc := wc) hbits
  obtain ⟨b1, h1⟩ := BB.need_complete (bb := b0.consume Config.tagBits) (k := (classAt words bb.pos).width)
    (by rw [hconsumed, hleft, Config.tagBits]; omega) hsome
  refine ⟨(b0.peek Config.tagBits).setWidth 2, b1.peek (classAt words bb.pos).width,
    b1.consume (classAt words bb.pos).width, ?_⟩
  simp only [BB.record, h0, BB.payload, hclass, h1]

/-- A read of a field pulls a word only where fewer bits are buffered than the field has, so that fewer than 32 stay. -/
theorem BB.take_navail {bb b : BB} {src : Nat → Option Word} {wc : Count} {k : Nat} (hn : bb.navail.toNat ≤ 31)
    (h : bb.take src wc k = .ok b) (hk : k ≤ 32) : b.navail.toNat ≤ 31 := by
  obtain ⟨b0, h0, hb⟩ := Pull.andThen_ok h
  cases hb
  rw [BB.consume_navail_toNat b0 k (BB.need_spec hk h0).1]
  rcases BB.need_ok h0 with ⟨-, rfl⟩ | ⟨hfew, -, w, -, rfl⟩
  · omega
  · rw [BB.pulled_navail_toNat bb w (by omega)]
    omega

theorem BB.passRecord_navail {bb b : BB} {src : Nat → Option Word} {wc : Count} {c : WClass} (hn : bb.navail.toNat ≤ 31)
    (h : bb.passRecord src wc c = .ok b) : b.navail.toNat ≤ 31 := by
  obtain ⟨b0, h0, hb⟩ := Pull.andThen_ok h
  exact BB.take_navail (BB.take_navail hn h0 (by decide)) hb (WClass.width_le c)

/-- With fewer than 32 bits buffered no word behind the one that holds the last bit read was pulled (R99). -/
theorem BB.Inv.widx_eq {bb : BB} {wc : Count} (h : bb.Inv wc) (hn : bb.navail.toNat ≤ 31) :
    bb.widx.toNat = wordsFor bb.pos := by
  obtain ⟨-, hnavail, -⟩ := h
  unfold wordsFor BB.pos
  omega

/-! ## The parse of a stream (R98) -/

theorem recordStart_mono (words : Nat → Word) : Monotone (recordStart words) :=
  monotone_nat_of_le_succ fun _ => Nat.le_add_right _ _

/-! ## A run of SDEC (R180) -/

/-- A decoder started with `(wc, vc)` on the stream `words` has decoded the first `k` records. -/
structure Dec.Parsed (x : Dec) (words : Nat → Word) (wc vc : Count) (k : Nat) : Prop where
  wordCount : x.wordCount = wc
  valueCount : x.valueCount = vc
  room : vc.toNat ≤ x.voutCap
  ocur : x.ocur.toNat = k
  enabled : k < vc.toNat → x.enabled = true
  done : k = vc.toNat → x.state = .done
  faultCode : x.faultCode = .none
  taint : x.taint = none
  inv : x.bb.Inv wc
  holds : x.bb.Holds words
  navail : x.bb.navail.toNat ≤ 31
  pos : x.bb.pos = recordStart words k
  slots : ∀ j, j < k → x.vout.read j = some (valueAt words (recordStart words j))

theorem Dec.parsed_start {x : Dec} (words : Nat → Word) (wc vc : Count) (hroom : vc.toNat ≤ x.voutCap) :
    (x.start wc vc).Parsed words wc vc 0 where
  wordCount := rfl
  valueCount := rfl
  room := hroom
  ocur := rfl
  enabled hk := by
    have hne : vc ≠ 0 := by rintro rfl; exact absurd hk (by decide)
    simpa [Dec.enabled_iff, startState] using hne
  done hk := by
    have hzero : vc = 0 := BitVec.eq_of_toNat_eq hk.symm
    simp [startState, hzero]
  faultCode := rfl
  taint := rfl
  inv := BB.reset_inv wc
  holds := BB.reset_holds words
  navail := Nat.zero_le _
  pos := rfl
  slots j hj := absurd hj (Nat.not_lt_zero j)

/-- One record more: `DEC.record`'s value stored (R172). -/
theorem Dec.Parsed.storeValue {x : Dec} {words : Nat → Word} {wc vc : Count} {k : Nat} (h : x.Parsed words wc vc k)
    {src : Nat → Option Word} {t : BitVec 2} {p : Word} {b : BB} (hs : ∀ i w, src i = some w → w = words i)
    (hk : k < vc.toNat) (hrec : x.bb.record src wc = .value t p b) :
    (x.storeValue b p).Parsed words wc vc (k + 1) := by
  obtain ⟨hclass, hvalue⟩ := BB.record_stream hs h.inv h.holds hrec
  have hpass := BB.record_value hrec
  obtain ⟨-, -, hinv, hholds⟩ := BB.passRecord_spec hpass
  obtain ⟨hrun, hstuck⟩ := (Dec.enabled_iff x).1 (h.enabled hk)
  have hocur : (x.ocur + BitVec.ofNat 64 1).toNat = k + 1 := by
    have := vc.isLt
    rw [BitVec.toNat_add, h.ocur, BitVec.toNat_ofNat]
    omega
  have hlast : x.ocur + BitVec.ofNat 64 1 = x.valueCount ↔ k + 1 = vc.toNat := by
    rw [← BitVec.toNat_inj, hocur, h.valueCount]
  have hslot : x.ocur.toNat < x.voutCap := by
    rw [h.ocur]
    exact lt_of_lt_of_le hk h.room
  rw [Dec.storeValue_eq_decoded, if_pos hslot, Dec.decoded]
  refine ⟨h.wordCount, h.valueCount, h.room, hocur, fun hmore => ?_, fun hend => ?_, h.faultCode, h.taint,
    (hinv h.inv).1, hholds _ hs h.inv h.holds, BB.passRecord_navail h.navail hpass, ?_, fun j hj => ?_⟩
  · have hnot : ¬ (x.ocur + BitVec.ofNat 64 1 = x.valueCount) := fun heq => by
      rw [hlast] at heq
      omega
    simp only [Dec.enabled_iff, if_neg hnot, hrun, hstuck, and_self]
  · exact if_pos (hlast.2 hend)
  · show b.pos = behindRecord words (recordStart words k)
    rw [(hinv h.inv).2, hclass, h.pos, behindRecord]
  · rw [h.ocur, Mem.writeAll_cons, Mem.writeAll_nil]
    rcases Nat.lt_succ_iff_lt_or_eq.1 hj with hlt | rfl
    · rw [Mem.read_write_other _ _ (Nat.ne_of_lt hlt), h.slots j hlt]
    · rw [Mem.read_write_same, hvalue, h.pos]

/-- A step of SDEC at a record whose bits are there (R172, R179). -/
theorem State.decoderStep_sdec_of_record {s : State} {t : BitVec 2} {p : Word} {b : BB} (hen : s.sdec.enabled = true)
    (hrec : s.sdec.bb.record (s.wordAt .sdec) s.sdec.wordCount = .value t p b) :
    s.decoderStep .sdec = .next (({ s with actor := .sdec }).setDec .sdec (s.sdec.storeValue b p)) := by
  have hfetch : s.fetch .sdec = .instr (recordInstr t p) := by
    simp only [State.fetch, State.dec_sdec, Dec.batchMode_sdec, Bool.false_eq_true, if_false, BB.fetchRecord, hrec]
  have hfill : s.sdec.windowFill .sdec (s.wordAt .sdec) = .ok s.sdec.bb :=
    Dec.windowFill_of_not_batch _ (Dec.batchMode_sdec _)
  simp only [State.decoderStep, hfetch]
  exact exec_record_found (s := { s with actor := .sdec }) hen hfill hrec

/-- SDEC has decoded `k` records of the stream `words`, whose words below `wc` all exist. -/
structure State.Parsed (s : State) (words : Nat → Word) (wc vc : Count) (k : Nat) : Prop where
  stream : s.words = words
  cap : wc.toNat ≤ s.wmemCap
  dec : s.sdec.Parsed words wc vc k

/-- A step of SDEC decodes one record more, where the `vc` records end within the words. -/
theorem State.Parsed.step {s : State} {words : Nat → Word} {wc vc : Count} {k : Nat} (h : s.Parsed words wc vc k)
    (hk : k < vc.toNat) (hend : recordStart words vc.toNat ≤ 32 * wc.toNat) :
    ∃ t, s.decoderStep .sdec = .next t ∧ t.Parsed words wc vc (k + 1) := by
  have hx := h.dec
  have hs : ∀ i w, s.wordAt .sdec i = some w → w = words i := fun i w hw => by
    rw [← h.stream]
    exact State.wordAt_words (d := .sdec) hx.taint hw
  have hsome : ∀ i, i < wc.toNat → (s.wordAt .sdec i).isSome := fun i hi =>
    s.wordAt_isSome .sdec (lt_of_lt_of_le hi h.cap)
  have hfits : (classAt words s.sdec.bb.pos).recLen ≤ s.sdec.bb.left wc := by
    have hnext : recordStart words k + (classAt words (recordStart words k)).recLen ≤ recordStart words vc.toNat :=
      recordStart_mono words hk
    have hleft := hx.inv.left_add_pos
    rw [hx.pos] at hleft ⊢
    omega
  obtain ⟨t, p, b, hrec⟩ := BB.record_complete hs hsome hx.inv hx.holds hfits
  exact ⟨_, State.decoderStep_sdec_of_record (hx.enabled hk) (by rw [hx.wordCount]; exact hrec),
    h.stream, h.cap, hx.storeValue hs hk hrec⟩

theorem State.Parsed.decSteps {s : State} {words : Nat → Word} {wc vc : Count} {k n : Nat} (h : s.Parsed words wc vc k)
    (hn : k + n ≤ vc.toNat) (hend : recordStart words vc.toNat ≤ 32 * wc.toNat) :
    ∃ t, s.decSteps .sdec n = .next t ∧ t.Parsed words wc vc (k + n) := by
  induction n generalizing s k with
  | zero => exact ⟨s, rfl, h⟩
  | succ n ih =>
    obtain ⟨u, hstep, hu⟩ := h.step (by omega) hend
    obtain ⟨t, hrest, ht⟩ := ih hu (by omega)
    refine ⟨t, ?_, by rwa [Nat.add_assoc, Nat.add_comm 1 n] at ht⟩
    simp only [State.decSteps, State.dec_sdec, h.dec.enabled (by omega), if_true, hstep, hrest]

/-- The run of SDEC (R180): `vc` steps decode the first `vc` records, where they end within the words. -/
theorem State.sdec_run {s : State} {wc vc : Count} (hidle : s.sdec.state ≠ .run) (howns : s.encOwns wc = false)
    (hcap : wc.toNat ≤ s.wmemCap) (hroom : vc.toNat ≤ s.sdec.voutCap)
    (hend : recordStart s.words vc.toNat ≤ 32 * wc.toNat) :
    ∃ t, (s.startDec .sdec wc vc).decSteps .sdec vc.toNat = .next t ∧ t.Parsed s.words wc vc vc.toNat := by
  have hstart : (s.startDec .sdec wc vc).Parsed s.words wc vc 0 := by
    rw [State.startDec_of_free (d := .sdec) vc hidle howns]
    exact ⟨State.words_setDec .., hcap, Dec.parsed_start s.words wc vc hroom⟩
  simpa using hstart.decSteps (n := vc.toNat) (by omega) hend

/-- Settles O56: what SDEC has decoded when it has decoded all (`State.sdec_run`). -/
theorem sdecRunDecodesTheParse : Obligations.SdecRunDecodesTheParse := by
  intro s wc vc hidle howns hcap hroom hend
  obtain ⟨t, hrun, ht⟩ := State.sdec_run hidle howns hcap hroom hend
  have hx := ht.dec
  exact ⟨t, hrun, hx.done rfl, BitVec.eq_of_toNat_eq hx.ocur, hx.faultCode, hx.pos,
    by rw [hx.inv.widx_eq hx.navail, hx.pos], hx.slots⟩

/-! ## Streams that agree on their records (R100) -/

section
variable {words words' : Nat → Word} {n : Nat} (h : ∀ p, p < n → streamBit words' p = streamBit words p)
include h

theorem streamField_congr {p k : Nat} (hk : p + k ≤ n) : streamField words' p k = streamField words p k := by
  induction k with
  | zero => rfl
  | succ k ih => rw [streamField, streamField, ih (by omega), h (p + k) (by omega)]

/-- The record at `p` is the same where the streams agree up to its end. -/
theorem record_congr {p : Nat} (hp : behindRecord words p ≤ n) :
    behindRecord words' p = behindRecord words p ∧ valueAt words' p = valueAt words p := by
  rw [behindRecord, WClass.recLen_eq] at hp
  have hclass : classAt words' p = classAt words p := by
    rw [classAt, streamField_congr h (k := Config.tagBits) (by rw [Config.tagBits]; omega), classAt]
  refine ⟨by rw [behindRecord, hclass, behindRecord], ?_⟩
  rw [valueAt, hclass, streamField_congr h (by rw [Config.tagBits]; omega), valueAt]

theorem recordStart_congr {k : Nat} (hk : recordStart words k ≤ n) : recordStart words' k = recordStart words k := by
  induction k with
  | zero => rfl
  | succ k ih =>
    have hlast := ih (le_trans (recordStart_mono words (Nat.le_succ k)) hk)
    rw [recordStart, hlast, (record_congr h hk).1, recordStart]

end

/-- Settles O60: both machines decode the parse of their words (`State.sdec_run`), and the parses of streams that agree
on the bits of the records are the same. -/
theorem decodedValuesIgnorePadBits : Obligations.DecodedValuesIgnorePadBits := by
  intro s s' t t' wc vc hidle hidle' howns howns' hcap hcap' hroom hroom' hend hbits hrun hrun'
  have hend' : recordStart s'.words vc.toNat = recordStart s.words vc.toNat := recordStart_congr hbits le_rfl
  obtain ⟨u, hu, hparsed⟩ := State.sdec_run hidle howns hcap hroom hend
  obtain ⟨u', hu', hparsed'⟩ := State.sdec_run hidle' howns' hcap' hroom' (hend'.trans_le hend)
  obtain rfl : u = t := by rw [hu] at hrun; injection hrun
  obtain rfl : u' = t' := by rw [hu'] at hrun'; injection hrun'
  refine ⟨hparsed'.dec.done rfl, fun k hk => ?_⟩
  have hbehind : recordStart s.words (k + 1) ≤ recordStart s.words vc.toNat := recordStart_mono s.words hk
  have hbefore : recordStart s.words k ≤ recordStart s.words vc.toNat := recordStart_mono s.words hk.le
  rw [hparsed'.dec.slots k hk, hparsed.dec.slots k hk, recordStart_congr hbits hbefore, (record_congr hbits hbehind).2]

end Sys2Proof.Machine
end

section
/-! PROOFS. What ENC appends and emits: a push, a finish, and `ENCODE(vs)` against the stream of its values (R99, R112, R123
to R128, R134). -/

namespace Sys2Proof.Machine

/-! ## The bits appended so far (R134) -/

/-- The bits ENC appended so far, oldest first. -/
def State.appended (s : State) : List Bool := (List.range s.enc.bitsAppended).map s.appendedBit

@[simp] theorem State.length_appended (s : State) : s.appended.length = s.enc.bitsAppended := by simp [State.appended]

theorem State.getD_appended (s : State) (i : Nat) :
    s.appended.getD i false = if i < s.enc.bitsAppended then s.appendedBit i else false := by
  unfold State.appended
  split_ifs with h
  · simp [h]
  · simp [Nat.le_of_not_lt h]

/-- `ENC.append(b, k); ENC.flush()` appends the `k` bits of `b` (R124, R125). -/
theorem State.appendFlush_appended {s t : State} {b : Buffer} {k : Nat} (he : s.enc.Tight) (hn : s.enc.nbits.toNat ≤ 31)
    (hk : k ≤ 32) (hb : b.toNat < 2 ^ k) (hw : s.enc.wcount.toNat + 1 < 2 ^ 64 ∨ s.enc.nbits.toNat + k < 32)
    (h : (s.encAppend b k).encFlush = some t) : t.appended = s.appended ++ bitsOf k b.toNat := by
  obtain ⟨hlen, hold, hnew⟩ := State.appendFlush_bits he hn hk hb hw h
  rw [State.appended, hlen, List.range_add, List.map_append, List.map_map, State.appended, bitsOf_eq_map]
  congr 1
  · exact List.map_congr_left fun i hi => hold i (List.mem_range.1 hi)
  · exact List.map_congr_left fun i hi => hnew i (List.mem_range.1 hi)

theorem payload64_toNat_lt (v : Word) (w : Nat) : ((payloadOf v w).setWidth 64).toNat < 2 ^ w := by
  rw [payload64_toNat]
  exact payloadOf_toNat_lt v w

/-- A push that fits appends the record of its value and counts it (R123 to R127). -/
theorem State.pushValue_appends {s : State} {v : Word} (hinv : s.enc.Inv)
    (hcap : 0 < s.pushWords v → s.enc.wcount.toNat + s.pushWords v ≤ s.wmemCap ∧
      s.enc.wcount.toNat + s.pushWords v < 2 ^ 64) :
    ∃ t, s.pushValue v = some t ∧ t.appended = s.appended ++ recordOf v ∧
      t.enc.valueCount = s.enc.valueCount + 1 ∧ t.enc.state = s.enc.state ∧ t.enc.stuck = s.enc.stuck := by
  obtain ⟨hn, htight, -⟩ := hinv
  have htag := tag_toNat_lt (classOf v)
  have hpay := payload64_toNat_lt v (classOf v).width
  have hwidth := WClass.width_le (classOf v)
  have htagBits : Config.tagBits = 2 := rfl
  rw [State.pushWords, WClass.recLen_eq] at hcap
  obtain ⟨u, hu⟩ := State.appendFlush_isSome (b := (classOf v).tag.setWidth 64) (k := Config.tagBits) hn (by decide)
    fun _ => by omega
  obtain ⟨htu, hnu, -, hvu, hsu, hku, -⟩ := State.appendFlush_some htight hn (by decide) htag hu
  have hbu := State.appendFlush_appended htight hn (by decide) htag (by omega) hu
  have hcu : u.wmemCap = s.wmemCap := ((State.encAppend_frame s _ _).trans (State.encFlush_frame hu)).cap
  have hlen : 32 * u.enc.wcount.toNat + u.enc.nbits.toNat = 32 * s.enc.wcount.toNat + s.enc.nbits.toNat + 2 := by
    simpa [Enc.bitsAppended, Config.tagBits] using congrArg List.length hbu
  obtain ⟨w, hw⟩ := State.appendFlush_isSome (b := (payloadOf v (classOf v).width).setWidth 64) hnu hwidth
    fun _ => by omega
  obtain ⟨-, -, -, hvw, hsw, hkw, -⟩ := State.appendFlush_some htu hnu hwidth hpay hw
  have hbw := State.appendFlush_appended htu hnu hwidth hpay (by omega) hw
  refine ⟨{ w with enc := w.enc.count (classOf v) }, ?_, ?_, ?_, hsw.trans hsu, hkw.trans hku⟩
  · simp only [State.pushValue, hu, Option.bind_some, hw, Option.map_some]
  · have htagNat : ((classOf v).tag.setWidth 64).toNat = (classOf v).tag.toNat :=
      BitVec.toNat_setWidth_of_le (by decide)
    have hcount : ({ w with enc := w.enc.count (classOf v) } : State).appended = w.appended := rfl
    rw [hcount, hbw, hbu, recordOf, recordBits, payload64_toNat, htagNat, List.append_assoc]
  · show w.enc.valueCount + 1 = _
    rw [hvw, hvu]

/-! ## The words emitted (R125, R128) -/

/-- The word of a bit string holds the string from bit 31 down, zeros behind it (R97, R99). -/
theorem getLsbD_wordOfBits (bits : List Bool) {j : Nat} (hj : j < 32) :
    (wordOfBits bits).getLsbD (31 - j) = bits.getD j false := by
  have hlen : ((bits ++ List.replicate 32 false).take 32).length = 32 := by simp
  have hbits := bitsOf_numOf ((bits ++ List.replicate 32 false).take 32)
  rw [hlen] at hbits
  have hbit := getD_bitsOf 32 (numOf ((bits ++ List.replicate 32 false).take 32) 0) j hj
  rw [hbits] at hbit
  rw [wordOfBits, BitVec.getLsbD_ofNat, decide_eq_true (by omega), Bool.true_and, ← hbit]
  have htake : ((bits ++ List.replicate 32 false).take 32).getD j false =
      (bits ++ List.replicate 32 false).getD j false := by
    rw [List.getD_eq_getElem?_getD, List.getElem?_take_of_lt hj, ← List.getD_eq_getElem?_getD]
  rw [htake]
  rcases Nat.lt_or_ge j bits.length with hin | hout
  · exact List.getD_append _ _ _ _ hin
  · rw [List.getD_append_right _ _ _ _ hout, List.getD_eq_default _ _ hout]
    exact List.getD_replicate _ (by omega)

theorem eq_wordOfBits {w : Word} {bits : List Bool} (h : ∀ j, j < 32 → w.getLsbD (31 - j) = bits.getD j false) :
    w = wordOfBits bits := by
  refine BitVec.eq_of_getLsbD_eq fun i hi => ?_
  have hi' : i = 31 - (31 - i) := by omega
  rw [hi', h _ (by omega), getLsbD_wordOfBits bits (by omega)]

/-- A word below `WCOUNT` holds its 32 of the bits appended (R125). -/
theorem State.held_eq_wordOfBits {s : State} {k : Nat} (h : k < s.enc.wcount.toNat) :
    s.held k = wordOfBits (s.appended.drop (32 * k)) := by
  refine eq_wordOfBits fun j hj => ?_
  have hdiv : (32 * k + j) / 32 = k := by omega
  have hmod : (32 * k + j) % 32 = j := by omega
  have hlt : 32 * k + j < 32 * s.enc.wcount.toNat := by omega
  have hlen : 32 * k + j < s.enc.bitsAppended := Nat.lt_add_right _ hlt
  rw [List.getD_eq_getElem?_getD, List.getElem?_drop, ← List.getD_eq_getElem?_getD, State.getD_appended, if_pos hlen,
    State.appendedBit, if_pos hlt, streamBit, hdiv, hmod]

/-- The last word holds the pending bits, zeros below (R128, D8). -/
theorem State.lastWord_eq_wordOfBits {s : State} (hn : s.enc.nbits.toNat ≤ 31) :
    s.enc.lastWord = wordOfBits (s.appended.drop (32 * s.enc.wcount.toNat)) := by
  refine eq_wordOfBits fun j hj => ?_
  rw [List.getD_eq_getElem?_getD, List.getElem?_drop, ← List.getD_eq_getElem?_getD, State.getD_appended,
    Enc.lastWord_bit _ (by omega), Enc.bitsAppended]
  by_cases hpending : j < s.enc.nbits.toNat
  · rw [if_pos (by omega), State.appendedBit, if_neg (by omega), decide_eq_true (by omega), Bool.true_and]
    congr 1
    omega
  · rw [if_neg (by omega), decide_eq_false (by omega), Bool.false_and]

/-! ## The finish (R128) -/

theorem State.finishStream_isSome {s : State} (h : s.enc.nbits ≠ 0 → s.enc.wcount.toNat < s.wmemCap) :
    ∃ t, s.finishStream = some t := by
  unfold State.finishStream
  split_ifs with hn
  · exact ⟨_, rfl⟩
  · obtain ⟨u, hu⟩ := State.writeWmem_isSome (s := s) s.enc.lastWord (h hn)
    exact ⟨_, by rw [hu]; rfl⟩

/-- A finish that fits goes through. -/
theorem exec_encFinish_of_room {s : State} (hacc : s.enc.accepts = true)
    (hcap : s.enc.nbits ≠ 0 → s.enc.wcount.toNat < s.wmemCap) :
    ∃ t, exec .encFinish s = .next t ∧ s.finishStream = some t := by
  obtain ⟨t, ht⟩ := State.finishStream_isSome hcap
  exact ⟨t, by rw [exec_encFinish_of_accepts hacc, ht, Option.getD_some], ht⟩

/-- Settles O45: what a finish can do (`State.finishStream_some`), and the bits of its word (`Enc.lastWord_bit`). -/
theorem finishEmitsThePendingBits : Obligations.FinishEmitsThePendingBits := by
  intro s hacc hinv hcap
  obtain ⟨t, hexec, hfin⟩ := exec_encFinish_of_room hacc hcap
  obtain ⟨htinv, hdone⟩ := State.finishStream_encInv hinv hacc hfin
  obtain ⟨-, -, -, hclean, -⟩ := htinv
  obtain ⟨hnbits, hacc0, -⟩ := hclean hdone
  obtain ⟨-, -, hbits, hvalues⟩ := State.finishStream_stores hfin
  refine ⟨t, hexec, hdone, hnbits, hacc0, hbits, hvalues, fun hnone => ?_, fun hpending => ?_⟩
  · rcases State.finishStream_some hfin with ⟨-, rfl⟩ | ⟨hne, -⟩
    · exact ⟨rfl, rfl⟩
    · exact absurd hnone hne
  · rcases State.finishStream_some hfin with ⟨hzero, -⟩ | ⟨-, u, hu, rfl⟩
    · exact absurd hzero hpending
    · obtain ⟨-, hwmem, -⟩ := State.writeWmem_some hu
      refine ⟨rfl, s.enc.lastWord, ?_, fun b hb => Enc.lastWord_bit _ hb⟩
      rw [State.completeArtifact_wmem, hwmem, Mem.read_write_same]

/-! ## `ENCODE(vs)` (R112, R134) -/

/-- Every word below `WCOUNT` has been written. -/
def State.Emitted (s : State) : Prop := ∀ k, k < s.enc.wcount.toNat → ∃ w, s.wmem.read k = some w

theorem StoresNone.emitted {s t : State} (h : StoresNone s t) (hs : s.Emitted) : t.Emitted := fun k hk => by
  rw [h.wmem]
  exact hs k (h.wcount ▸ hk)

theorem StoresWord.emitted {s t : State} (h : StoresWord s t) (hs : s.Emitted) : t.Emitted := fun k hk => by
  obtain ⟨v, hv⟩ := h.wmem
  by_cases hnew : k = s.enc.wcount.toNat
  · exact ⟨v, by rw [hv, hnew, Mem.read_write_same]⟩
  · have hcount := h.wcount
    rw [h.read_other hnew]
    exact hs k (by bv_omega)

theorem PushStores.emitted {s t : State} (h : PushStores s t) (hs : s.Emitted) : t.Emitted := by
  cases h with
  | none h => exact h.emitted hs
  | one h => exact h.emitted hs
  | two u h k => exact k.emitted (h.emitted hs)

/-- The words behind a finish: all bits appended, zeros behind the last (R99, R128). -/
theorem State.finishStream_words {s t : State} (hn : s.enc.nbits.toNat ≤ 31) (hs : s.Emitted)
    (h : s.finishStream = some t) {k : Nat} (hk : k < wordsFor s.enc.bitsAppended) :
    t.wmem.read k = some (wordOfBits (s.appended.drop (32 * k))) := by
  have hfull : k < s.enc.wcount.toNat → s.wmem.read k = some (wordOfBits (s.appended.drop (32 * k))) := fun hlt => by
    obtain ⟨w, hw⟩ := hs k hlt
    rw [← State.held_eq_wordOfBits hlt, State.held, hw, Option.getD_some]
  unfold wordsFor Enc.bitsAppended at hk
  rcases State.finishStream_some h with ⟨hzero, rfl⟩ | ⟨-, u, hu, rfl⟩
  · rw [hzero] at hk
    exact hfull (by simp at hk; omega)
  · obtain ⟨-, hwmem, -⟩ := State.writeWmem_some hu
    rw [State.completeArtifact_wmem, hwmem]
    by_cases hlast : k = s.enc.wcount.toNat
    · rw [hlast, Mem.read_write_same, State.lastWord_eq_wordOfBits hn]
    · rw [Mem.read_write_other _ _ hlast, hfull (by omega)]

/-- A finish counts the words that hold the bits appended (R99). -/
theorem State.finishStream_wcount {s t : State} (hn : s.enc.nbits.toNat ≤ 31)
    (hwrap : wordsFor s.enc.bitsAppended < 2 ^ 64) (h : s.finishStream = some t) :
    t.enc.wcount.toNat = wordsFor s.enc.bitsAppended := by
  unfold wordsFor Enc.bitsAppended at *
  rcases State.finishStream_some h with ⟨hzero, rfl⟩ | ⟨hpending, u, -, rfl⟩
  · rw [State.completeArtifact_enc, hzero]
    simp
    omega
  · show (s.enc.wcount + 1).toNat = _
    bv_omega

/-- R25, R136: while `BUSY`, `BIT_COUNT` is the number of bits appended, modulo 2^64. -/
theorem Enc.Inv.bitCount_eq {e : Enc} (h : e.Inv) (hb : e.state = .busy) :
    e.bitCount = BitVec.ofNat 64 e.bitsAppended := by
  obtain ⟨-, -, hcount, -⟩ := h
  rw [hcount hb, Enc.bitsAppended]
  bv_omega

/-- ENC, started on `cap` words, has taken the values `vs`. -/
structure State.Encoded (s : State) (cap : Nat) (vs : List Word) : Prop where
  cap : s.wmemCap = cap
  accepts : s.enc.accepts = true
  inv : s.enc.Inv
  valueCount : s.enc.valueCount = BitVec.ofNat 64 vs.length
  appended : s.appended = streamOf vs
  emitted : s.Emitted

theorem State.Encoded.bitsAppended {s : State} {cap : Nat} {vs : List Word} (h : s.Encoded cap vs) :
    s.enc.bitsAppended = (streamOf vs).length := by
  rw [← h.appended, State.length_appended]

theorem exec_encStart_encoded (s : State) : ∃ t, exec .encStart s = .next t ∧ t.Encoded s.wmemCap [] :=
  ⟨_, rfl, rfl, rfl, Enc.started_inv, rfl, rfl, fun k hk => absurd hk (Nat.not_lt_zero k)⟩

@[simp] theorem streamOf_append (us vs : List Word) : streamOf (us ++ vs) = streamOf us ++ streamOf vs := by
  simp [streamOf]

@[simp] theorem streamOf_singleton (v : Word) : streamOf [v] = recordOf v := by simp [streamOf]

@[simp] theorem length_recordOf (v : Word) : (recordOf v).length = (classOf v).recLen := by simp [recordOf]

theorem State.Encoded.push {s : State} {cap : Nat} {vs : List Word} {v : Word} (h : s.Encoded cap vs)
    (hcap : wordsFor (streamOf (vs ++ [v])).length ≤ cap) (hwrap : wordsFor (streamOf (vs ++ [v])).length < 2 ^ 64) :
    ∃ t, exec (.encPush v) s = .next t ∧ t.Encoded cap (vs ++ [v]) := by
  have hbits := h.bitsAppended
  have hroom : s.enc.wcount.toNat + s.pushWords v ≤ wordsFor (streamOf (vs ++ [v])).length := by
    rw [streamOf_append, streamOf_singleton, List.length_append, length_recordOf, ← hbits, wordsFor, Enc.bitsAppended,
      State.pushWords]
    omega
  obtain ⟨t, ht, happ, hvalue, hstate, hstuck⟩ := State.pushValue_appends (v := v) h.inv fun _ =>
    ⟨by rw [h.cap]; exact hroom.trans hcap, lt_of_le_of_lt hroom hwrap⟩
  refine ⟨t, by rw [exec_encPush_of_accepts v h.accepts, ht, Option.getD_some], ?_, ?_,
    State.pushValue_encInv h.inv h.accepts ht, ?_, ?_, (State.pushValue_stores ht).emitted h.emitted⟩
  · rw [(State.pushValue_frame ht).cap, h.cap]
  · rw [Enc.accepts_iff, hstate, hstuck, ← Enc.accepts_iff]
    exact h.accepts
  · rw [hvalue, h.valueCount, List.length_append, List.length_singleton, BitVec.ofNat_add]
    rfl
  · rw [happ, h.appended, streamOf_append, streamOf_singleton]

theorem runInstrs_cons_of_next {i : Instr} {is : List Instr} {s t : State} (h : exec i s = .next t) :
    runInstrs (i :: is) s = runInstrs is t := by
  simp only [runInstrs, h]

/-- A sequence of pushes that fits. -/
theorem State.Encoded.pushes {s : State} {cap : Nat} {us vs : List Word} (h : s.Encoded cap us)
    (hcap : wordsFor (streamOf (us ++ vs)).length ≤ cap) (hwrap : wordsFor (streamOf (us ++ vs)).length < 2 ^ 64)
    (is : List Instr) :
    ∃ t, runInstrs (vs.map Instr.encPush ++ is) s = runInstrs is t ∧ t.Encoded cap (us ++ vs) := by
  induction vs generalizing s us with
  | nil => exact ⟨s, rfl, by rwa [List.append_nil]⟩
  | cons v vs ih =>
    have hsplit : us ++ v :: vs = us ++ [v] ++ vs := by simp
    rw [hsplit] at hcap hwrap ⊢
    have hfirst : wordsFor (streamOf (us ++ [v])).length ≤ wordsFor (streamOf (us ++ [v] ++ vs)).length := by
      rw [streamOf_append (us ++ [v]), List.length_append, wordsFor, wordsFor]
      omega
    obtain ⟨u, hpush, hu⟩ := h.push (hfirst.trans hcap) (lt_of_le_of_lt hfirst hwrap)
    obtain ⟨t, hrun, ht⟩ := ih hu hcap hwrap
    exact ⟨t, by rw [List.map_cons, List.cons_append, runInstrs_cons_of_next hpush, hrun], ht⟩

/-- A finish of what was taken, where its words exist: the artifact (R99, R128, R134). -/
theorem State.Encoded.finish {s : State} {cap : Nat} {vs : List Word} (h : s.Encoded cap vs)
    (hcap : wordsFor (streamOf vs).length ≤ cap) (hwrap : wordsFor (streamOf vs).length < 2 ^ 64) :
    ∃ t, exec .encFinish s = .next t ∧ t.enc.state = .done ∧ t.enc.valueCount = BitVec.ofNat 64 vs.length ∧
      t.enc.bitCount = BitVec.ofNat 64 (streamOf vs).length ∧
      t.enc.wcount.toNat = wordsFor (streamOf vs).length ∧
      ∀ k, k < wordsFor (streamOf vs).length → t.wmem.read k = some (wordOfBits ((streamOf vs).drop (32 * k))) := by
  have hbits := h.bitsAppended
  obtain ⟨hn, -⟩ := h.inv
  have hroom : s.enc.nbits ≠ 0 → s.enc.wcount.toNat < s.wmemCap := fun hpending => by
    rw [h.cap]
    rw [← hbits, wordsFor, Enc.bitsAppended] at hcap
    bv_omega
  obtain ⟨t, hexec, hfin⟩ := exec_encFinish_of_room h.accepts hroom
  obtain ⟨-, -, hbitCount, hvalueCount⟩ := State.finishStream_stores hfin
  refine ⟨t, hexec, (State.finishStream_encInv h.inv h.accepts hfin).2, hvalueCount.trans h.valueCount, ?_, ?_,
    fun k hk => ?_⟩
  · rw [hbitCount, h.inv.bitCount_eq ((Enc.accepts_iff _).1 h.accepts).1, hbits]
  · rw [State.finishStream_wcount hn (by rw [hbits]; exact hwrap) hfin, hbits]
  · rw [State.finishStream_words hn h.emitted hfin (by rw [hbits]; exact hk), h.appended]

/-- Settles O55: the start, then the pushes one by one (`State.Encoded.pushes`), then the finish. -/
theorem encodeWritesTheStreamOfItsValues : Obligations.EncodeWritesTheStreamOfItsValues := by
  intro s vs hcap hwrap
  obtain ⟨s0, hstart, h0⟩ := exec_encStart_encoded s
  obtain ⟨s1, hpushes, h1⟩ := h0.pushes (vs := vs) hcap hwrap [.encFinish]
  obtain ⟨t, hfinish, ht⟩ := h1.finish hcap hwrap
  refine ⟨t, ?_, ht⟩
  rw [encodeCommands, runInstrs_cons_of_next hstart, hpushes, runInstrs_cons_of_next hfinish]
  rfl

end Sys2Proof.Machine
end

section
/-! PROOFS. ENC's commands one by one (R122 to R129, R134): the start, the refusals, and a push against the record of its
value. -/

namespace Sys2Proof.Machine

/-! ## The start (R122) -/

/-- `ENC_START` (R122): ENC's registers as after RESET but `BUSY`, the rest of the machine as it was. -/
theorem exec_encStart (s : State) :
    exec .encStart s = .next { s with enc := { Enc.reset with state := .busy } } := rfl

/-- Settles O14: the code's decoding, and the one next state (`exec_encStart`), whose registers are read off. -/
theorem encStartBeginsAnArtifact : Obligations.EncStartBeginsAnArtifact := by
  intro s a b
  have hcode : decodeCommand ⟨0b0000#4, a, b⟩ = .ok .encStart := by
    rw [commandCodesAreThoseOfTheTable]
    exact if_pos rfl
  exact ⟨hcode, _, exec_encStart s, rfl, rfl, rfl, rfl, rfl, rfl, rfl, rfl, rfl, rfl, rfl, rfl, rfl⟩

/-! ## The refusals (R129) -/

theorem Enc.accepts_of_not_busy {e : Enc} (h : e.state ≠ .busy) : e.accepts = false := by simp [Enc.accepts, h]

/-- Settles O15: neither `IDLE` nor `DONE` accepts (`Enc.accepts_of_not_busy`), the state of a start does. -/
theorem pushAndFinishRefusedUnlessBusy : Obligations.PushAndFinishRefusedUnlessBusy := by
  intro s v hstate
  have hrefused : s.enc.accepts = false := by
    rcases hstate with hidle | hdone
    · exact Enc.accepts_of_not_busy (by simp [hidle])
    · exact Enc.accepts_of_not_busy (by simp [hdone])
  exact ⟨exec_encPush_of_refused v hrefused, exec_encFinish_of_refused hrefused, _, exec_encStart s, rfl, rfl, rfl, rfl⟩

/-! ## A push against the record of its value (R123 to R127, R134) -/

theorem State.appendedBit_eq_getD {s : State} {k : Nat} (h : k < s.enc.bitsAppended) :
    s.appendedBit k = s.appended.getD k false := by
  rw [State.getD_appended, if_pos h]

/-- Bits appended to a stream, each by its place: the old ones stay where they are, the new ones follow. -/
theorem State.appendedBit_of_appended {s t : State} {bits : List Bool} (h : t.appended = s.appended ++ bits) :
    t.enc.bitsAppended = s.enc.bitsAppended + bits.length ∧
      (∀ k, k < s.enc.bitsAppended → t.appendedBit k = s.appendedBit k) ∧
      ∀ k, k < bits.length → t.appendedBit (s.enc.bitsAppended + k) = bits.getD k false := by
  have hlen : t.enc.bitsAppended = s.enc.bitsAppended + bits.length := by simpa using congrArg List.length h
  refine ⟨hlen, fun k hk => ?_, fun k hk => ?_⟩
  · rw [State.appendedBit_eq_getD (by omega), State.appendedBit_eq_getD hk, h,
      List.getD_append _ _ _ _ (by rwa [State.length_appended])]
  · rw [State.appendedBit_eq_getD (by omega), h, List.getD_append_right _ _ _ _ (by rw [State.length_appended]; omega),
      State.length_appended, Nat.add_sub_cancel_left]

/-- Settles O44: the bits are those of `State.pushValue_appends`, and `BIT_COUNT` counts them (`Enc.Inv.bitCount_eq`). -/
theorem pushAppendsTheRecordOfItsValue : Obligations.PushAppendsTheRecordOfItsValue := by
  intro s v hacc hinv hcap
  obtain ⟨t, hpush, happ, hvalues, hstate, hstuck⟩ := State.pushValue_appends hinv hcap
  obtain ⟨hlen, hold, hnew⟩ := State.appendedBit_of_appended happ
  rw [length_recordOf] at hlen hnew
  have htinv : t.enc.Inv := State.pushValue_encInv hinv hacc hpush
  have hexec : exec (.encPush v) s = .next t := by rw [exec_encPush_of_accepts v hacc, hpush, Option.getD_some]
  obtain ⟨hbusy, hfree⟩ := (Enc.accepts_iff _).1 hacc
  have htbusy : t.enc.state = .busy := hstate.trans hbusy
  have hbits : t.enc.bitCount = s.enc.bitCount + BitVec.ofNat 64 (classOf v).recLen := by
    rw [htinv.bitCount_eq htbusy, hlen, BitVec.ofNat_add, hinv.bitCount_eq hbusy]
  exact ⟨t, hexec, (Enc.accepts_iff _).2 ⟨htbusy, hstuck.trans hfree⟩, htinv, hbits, hvalues, hlen, hold, hnew⟩

end Sys2Proof.Machine
end

section
/-! PROOFS. A read from the bit buffer: `peek` and `consume` (R154, R155). -/

namespace Sys2Proof.Machine

/-- `peek(k)` bit by bit (R154): bit `i` is bit `64 - k + i` of `BUF`, so the result is `BUF[63 : 64-k]`. -/
theorem BB.getLsbD_peek (bb : BB) {k i : Nat} (hk : k ≤ 32) (hi : i < k) :
    (bb.peek k).getLsbD i = bb.buf.getLsbD (64 - k + i) := by
  rw [BB.peek, BitVec.getLsbD_setWidth, BitVec.getLsbD_ushiftRight, decide_eq_true (hi.trans_le hk), Bool.true_and]

/-- Settles O31: the bits of `peek` are `BUF`'s (`BB.getLsbD_peek`), which the buffer holds from the stream
(`BB.Holds.peek_toNat`); `consume` moves `POS` and keeps the invariant (`BB.consume_spec`, `BB.Holds.consume`). -/
theorem readTakesTheStreamsBits : Obligations.ReadTakesTheStreamsBits := by
  intro bb wc words k hinv hholds hk hbits
  have ⟨_, hpulled, _⟩ := hinv
  obtain ⟨-, hpos, hkeeps⟩ := BB.consume_spec (wc := wc) hbits
  exact ⟨fun _ hi => bb.getLsbD_peek hk hi, hholds.peek_toNat hk hbits, bb.consume_buf k, bb.consume_navail_toNat k hbits,
    bb.consume_widx k, hpos hpulled, hkeeps hinv, hholds.consume hbits hpulled⟩

end Sys2Proof.Machine
end

section
/-! PROOFS. The START of a decoder (R171, R184, R191, R238, R288), and the step of a time step in which the host does
nothing: the one enabled decoder's (R172, R179, R192, R256), or nothing (R271). -/

namespace Sys2Proof.Machine

/-! ## START (R171, R191) -/

theorem State.startDec_of_not_run {s : State} {d : DecId} (wc vc : Count) (h : (s.dec d).state ≠ .run) :
    s.startDec d wc vc =
      ({ s with free := if s.encOwns wc then s.free + 1 else s.free }).setDec d
        { (s.dec d).start wc vc with taint := s.startNote wc } := if_neg h

theorem startState_eq (vc : Count) : startState vc = if 0 < vc.toNat then .run else .done := by
  have hzero : vc = 0 ↔ ¬ 0 < vc.toNat := by bv_omega
  simp only [startState, hzero, ite_not]

/-- A START outside `RUN` touches one decoder, and of the model's own fields the free-value number (log 23). -/
theorem State.startDec_onlyDec {s : State} {d : DecId} (wc vc : Count) (h : (s.dec d).state ≠ .run) :
    s.onlyDec { s.startDec d wc vc with free := s.free } d := by
  rw [State.startDec_of_not_run wc vc h]
  cases d
  · exact s.onlyDec_setDec .sdec { s.sdec.start wc vc with taint := s.startNote wc }
  · exact s.onlyDec_setDec .bdec { s.bdec.start wc vc with taint := s.startNote wc }

theorem State.startDec_free {s : State} {d : DecId} (wc vc : Count) (h : (s.dec d).state ≠ .run) :
    (s.startDec d wc vc).free = if s.encOwns wc then s.free + 1 else s.free := by
  rw [State.startDec_of_not_run wc vc h, State.setDec_free]

theorem State.startDec_dec {s : State} {d : DecId} (wc vc : Count) (h : (s.dec d).state ≠ .run) :
    (s.startDec d wc vc).dec d = { (s.dec d).start wc vc with taint := s.startNote wc } := by
  rw [State.startDec_of_not_run wc vc h, State.setDec_dec_same]

/-- Every register behind a START outside `RUN` (R171, R191, R284). -/
theorem State.startDec_registers {s : State} {d : DecId} (wc vc : Count) (h : (s.dec d).state ≠ .run) :
    s.onlyDec { s.startDec d wc vc with free := s.free } d ∧
      (s.encOwns wc = false → (s.startDec d wc vc).free = s.free) ∧
      (s.startDec d wc vc).dec d =
        { bb := ⟨0, 0, 0⟩, wordCount := wc, valueCount := vc, ocur := 0,
          state := if 0 < vc.toNat then .run else .done, faultCode := .none, stuck := false,
          taint := if s.encOwns wc then some s.free else none,
          vout := (s.dec d).vout, voutCap := (s.dec d).voutCap } := by
  refine ⟨State.startDec_onlyDec wc vc h, fun howns => ?_, ?_⟩
  · rw [State.startDec_free wc vc h, howns]
    rfl
  · rw [State.startDec_dec wc vc h, ← startState_eq]
    rfl

/-- Settles O16: the registers of a START (`State.startDec_registers`), for each decoder. -/
theorem decoderStartInitialisesItsRegisters : Obligations.DecoderStartInitialisesItsRegisters := fun s wc vc =>
  ⟨fun h => ⟨s.startDec .sdec wc vc, rfl, State.startDec_registers (d := .sdec) wc vc h⟩,
    fun h => ⟨s.startDec .bdec wc vc, rfl, State.startDec_registers (d := .bdec) wc vc h⟩⟩

/-! ## What a started decoder pulls (R285, R288; log 23) -/

/-- What a decoder in a run whose words are claimed pulls (R66, R285 item 1). -/
theorem State.wordAt_of_claimed {s : State} {d : DecId} {k : Nat} (ht : (s.dec d).taint = none) (hk : k < s.wmemCap) :
    s.wordAt d k = some (s.words k) := by
  simp only [State.wordAt, hk, if_true, ht]

theorem State.encOwns_iff (s : State) (wc : Count) : s.encOwns wc = true ↔ s.enc.state = .busy ∧ 0 < wc.toNat := by
  simp [State.encOwns]

/-- `SDEC_START` or `BDEC_START`. -/
theorem exec_start (s : State) (d : DecId) (wc vc : Count) :
    exec (match d with | .sdec => .sdecStart wc vc | .bdec => .bdecStart wc vc) s = .next (s.startDec d wc vc) := by
  cases d <;> rfl

/-- Settles O17: the note of the START (`State.startDec_dec`) decides between `State.wordAt_of_taint` and
`State.wordAt_of_claimed`; the words are those of the state before. -/
theorem startOnUnfinishedWordsMakesThemFree : Obligations.StartOnUnfinishedWordsMakesThemFree := by
  intro s d wc vc hidle
  refine ⟨s.startDec d wc vc, exec_start s d wc vc, fun k hk => ?_⟩
  have hdec := State.startDec_dec wc vc hidle
  have hfree := State.startDec_free wc vc hidle
  obtain ⟨-, -, hwmem, hcap, hunf, -⟩ := State.startDec_onlyDec wc vc hidle
  have hk' : k < (s.startDec d wc vc).wmemCap := lt_of_lt_of_eq hk hcap.symm
  refine ⟨fun hbusy => ?_, fun hclaimed => ?_⟩
  · have howns : s.encOwns wc = true := (s.encOwns_iff wc).2 hbusy
    have ht : ((s.startDec d wc vc).dec d).taint = some s.free := by rw [hdec, State.startNote, if_pos howns]
    rw [if_pos howns] at hfree
    exact ⟨hfree ▸ Nat.lt_succ_self s.free, State.wordAt_of_taint ht hk'⟩
  · have ht : ((s.startDec d wc vc).dec d).taint = none := by
      rw [hdec, State.startNote, if_neg (mt (s.encOwns_iff wc).1 hclaimed)]
    have hsame : (s.startDec d wc vc).words k = s.words k :=
      State.words_congr (congrArg (Mem.read · k) hwmem) (iff_of_eq (congrArg (k ∈ ·) hunf))
    rw [State.wordAt_of_claimed ht hk', hsame]
    rfl

/-- Settles O18: `State.startDec_of_run`, for each decoder. -/
theorem decoderStartRefusedInRun : Obligations.DecoderStartRefusedInRun := fun s wc vc =>
  ⟨fun h => congrArg Host.Outcome.next (State.startDec_of_run (s := s) (d := .sdec) wc vc h),
    fun h => congrArg Host.Outcome.next (State.startDec_of_run (s := s) (d := .bdec) wc vc h)⟩

/-! ## The step of the one enabled decoder (R172, R192, R256) -/

theorem State.chooseDecoder_of_only {s : State} {d : DecId} (hen : (s.dec d).enabled = true)
    (hother : ∀ d', d' ≠ d → (s.dec d').enabled = false) : s.chooseDecoder = some (d, s) := by
  cases d with
  | sdec =>
    have hs : s.sdec.enabled = true := hen
    have hb : s.bdec.enabled = false := hother .bdec (by decide)
    simp [State.chooseDecoder, hs, hb]
  | bdec =>
    have hb : s.bdec.enabled = true := hen
    have hs : s.sdec.enabled = false := hother .sdec (by decide)
    simp [State.chooseDecoder, hs, hb]

theorem State.ownStep_of_only {s : State} {d : DecId} (hen : (s.dec d).enabled = true)
    (hother : ∀ d', d' ≠ d → (s.dec d').enabled = false) : s.ownStep = s.decoderStep d := by
  simp only [State.ownStep, State.chooseDecoder_of_only hen hother]

section
variable {s : State} {d : DecId}

theorem State.decoderStep_of_instr {i : Instr} (h : s.fetch d = .instr i) :
    s.decoderStep d = exec i { s with actor := d } := by
  simp only [State.decoderStep, h]

theorem State.decoderStep_of_underrun {bb : BB} (h : s.fetch d = .underrun bb) :
    s.decoderStep d = .next (({ s with actor := d }).takeUnderrun d bb) := by
  simp only [State.decoderStep, h]

theorem State.decoderStep_of_noWord {k : Nat} (h : s.fetch d = .noWord k) :
    s.decoderStep d = .fault (.noWordToPull d k) := by
  simp only [State.decoderStep, h]

end

/-- Settles O21: the choice falls on the one enabled decoder (`State.ownStep_of_only`), whose step takes one of the three
outcomes of its fetch. -/
theorem stepRunsTheInstructionAtTheCursor : Obligations.StepRunsTheInstructionAtTheCursor := by
  intro s d hen hother
  refine ⟨fun hin => ?_, fun later hin => ?_, fun i => State.decoderStep_of_instr, fun bb hfetch => ?_,
    fun k => State.decoderStep_of_noWord⟩
  · rw [step_of_no_input hin, State.ownStep_of_only hen hother]
  · rw [step_of_input hin, State.inputStep_none, State.ownStep_of_only (d := d)]
    · rw [State.dec_withInputs]; exact hen
    · intro d' hd
      rw [State.dec_withInputs]; exact hother d' hd
  · rw [State.decoderStep_of_underrun hfetch, State.takeUnderrun, State.dec_withActor]
    rfl

/-! ## A step that is not enabled (R271) -/

/-- Settles O36: a record runs the record step, a pattern entry the matched step, and neither acts where it is not
enabled. -/
theorem stepNotEnabledChangesNothing : Obligations.StepNotEnabledChangesNothing := by
  refine fun s i => ⟨fun ⟨c, hc⟩ hdis => ?_, fun hi hdis => ?_⟩
  · obtain ⟨v, hexec⟩ := exec_of_recClass hc
    rw [hexec, State.recordStep_of_disabled c v hdis]
  · obtain ⟨e, -, win, hexec⟩ := exec_of_isPattern hi
    rw [hexec, State.matchedStep_of_disabled e win hdis]

/-! ## SDEC's step (R172, R179) -/

theorem State.fetch_sdec (s : State) : s.fetch .sdec = s.sdec.bb.fetchRecord (s.wordAt .sdec) s.sdec.wordCount := by
  simp only [State.fetch, State.dec_sdec, Dec.batchMode_sdec, Bool.false_eq_true, if_false]

/-- Settles O27: SDEC fetches by `DEC.record`, and its step ends as `DEC.record` does. -/
theorem sdecStepIsRecordThenStore : Obligations.SdecStepIsRecordThenStore := by
  intro s hen
  have hfetch := s.fetch_sdec
  rw [BB.fetchRecord] at hfetch
  cases hrec : s.sdec.bb.record (s.wordAt .sdec) s.sdec.wordCount with
  | value t p bb => exact State.decoderStep_sdec_of_record hen hrec
  | underrun bb =>
    simp only [hrec] at hfetch
    exact State.decoderStep_of_underrun hfetch
  | noWord i =>
    simp only [hrec] at hfetch
    exact State.decoderStep_of_noWord hfetch

end Sys2Proof.Machine
end

section
/-! PROOFS. The run of either decoder over a stream against the stream's parse (R98, R172, R180, R192, R214), and the round
trip: a decoder on what ENC makes of a sequence (R112, R134, R181, R214, R290 H2). -/

namespace Sys2Proof.Machine

/-! ## Records that stand in a stream (R97, R98, R103) -/

/-- The value a record decodes to (R104); 0 for an instruction that is no record. -/
def recordValue : Instr → Word
  | .recC0 v => v.setWidth 32
  | .recC1 v => v.setWidth 32
  | .recC2 v => v.setWidth 32
  | .recC3 v => v
  | _ => 0

theorem encode_of_recClass {r : Instr} {c : WClass} (h : r.recClass = some c) :
    encode r = .record (recordBits c (recordValue r).toNat) ∧ (recordValue r).toNat < 2 ^ c.width := by
  cases r <;> cases h
  case recC0.refl v =>
    have hvalue : (recordValue (.recC0 v)).toNat = v.toNat := BitVec.toNat_setWidth_of_le (by decide)
    rw [hvalue]
    exact ⟨rfl, v.isLt⟩
  case recC1.refl v =>
    have hvalue : (recordValue (.recC1 v)).toNat = v.toNat := BitVec.toNat_setWidth_of_le (by decide)
    rw [hvalue]
    exact ⟨rfl, v.isLt⟩
  case recC2.refl v =>
    have hvalue : (recordValue (.recC2 v)).toNat = v.toNat := BitVec.toNat_setWidth_of_le (by decide)
    rw [hvalue]
    exact ⟨rfl, v.isLt⟩
  case recC3.refl v => exact ⟨rfl, v.isLt⟩

/-- The values of the `n` records of the stream from record `k` on (R98, R104). -/
def valuesFrom (words : Nat → Word) : Nat → Nat → List Word
  | _, 0 => []
  | k, n + 1 => valueAt words (recordStart words k) :: valuesFrom words (k + 1) n

@[simp] theorem length_valuesFrom (words : Nat → Word) (k n : Nat) : (valuesFrom words k n).length = n := by
  induction n generalizing k with
  | zero => rfl
  | succ n ih => rw [valuesFrom, List.length_cons, ih]

theorem getElem?_valuesFrom (words : Nat → Word) {k n j : Nat} (h : j < n) :
    (valuesFrom words k n)[j]? = some (valueAt words (recordStart words (k + j))) := by
  induction n generalizing k j with
  | zero => omega
  | succ n ih =>
    cases j with
    | zero => rfl
    | succ j => rw [valuesFrom, List.getElem?_cons_succ, ih (by omega), Nat.add_assoc, Nat.add_comm 1 j]

/-- Where the bits of a record stand in the stream, the stream's record is that one. -/
theorem record_of_bitsFrom {words : Nat → Word} {p q : Nat} {c : WClass} (hq : q < 2 ^ c.width)
    (h : bitsFrom words p c.recLen = recordBits c q) : classAt words p = c ∧ valueAt words p = BitVec.ofNat 32 q := by
  rw [WClass.recLen, bitsFrom_append, recordBits] at h
  obtain ⟨htag, hpay⟩ := List.append_inj h (by simp)
  have hclass : classAt words p = c := by
    rw [classAt, streamField_eq_numOf, htag, numOf_bitsOf, Config.tagBits, Nat.mod_eq_of_lt c.tag.isLt,
      BitVec.ofNat_toNat, BitVec.setWidth_eq, WClass.ofTag_tag]
  refine ⟨hclass, ?_⟩
  rw [valueAt, hclass, streamField_eq_numOf, hpay, numOf_bitsOf, Nat.mod_eq_of_lt hq]

/-- Where the bits of records stand in the stream from record `k` on, the stream's records are those (R98, R103). -/
theorem parse_of_bitsFrom {words : Nat → Word} {rs : List Instr} {k : Nat} (hrs : ∀ r ∈ rs, ∃ c, r.recClass = some c)
    (h : bitsFrom words (recordStart words k) (recordsBits rs).length = recordsBits rs) :
    recordStart words (k + rs.length) = recordStart words k + (recordsBits rs).length ∧
      valuesFrom words k rs.length = rs.map recordValue := by
  induction rs generalizing k with
  | nil => exact ⟨rfl, rfl⟩
  | cons r rs ih =>
    obtain ⟨c, hc⟩ := hrs r List.mem_cons_self
    obtain ⟨henc, hlt⟩ := encode_of_recClass hc
    simp only [recordsBits, henc, encodingBits, List.length_append, length_recordBits] at h ⊢
    rw [bitsFrom_append] at h
    obtain ⟨hfirst, hrest⟩ := List.append_inj h (by simp)
    obtain ⟨hclass, hvalue⟩ := record_of_bitsFrom hlt hfirst
    have hnext : recordStart words (k + 1) = recordStart words k + c.recLen := by
      rw [recordStart, behindRecord, hclass]
    obtain ⟨hstart, hvalues⟩ := ih (fun r' hr' => hrs r' (List.mem_cons_of_mem r hr')) (by rw [hnext]; exact hrest)
    refine ⟨?_, ?_⟩
    · rw [List.length_cons, Nat.add_comm rs.length 1, ← Nat.add_assoc, hstart, hnext, Nat.add_assoc]
    · rw [List.length_cons, valuesFrom, hvalues, hvalue, BitVec.ofNat_toNat, BitVec.setWidth_eq, List.map_cons]

/-- No record is shorter than 6 bits (R41). -/
theorem recordStart_add (words : Nat → Word) (k n : Nat) : recordStart words k + 6 * n ≤ recordStart words (k + n) := by
  induction n with
  | zero => exact le_rfl
  | succ n ih =>
    have hshortest : 6 ≤ (classAt words (recordStart words (k + n))).recLen := by
      cases classAt words (recordStart words (k + n)) <;> decide
    rw [← Nat.add_assoc, recordStart, behindRecord]
    omega

/-! ## A window that an entry matches (R198, R203, R206) -/

theorem recClass_of_mem_records (i : Instr) : ∀ r ∈ i.records, ∃ c, r.recClass = some c := by
  cases i <;> simp [Instr.records, Instr.recClass]

/-- The four values of a chunk, in the order of their slots (R68). -/
def laneList (v : Lanes4 Word) : List Word := [v.l0, v.l1, v.l2, v.l3]

/-- The matched step of an entry consumes the bits of the entry's records, and the first `COUNT` of its lanes are the
records' values (R198, R200, R213). -/
theorem patInstr_lanes {k : Nat} {win : Word} {i : Instr} (hk : k < 16) (h : patInstr k win = some i) :
    (patTable.getD k pt0).count = i.records.length ∧
      (patTable.getD k pt0).consumed = (recordsBits i.records).length ∧
      (laneList (extractLanes (patTable.getD k pt0) win)).take (patTable.getD k pt0).count = i.records.map recordValue := by
  rw [extractLanes_eq]
  interval_cases k <;> cases h <;> exact ⟨rfl, rfl, rfl⟩

/-- Where an entry matches the window at record `k`, the next records of the stream are the entry's (R206). -/
theorem parse_of_window {words : Nat → Word} {win : Word} {i : Instr} {k : Nat}
    (hwin : win.toNat = streamField words (recordStart words k) Config.windowBits) (h : decodeWindow win = .ok i) :
    recordStart words (k + i.records.length) = recordStart words k + (recordsBits i.records).length ∧
      valuesFrom words k i.records.length = i.records.map recordValue := by
  obtain ⟨rest, hbits⟩ := bitsOf_window (encode_of_decodeWindow h)
  have hstream : bitsFrom words (recordStart words k) 32 = recordsBits i.records ++ rest := by
    rw [← hbits, hwin]
    exact (bitsOf_streamField words _ 32).symm
  have hlen : (recordsBits i.records).length + rest.length = 32 := by
    rw [← List.length_append, ← hbits, length_bitsOf]
  rw [← hlen, bitsFrom_append] at hstream
  exact parse_of_bitsFrom (recClass_of_mem_records i) (List.append_inj hstream (by simp)).1

/-! ## The steps of either decoder (R172, R192) -/

section
variable {s : State} {d : DecId} {b : BB}

/-- Where no entry is selected, a decoder finds the record behind the window fill (R172, R199, R211). -/
theorem State.fetch_of_no_match (hw : (s.dec d).windowFill d (s.wordAt d) = .ok b)
    (hk : (s.dec d).batchMode d = true → kselect (matchMask (b.peek Config.windowBits)) = none) :
    s.fetch d = b.fetchRecord (s.wordAt d) (s.dec d).wordCount := by
  cases hb : (s.dec d).batchMode d with
  | false =>
    rw [Dec.windowFill_of_not_batch _ hb] at hw
    cases hw
    simp only [State.fetch, hb, Bool.false_eq_true, if_false]
  | true => simp only [State.fetch, hb, if_true, hw, decodeWindow, hk hb, Option.bind_none]

/-- A step of an enabled decoder at a record whose bits are there, no entry being selected (R172, R199, R211). -/
theorem State.decoderStep_of_record {t : BitVec 2} {p : Word} {b' : BB} (hen : (s.dec d).enabled = true)
    (hw : (s.dec d).windowFill d (s.wordAt d) = .ok b)
    (hk : (s.dec d).batchMode d = true → kselect (matchMask (b.peek Config.windowBits)) = none)
    (hrec : b.record (s.wordAt d) (s.dec d).wordCount = .value t p b') :
    s.decoderStep d = .next (({ s with actor := d }).setDec d ((s.dec d).storeValue b' p)) := by
  have hfetch : s.fetch d = .instr (recordInstr t p) := by
    rw [State.fetch_of_no_match hw hk]
    simp only [BB.fetchRecord, hrec]
  rw [State.decoderStep_of_instr hfetch]
  simpa using exec_record_found (s := { s with actor := d }) (b := b) (b' := b') (t := t) (p := p) (by simpa using hen)
    (by simpa using hw) (by simpa using hrec)

/-- A matched step of BDEC whose window is there (R192 2a to 2d). -/
theorem State.decoderStep_of_match {k : Nat} (hen : s.bdec.enabled = true) (hb : s.bdec.batchMode .bdec = true)
    (hw : s.bdec.windowFill .bdec (s.wordAt .bdec) = .ok b)
    (hk : kselect (matchMask (b.peek Config.windowBits)) = some k) :
    s.decoderStep .bdec = .next (({ s with actor := .bdec }).setDec .bdec
      (s.bdec.storeLanes (patTable.getD k pt0) b
        (extractLanes (patTable.getD k pt0) (b.peek Config.windowBits)))) := by
  obtain ⟨hk16, hm⟩ := match_of_kselect hk
  obtain ⟨i, hi⟩ := patInstr_isSome hk16 (b.peek Config.windowBits)
  have hfetch : s.fetch .bdec = .instr i := by
    simp only [State.fetch, State.dec_bdec, hb, if_true, hw, decodeWindow, hk, Option.bind_some, hi]
  have hfill : ({ s with actor := .bdec } : State).bdec.windowFill .bdec
      (({ s with actor := .bdec } : State).wordAt .bdec) = .ok b := hw
  rw [State.decoderStep_of_instr hfetch, exec_patInstr hk16 hi hm,
    State.matchedStep_of_batch (s := { s with actor := .bdec }) _ _ hen hb, hfill, State.settle_ok]

end

/-! ## A run of either decoder (R180, R214) -/

/-- A decoder started with `(wc, vc)` on the stream `words` has decoded the first `k` records, in scalar or in batch-mode
steps: what `Dec.Parsed` says, but for how many bits are buffered. -/
structure Dec.Reached (x : Dec) (words : Nat → Word) (wc vc : Count) (k : Nat) : Prop where
  wordCount : x.wordCount = wc
  valueCount : x.valueCount = vc
  room : vc.toNat ≤ x.voutCap
  ocur : x.ocur.toNat = k
  enabled : k < vc.toNat → x.enabled = true
  done : k = vc.toNat → x.state = .done
  taint : x.taint = none
  inv : x.bb.Inv wc
  holds : x.bb.Holds words
  pos : x.bb.pos = recordStart words k
  slots : ∀ j, j < k → x.vout.read j = some (valueAt words (recordStart words j))

theorem Dec.Parsed.reached {x : Dec} {words : Nat → Word} {wc vc : Count} {k : Nat} (h : x.Parsed words wc vc k) :
    x.Reached words wc vc k :=
  ⟨h.wordCount, h.valueCount, h.room, h.ocur, h.enabled, h.done, h.taint, h.inv, h.holds, h.pos, h.slots⟩

section
variable {x : Dec} {words : Nat → Word} {wc vc : Count} {k : Nat}

/-- `n` records more: their values in the slots from `OCUR` on, whatever a chunk puts behind them (R68, R172, R198). -/
theorem Dec.Reached.decoded (h : x.Reached words wc vc k) {b : BB} {vs : List Word} {n : Nat} (hpos : 1 ≤ n)
    (hroom : k + n ≤ vc.toNat) (hvalues : vs.take n = valuesFrom words k n) (hinv : b.Inv wc) (hholds : b.Holds words)
    (hbpos : b.pos = recordStart words (k + n)) : (x.decoded b vs n).Reached words wc vc (k + n) := by
  obtain ⟨hrun, hstuck⟩ := (Dec.enabled_iff x).1 (h.enabled (by omega))
  have hocur : (x.ocur + BitVec.ofNat 64 n).toNat = k + n := by
    have := vc.isLt
    rw [BitVec.toNat_add, h.ocur, BitVec.toNat_ofNat]
    omega
  have hlast : x.ocur + BitVec.ofNat 64 n = x.valueCount ↔ k + n = vc.toNat := by
    rw [← BitVec.toNat_inj, hocur, h.valueCount]
  refine ⟨h.wordCount, h.valueCount, h.room, hocur, fun hmore => ?_, fun hend => if_pos (hlast.2 hend), h.taint, hinv,
    hholds, hbpos, fun j hj => ?_⟩
  · have hnot : ¬ (x.ocur + BitVec.ofNat 64 n = x.valueCount) := fun heq => absurd (hlast.1 heq) (Nat.ne_of_lt hmore)
    simp only [Dec.decoded, Dec.enabled_iff, if_neg hnot, hrun, hstuck, and_self]
  · show (x.vout.writeAll x.ocur.toNat vs).read j = _
    rw [h.ocur]
    rcases Nat.lt_or_ge j k with hold | hnew
    · rw [Mem.read_writeAll_other vs x.vout (.inl hold), h.slots j hold]
    · obtain ⟨i, rfl⟩ := Nat.exists_eq_add_of_le hnew
      have hi : i < n := by omega
      have hslot : vs[i]? = some (valueAt words (recordStart words (k + i))) := by
        rw [← List.getElem?_take_of_lt hi, hvalues, getElem?_valuesFrom words hi]
      obtain ⟨hlen, hval⟩ := List.getElem?_eq_some_iff.1 hslot
      rw [Mem.read_writeAll vs x.vout k i hlen, hval]

/-- One record more, its value stored (R172). -/
theorem Dec.Reached.storeValue (h : x.Reached words wc vc k) {src : Nat → Option Word} {t : BitVec 2} {p : Word}
    {b b' : BB} (hs : ∀ i w, src i = some w → w = words i) (hk : k < vc.toNat) (hinv : b.Inv wc) (hholds : b.Holds words)
    (hbpos : b.pos = recordStart words k) (hrec : b.record src wc = .value t p b') :
    (x.storeValue b' p).Reached words wc vc (k + 1) := by
  obtain ⟨hclass, hvalue⟩ := BB.record_stream hs hinv hholds hrec
  obtain ⟨-, -, hpass, hpassHolds⟩ := BB.passRecord_spec (BB.record_value hrec)
  obtain ⟨hinv', hpos'⟩ := hpass hinv
  have hslot : x.ocur.toNat < x.voutCap := by
    rw [h.ocur]
    exact lt_of_lt_of_le hk h.room
  rw [Dec.storeValue_eq_decoded, if_pos hslot]
  refine h.decoded le_rfl hk ?_ hinv' (hpassHolds _ hs hinv hholds) ?_
  · rw [hvalue, hbpos]
    rfl
  · rw [hpos', hclass, hbpos, recordStart, behindRecord]

/-- The records of the entry that matches the window more, its lanes stored (R192 2d, R198, R206). -/
theorem Dec.Reached.storeLanes (h : x.Reached words wc vc k) {b : BB} {n : Nat} (hk : k + 16 ≤ vc.toNat)
    (hinv : b.Inv wc) (hholds : b.Holds words) (hbpos : b.pos = recordStart words k)
    (hwindow : Config.windowBits ≤ b.navail.toNat) (hsel : kselect (matchMask (b.peek Config.windowBits)) = some n) :
    ∃ m, 1 ≤ m ∧ m ≤ 4 ∧
      (x.storeLanes (patTable.getD n pt0) b (extractLanes (patTable.getD n pt0) (b.peek Config.windowBits))).Reached
        words wc vc (k + m) := by
  obtain ⟨hn, -⟩ := match_of_kselect hsel
  obtain ⟨i, hi⟩ := patInstr_isSome hn (b.peek Config.windowBits)
  have hwin : (b.peek Config.windowBits).toNat = streamField words (recordStart words k) Config.windowBits := by
    rw [hholds.peek_toNat (by decide) hwindow, hbpos]
  have hdec : decodeWindow (b.peek Config.windowBits) = .ok i := by
    simp only [decodeWindow, hsel, Option.bind_some, hi]
  obtain ⟨hstart, hvalues⟩ := parse_of_window hwin hdec
  obtain ⟨hcount, hconsumed, hlanes⟩ := patInstr_lanes hn hi
  obtain ⟨hpos, hle, -, hconsumedLe⟩ := patTable_bounds (patTable_getD_mem hn)
  have hbits : (patTable.getD n pt0).consumed ≤ b.navail.toNat := hconsumedLe.trans hwindow
  obtain ⟨-, hmoved, hkeeps⟩ := BB.consume_spec (wc := wc) hbits
  have hpulled : b.navail.toNat ≤ 32 * b.widx.toNat := hinv.2.1
  have hslots : x.ocur.toNat + 3 < x.voutCap := by
    have := h.room
    rw [h.ocur]
    omega
  rw [Dec.storeLanes_eq_decoded, if_pos hslots]
  refine ⟨_, hpos, hle, h.decoded hpos (by omega) ?_ (hkeeps hinv) (hholds.consume hbits hpulled) ?_⟩
  · rw [← laneList, hlanes, hcount, hvalues]
  · rw [hmoved hpulled, hbpos, hconsumed, hcount, hstart]

/-- R193: a batch-mode step has at least 16 values to decode. -/
theorem Dec.Reached.batch_room (h : x.Reached words wc vc k) {d : DecId} (hk : k ≤ vc.toNat) (hb : x.batchMode d = true) :
    k + 16 ≤ vc.toNat := by
  obtain ⟨-, hmargin⟩ : d = .bdec ∧ Config.margin ≤ x.remaining.toNat := by
    simpa [Dec.batchMode, Dec.tail] using hb
  have hle : x.ocur ≤ x.valueCount := by rwa [BitVec.le_def, h.ocur, h.valueCount]
  rw [Dec.remaining, BitVec.toNat_sub_of_le hle, h.ocur, h.valueCount, Config.margin] at hmargin
  omega

end

/-- Decoder `d` has decoded `k` records of the stream `words`, whose words below `wc` all exist. -/
structure State.Reached (s : State) (d : DecId) (words : Nat → Word) (wc vc : Count) (k : Nat) : Prop where
  stream : s.words = words
  cap : wc.toNat ≤ s.wmemCap
  dec : (s.dec d).Reached words wc vc k

theorem State.Reached.setDec {s : State} {d : DecId} {x : Dec} {words : Nat → Word} {wc vc : Count} {k m : Nat}
    (h : s.Reached d words wc vc k) (hx : x.Reached words wc vc m) :
    (({ s with actor := d }).setDec d x).Reached d words wc vc m where
  stream := by rw [State.words_setDec, State.words_withActor, h.stream]
  cap := by rw [State.setDec_wmemCap]; exact h.cap
  dec := by rw [State.setDec_dec_same]; exact hx

section
variable {s : State} {d : DecId} {words : Nat → Word} {wc vc : Count} {k : Nat}

theorem State.Reached.wordAt_eq (h : s.Reached d words wc vc k) (i : Nat) (w : Word) (hw : s.wordAt d i = some w) :
    w = words i := by
  rw [← h.stream]
  exact State.wordAt_words h.dec.taint hw

theorem State.Reached.wordAt_isSome (h : s.Reached d words wc vc k) (i : Nat) (hi : i < wc.toNat) :
    (s.wordAt d i).isSome :=
  s.wordAt_isSome d (lt_of_lt_of_le hi h.cap)

/-- The window fill goes through: 16 records, which a batch-mode step has at least, are longer than the window (R193,
R194). -/
theorem State.Reached.windowFill (h : s.Reached d words wc vc k) (hk : k ≤ vc.toNat)
    (hend : recordStart words vc.toNat ≤ 32 * wc.toNat) :
    ∃ b, (s.dec d).windowFill d (s.wordAt d) = .ok b ∧ b.Inv wc ∧ b.Holds words ∧ b.pos = recordStart words k ∧
      ((s.dec d).batchMode d = true → Config.windowBits ≤ b.navail.toNat) := by
  have hx := h.dec
  have hwindow : (s.dec d).batchMode d = true → Config.windowBits ≤ (s.dec d).bitsLeft := fun hb => by
    have hlast : recordStart words (k + 16) ≤ recordStart words vc.toNat := recordStart_mono words (hx.batch_room hk hb)
    have hbits := recordStart_add words k 16
    have hleft := hx.inv.left_add_pos
    rw [hx.pos] at hleft
    rw [Dec.bitsLeft_eq, hx.wordCount, Config.windowBits]
    omega
  obtain ⟨b, hw⟩ := Dec.windowFill_complete (src := s.wordAt d) hwindow (by rw [hx.wordCount]; exact h.wordAt_isSome)
  obtain ⟨-, hpos, hinv, hwin, hholds⟩ := Dec.windowFill_spec hw
  rw [hx.wordCount] at hinv hholds
  exact ⟨b, hw, hinv hx.inv, hholds words h.wordAt_eq hx.inv hx.holds, hpos.trans hx.pos, hwin⟩

/-- A step decodes at least one record more, where the `vc` records end within the words (R180, R212): those of the entry
that matches the window, or the one at the cursor. -/
theorem State.Reached.step (h : s.Reached d words wc vc k) (hk : k < vc.toNat)
    (hend : recordStart words vc.toNat ≤ 32 * wc.toNat) :
    ∃ t m, s.decoderStep d = .next t ∧ 1 ≤ m ∧ k + m ≤ vc.toNat ∧ t.Reached d words wc vc (k + m) := by
  have hx := h.dec
  have hen := hx.enabled hk
  obtain ⟨b, hw, hinv, hholds, hbpos, hwin⟩ := h.windowFill hk.le hend
  by_cases hmatch : ∃ n, (s.dec d).batchMode d = true ∧ kselect (matchMask (b.peek Config.windowBits)) = some n
  · obtain ⟨n, hb, hsel⟩ := hmatch
    obtain rfl : d = .bdec := by
      cases d with
      | sdec => rw [Dec.batchMode_sdec] at hb; cases hb
      | bdec => rfl
    have hroom := hx.batch_room hk.le hb
    obtain ⟨m, hpos, hle, hnext⟩ := hx.storeLanes hroom hinv hholds hbpos (hwin hb) hsel
    exact ⟨_, m, State.decoderStep_of_match hen hb hw hsel, hpos, by omega, h.setDec hnext⟩
  · have hnone : (s.dec d).batchMode d = true → kselect (matchMask (b.peek Config.windowBits)) = none := fun hb =>
      Option.eq_none_iff_forall_ne_some.2 fun n hn => hmatch ⟨n, hb, hn⟩
    have hfits : (classAt words b.pos).recLen ≤ b.left wc := by
      have hnext : recordStart words k + (classAt words (recordStart words k)).recLen ≤ recordStart words vc.toNat :=
        recordStart_mono words hk
      have hleft := hinv.left_add_pos
      rw [hbpos] at hleft ⊢
      omega
    obtain ⟨t, p, b', hrec⟩ := BB.record_complete h.wordAt_eq h.wordAt_isSome hinv hholds hfits
    exact ⟨_, 1, State.decoderStep_of_record hen hw hnone (by rw [hx.wordCount]; exact hrec), le_rfl, hk,
      h.setDec (hx.storeValue h.wordAt_eq hk hinv hholds hbpos hrec)⟩

end

/-- Each step decoding at least one, as many steps as records are left decode them all. -/
theorem State.Reached.decSteps {s : State} {d : DecId} {words : Nat → Word} {wc vc : Count} {k n : Nat}
    (h : s.Reached d words wc vc k) (hk : k ≤ vc.toNat) (hn : vc.toNat ≤ k + n)
    (hend : recordStart words vc.toNat ≤ 32 * wc.toNat) :
    ∃ t, s.decSteps d n = .next t ∧ t.Reached d words wc vc vc.toNat := by
  induction n generalizing s k with
  | zero =>
    obtain rfl : k = vc.toNat := by omega
    exact ⟨s, rfl, h⟩
  | succ n ih =>
    rcases Nat.lt_or_eq_of_le hk with hmore | rfl
    · obtain ⟨u, m, hstep, hpos, hle, hu⟩ := h.step hmore hend
      obtain ⟨t, hrest, ht⟩ := ih hu hle (by omega)
      exact ⟨t, by simp only [State.decSteps, h.dec.enabled hmore, if_true, hstep, hrest], ht⟩
    · have hdone : (s.dec d).enabled = false := by simp [Dec.enabled, h.dec.done rfl]
      exact ⟨s, by simp only [State.decSteps, hdone, Bool.false_eq_true, if_false], h⟩

/-- The run of either decoder (R180, R214): `vc` steps decode the first `vc` records, where they end within the words. -/
theorem State.run_decodes {s : State} {d : DecId} {wc vc : Count} (hidle : (s.dec d).state ≠ .run)
    (howns : s.encOwns wc = false) (hcap : wc.toNat ≤ s.wmemCap) (hroom : vc.toNat ≤ (s.dec d).voutCap)
    (hend : recordStart s.words vc.toNat ≤ 32 * wc.toNat) :
    ∃ t, (s.startDec d wc vc).decSteps d vc.toNat = .next t ∧ t.Reached d s.words wc vc vc.toNat := by
  have hstart : (s.startDec d wc vc).Reached d s.words wc vc 0 := by
    rw [State.startDec_of_free vc hidle howns]
    exact ⟨State.words_setDec .., by rw [State.setDec_wmemCap]; exact hcap,
      by rw [State.setDec_dec_same]; exact (Dec.parsed_start s.words wc vc hroom).reached⟩
  exact hstart.decSteps (Nat.zero_le _) (by omega) hend

/-! ## The artifact that ENC makes of a sequence (R112, R134) -/

/-- The record that ENC makes of a value (R121, R134). -/
def recordInstrOf (v : Word) : Instr := recordInstr (classOf v).tag v

theorem recordInstrOf_recClass (v : Word) : (recordInstrOf v).recClass = some (classOf v) := by
  rw [recordInstrOf, recordInstr_recClass, WClass.ofTag_tag]

theorem encode_recordInstrOf (v : Word) : encode (recordInstrOf v) = .record (recordBits (classOf v) v.toNat) := by
  have henc := encode_recordInstr (classOf v) v.toNat (toNat_lt_two_pow_classOf_width v)
  rwa [BitVec.ofNat_toNat, BitVec.setWidth_eq] at henc

/-- A value's class is wide enough for the value (R121), so the record's payload is the value. -/
theorem recordValue_recordInstrOf (v : Word) : recordValue (recordInstrOf v) = v := by
  obtain ⟨henc, hlt⟩ := encode_of_recClass (recordInstrOf_recClass v)
  rw [encode_recordInstrOf, Encoding.record.injEq] at henc
  have hnum := congrArg (fun bits => numOf (bits.drop Config.tagBits) 0) henc
  simp only [recordBits, List.drop_left' (length_bitsOf _ _), numOf_bitsOf, Nat.mod_eq_of_lt hlt,
    Nat.mod_eq_of_lt (toNat_lt_two_pow_classOf_width v)] at hnum
  exact (BitVec.eq_of_toNat_eq hnum).symm

theorem payloadOf_classOf_width (v : Word) : payloadOf v (classOf v).width = v := by
  refine BitVec.eq_of_toNat_eq ?_
  rw [payloadOf_toNat v (WClass.width_le _), BitVec.extractLsb'_toNat, Nat.shiftRight_zero,
    Nat.mod_eq_of_lt (toNat_lt_two_pow_classOf_width v)]

/-- The stream of a sequence is the bits of the records of its values (R97, R134). -/
theorem streamOf_eq_recordsBits (vs : List Word) : streamOf vs = recordsBits (vs.map recordInstrOf) := by
  induction vs with
  | nil => rfl
  | cons v vs ih =>
    rw [List.map_cons, recordsBits, encode_recordInstrOf, encodingBits, ← ih, streamOf, List.flatMap_cons, recordOf,
      payloadOf_classOf_width, streamOf]

/-- Words that begin with the stream of a sequence parse as the sequence (R98, R103, R181). -/
theorem parse_of_stream {words : Nat → Word} {vs : List Word}
    (h : bitsFrom words 0 (streamOf vs).length = streamOf vs) :
    recordStart words vs.length = (streamOf vs).length ∧
      ∀ k (hk : k < vs.length), valueAt words (recordStart words k) = vs[k] := by
  have hrecords : ∀ r ∈ vs.map recordInstrOf, ∃ c, r.recClass = some c := fun r hr => by
    obtain ⟨v, -, rfl⟩ := List.mem_map.1 hr
    exact ⟨_, recordInstrOf_recClass v⟩
  rw [streamOf_eq_recordsBits] at h ⊢
  obtain ⟨hstart, hvalues⟩ := parse_of_bitsFrom (k := 0) hrecords h
  have hback : (vs.map recordInstrOf).map recordValue = vs := by
    rw [List.map_map]
    exact List.map_id'' recordValue_recordInstrOf vs
  rw [List.length_map] at hstart hvalues
  rw [hback] at hvalues
  refine ⟨by simpa [recordStart] using hstart, fun k hk => ?_⟩
  have hvalue := getElem?_valuesFrom words (k := 0) hk
  rw [hvalues, List.getElem?_eq_getElem hk, Nat.zero_add] at hvalue
  exact (Option.some.inj hvalue).symm

/-- The artifact of `vs` stands in `WMEM` from word 0 on, finished (R74, R99, R134). -/
structure State.HoldsArtifact (t : State) (vs : List Word) : Prop where
  done : t.enc.state = .done
  valueCount : t.enc.valueCount = BitVec.ofNat 64 vs.length
  wcount : t.enc.wcount.toNat = wordsFor (streamOf vs).length
  stream : bitsFrom t.words 0 (streamOf vs).length = streamOf vs

/-- Words that hold a bit string, 32 bits each, are the string as a stream (R97). -/
theorem bitsFrom_of_words {words : Nat → Word} {bits : List Bool}
    (h : ∀ k, k < wordsFor bits.length → words k = wordOfBits (bits.drop (32 * k))) :
    bitsFrom words 0 bits.length = bits := by
  refine List.ext_getElem (length_bitsFrom ..) fun p hp hpbits => ?_
  rw [← List.getD_eq_getElem _ false, ← List.getD_eq_getElem _ false, getD_bitsFrom words 0 _ p hpbits, Nat.zero_add,
    streamBit, h _ (by rw [wordsFor]; omega), getLsbD_wordOfBits _ (Nat.mod_lt p (by decide)),
    List.getD_eq_getElem?_getD, List.getElem?_drop, Nat.div_add_mod, ← List.getD_eq_getElem?_getD]

theorem exec_encFinish_frame {s t : State} (h : exec .encFinish s = .next t) : EncFrame s t := by
  rcases exec_encFinish_next h with ⟨-, rfl⟩ | ⟨-, rfl | hp⟩
  · exact .refl _
  · exact s.stickEnc_frame
  · exact State.finishStream_frame hp

theorem runInstrs_frame {is : List Instr} {s t : State}
    (hstep : ∀ i ∈ is, ∀ u w, exec i u = .next w → EncFrame u w) (h : runInstrs is s = .next t) : EncFrame s t := by
  induction is generalizing s with
  | nil => cases h; exact .refl _
  | cons i is ih =>
    cases hexec : exec i s with
    | next u =>
      rw [runInstrs_cons_of_next hexec] at h
      exact (hstep i List.mem_cons_self s u hexec).trans (ih (fun j hj => hstep j (List.mem_cons_of_mem i hj)) h)
    | fault r => simp only [runInstrs, hexec] at h; cases h
    | refused r => simp only [runInstrs, hexec] at h; cases h

/-- `ENCODE(vs)` leaves of the rest of the machine what one ENC command leaves (R70, R112, R288). -/
theorem encode_frame {s t : State} {vs : List Word} (h : runInstrs (encodeCommands vs) s = .next t) : EncFrame s t := by
  refine runInstrs_frame (fun i hi u w hexec => ?_) h
  simp only [encodeCommands, List.mem_cons, List.mem_append, List.mem_map, List.not_mem_nil, or_false] at hi
  rcases hi with rfl | ⟨v, -, rfl⟩ | rfl
  · cases hexec
    exact (EncFrame.refl u).withEnc _
  · exact (exec_encPush_next hexec).1
  · exact exec_encFinish_frame hexec

/-- `ENCODE(vs)` puts the artifact of `vs` into `WMEM` (R74, R112, R134). -/
theorem encode_holdsArtifact (s : State) {vs : List Word} (hcap : wordsFor (streamOf vs).length ≤ s.wmemCap)
    (hwrap : wordsFor (streamOf vs).length < 2 ^ 64) :
    ∃ t, runInstrs (encodeCommands vs) s = .next t ∧ t.HoldsArtifact vs := by
  obtain ⟨s0, hstart, h0⟩ := exec_encStart_encoded s
  obtain ⟨s1, hpushes, h1⟩ := h0.pushes (vs := vs) hcap hwrap [.encFinish]
  obtain ⟨t, hfinish, hdone, hvalues, -, hwcount, hread⟩ := h1.finish hcap hwrap
  obtain ⟨-, hfound⟩ := State.finishStream_unfinished (finishStream_of_done h1.accepts hfinish hdone)
  refine ⟨t, ?_, hdone, hvalues, hwcount, bitsFrom_of_words fun k hk => ?_⟩
  · rw [encodeCommands, runInstrs_cons_of_next hstart, hpushes, runInstrs_cons_of_next hfinish]
    rfl
  · rw [hfound, State.held, hread k hk, Option.getD_some, List.nil_append]

/-! ## The round trip (R181, R214, R290 H2) -/

/-- Either decoder on what ENC makes of a sequence gives the sequence, with ENC's word count or a larger one. -/
theorem roundTrip (d : DecId) (s : State) (vs : List Word) (hidle : (s.dec d).state ≠ .run) (hlen : vs.length < 2 ^ 64)
    (hcap : wordsFor (streamOf vs).length ≤ s.wmemCap) (hwrap : wordsFor (streamOf vs).length < 2 ^ 64)
    (hroom : vs.length ≤ (s.dec d).voutCap) :
    ∃ t, runInstrs (encodeCommands vs) s = .next t ∧
      ∀ wc : Count, t.enc.wcount ≤ wc → wc.toNat ≤ s.wmemCap →
        ∃ u, (t.startDec d wc t.enc.valueCount).decSteps d vs.length = .next u ∧ (u.dec d).state = .done ∧
          ∀ k (h : k < vs.length), (u.dec d).vout.read k = some vs[k] := by
  obtain ⟨t, hrun, hart⟩ := encode_holdsArtifact s hcap hwrap
  have hframe := encode_frame hrun
  refine ⟨t, hrun, fun wc hwc hwords => ?_⟩
  have hdec : t.dec d = s.dec d := hframe.idle d hidle
  have hvc : t.enc.valueCount.toNat = vs.length := by
    rw [hart.valueCount, BitVec.toNat_ofNat, Nat.mod_eq_of_lt hlen]
  have howns : t.encOwns wc = false :=
    (t.encOwns_eq_false wc).2 fun hbusy => by rw [hart.done] at hbusy; cases hbusy
  obtain ⟨hparse, hvalues⟩ := parse_of_stream hart.stream
  have hend : recordStart t.words t.enc.valueCount.toNat ≤ 32 * wc.toNat := by
    rw [BitVec.le_def, hart.wcount, wordsFor] at hwc
    rw [hvc, hparse]
    omega
  obtain ⟨u, hsteps, hu⟩ := State.run_decodes (by rw [hdec]; exact hidle) howns (by rw [hframe.cap]; exact hwords)
    (by rw [hdec, hvc]; exact hroom) hend
  rw [hvc] at hsteps hu
  exact ⟨u, hsteps, hu.dec.done hvc.symm, fun k hk => by rw [hu.dec.slots k hk, hvalues k hk]⟩

/-- Settles O57: `roundTrip` for SDEC. -/
theorem scalarRoundTrip : Obligations.ScalarRoundTrip := roundTrip .sdec

/-- Settles O58: `roundTrip` for BDEC. -/
theorem batchedRoundTrip : Obligations.BatchedRoundTrip := roundTrip .bdec

end Sys2Proof.Machine
end

section
/-! PROOFS. A decoder's step where the bits run out (R152, R179, R252, R257), and the run of BDEC against that of SDEC
(R172, R192, R214). -/

namespace Sys2Proof.Machine

/-! ## Where the bits run out (R152, R179, R194, R252, R257) -/

theorem BB.need_of_left_lt {bb : BB} (src : Nat → Option Word) {wc : Count} {k : Nat} (hk : k ≤ 32)
    (h : bb.left wc < k) : bb.need src wc k = .underrun bb := by
  unfold BB.left at h
  rw [BB.need, if_pos (by omega), BB.refill, if_pos (by rw [BitVec.le_def]; omega)]

theorem Dec.windowFill_of_left_lt {x : Dec} {d : DecId} (src : Nat → Option Word) (hb : x.batchMode d = true)
    (h : x.bitsLeft < Config.windowBits) : x.windowFill d src = .underrun x.bb := by
  rw [Dec.windowFill_of_batch src hb]
  exact BB.need_of_left_lt src (by decide) h

/-- The tag `DEC.record` reads is that of the stream's record at `POS` (R103, R154). -/
theorem BB.class_of_tag_read {bb b : BB} {src : Nat → Option Word} {wc : Count} {words : Nat → Word}
    (hs : ∀ i w, src i = some w → w = words i) (hi : bb.Inv wc) (hh : bb.Holds words)
    (h : bb.need src wc Config.tagBits = .ok b) :
    WClass.ofTag ((b.peek Config.tagBits).setWidth 2) = classAt words bb.pos := by
  obtain ⟨hbits, -, hpos, -⟩ := BB.need_spec (by decide) h
  rw [classAt, ← hpos, ← (BB.Holds.need (by decide) hs hi h hh).peek_toNat (by decide) hbits]
  rfl

/-- `DEC.record` raises where fewer bits are left than the stream's record at `POS` has: with the bit buffer untouched at
the tag, two bits past it at the payload (R257). -/
theorem BB.record_of_left_lt {bb : BB} {src : Nat → Option Word} {wc : Count} {words : Nat → Word}
    (hs : ∀ i w, src i = some w → w = words i) (hsome : ∀ i, i < wc.toNat → (src i).isSome) (hi : bb.Inv wc)
    (hh : bb.Holds words) (hl : bb.left wc < (classAt words bb.pos).recLen) :
    ∃ b, bb.record src wc = .underrun b ∧ if 2 ≤ bb.left wc then b.pos = bb.pos + 2 else b = bb := by
  by_cases htag : 2 ≤ bb.left wc
  · obtain ⟨b, hb⟩ := BB.need_complete (k := Config.tagBits) htag hsome
    obtain ⟨hbits, hleft, hpos, hkeeps⟩ := BB.need_spec (by decide) hb
    obtain ⟨hconsumed, hmoved, -⟩ := BB.consume_spec (wc := wc) hbits
    have hclass := BB.class_of_tag_read hs hi hh hb
    have hpay := BB.need_of_left_lt (bb := b.consume Config.tagBits) src (WClass.width_le (classAt words bb.pos))
      (wc := wc) (by rw [hconsumed, hleft, Config.tagBits]; rw [WClass.recLen_eq] at hl; omega)
    refine ⟨b.consume Config.tagBits, ?_, ?_⟩
    · simp only [BB.record, hb, BB.payload, hclass, hpay]
    · rw [if_pos htag, hmoved (hkeeps hi).2.1, hpos, Config.tagBits]
  · refine ⟨bb, ?_, by rw [if_neg htag]⟩
    simp only [BB.record, BB.need_of_left_lt src (k := Config.tagBits) (by decide) (not_le.1 htag)]

/-! ## The steps of either decoder (R172, R192, R256) -/

/-- The end of a step of decoder `d` that came to `DEC.record`: the value stored, the exception taken, or the stop at a
word that does not exist (R172, R256; log 6). -/
def State.settleRecord (s : State) (d : DecId) : RecordRead → Host.Outcome State Fault Refusal
  | .value _ p bb => .next (s.setDec d ((s.dec d).storeValue bb p))
  | .underrun bb => .next (s.takeUnderrun d bb)
  | .noWord i => .fault (.noWordToPull d i)

section
variable {s : State} {d : DecId} {b : BB}

/-- A step of an enabled decoder in which no entry is selected is `DEC.record` behind the window fill (R172, R199,
R211). -/
theorem State.decoderStep_of_no_match (hen : (s.dec d).enabled = true)
    (hw : (s.dec d).windowFill d (s.wordAt d) = .ok b)
    (hk : (s.dec d).batchMode d = true → kselect (matchMask (b.peek Config.windowBits)) = none) :
    s.decoderStep d =
      ({ s with actor := d }).settleRecord d (b.record (s.wordAt d) (s.dec d).wordCount) := by
  cases hrec : b.record (s.wordAt d) (s.dec d).wordCount with
  | value t p bb =>
    simp only [State.decoderStep_of_record hen hw hk hrec, State.settleRecord, State.dec_withActor]
  | underrun bb =>
    exact State.decoderStep_of_underrun (by simp only [State.fetch_of_no_match hw hk, BB.fetchRecord, hrec])
  | noWord i =>
    exact State.decoderStep_of_noWord (by simp only [State.fetch_of_no_match hw hk, BB.fetchRecord, hrec])

theorem State.fetch_of_window_underrun (hw : (s.dec d).windowFill d (s.wordAt d) = .underrun b) :
    s.fetch d = .underrun b := by
  obtain ⟨-, hb, -, -⟩ := Dec.windowFill_underrun hw
  simp only [State.fetch, hb, if_true, hw]

theorem State.fetch_of_window_noWord {i : Nat} (hw : (s.dec d).windowFill d (s.wordAt d) = .noWord i) :
    s.fetch d = .noWord i := by
  have hb : (s.dec d).batchMode d = true := by
    by_contra hb
    rw [Dec.windowFill_of_not_batch _ (Bool.eq_false_iff.2 hb)] at hw
    cases hw
  simp only [State.fetch, hb, if_true, hw]

end

/-! ## The words of a run (R66, R78, R288; log 8, log 23) -/

/-- What a run with the note `taint` finds where `words` stand in `WMEM`. -/
def notedWords (words : Nat → Word) : Option Nat → Nat → Word
  | some n => Config.mixedWord n
  | none => words

/-- The words of the run of decoder `d`. -/
def State.runWords (s : State) (d : DecId) : Nat → Word := notedWords s.words (s.dec d).taint

theorem State.wordAt_eq_runWords {s : State} {d : DecId} {i : Nat} {w : Word} (h : s.wordAt d i = some w) :
    w = s.runWords d i := by
  unfold State.wordAt at h
  unfold State.runWords
  cases ht : (s.dec d).taint <;> simp_all [notedWords]

/-- A decoder that keeps its note keeps the words of its run. -/
theorem State.runWords_setDec {s : State} {d : DecId} {x : Dec} (h : x.taint = (s.dec d).taint) :
    (({ s with actor := d }).setDec d x).runWords d = s.runWords d := by
  rw [State.runWords, State.setDec_dec_same, h, State.words_setDec, State.words_withActor, State.runWords]

/-- The words of a run are the same whichever decoder is started. -/
theorem State.runWords_startDec {s : State} {d : DecId} (wc vc : Count) (h : (s.dec d).state ≠ .run) :
    (s.startDec d wc vc).runWords d = notedWords s.words (s.startNote wc) := by
  rw [State.startDec_of_not_run wc vc h, State.runWords, State.setDec_dec_same, State.words_setDec, State.words_withFree]

/-! ## How far a run gets (R180, R212, R214, R252) -/

/-- A decoder without the note of its run. -/
def Dec.unnoted (x : Dec) : Dec := { x with taint := none }

theorem Dec.unnoted_storeValue (x : Dec) (bb : BB) (v : Word) :
    (x.storeValue bb v).unnoted = x.unnoted.storeValue bb v ∧ (x.storeValue bb v).taint = x.taint := by
  simp only [Dec.storeValue_eq_decoded]
  split
  · next hslot => exact ⟨(if_pos hslot).symm, rfl⟩
  · next hslot => exact ⟨(if_neg hslot).symm, rfl⟩

theorem Dec.unnoted_storeLanes (x : Dec) (e : PatEntry) (bb : BB) (v : Lanes4 Word) :
    (x.storeLanes e bb v).unnoted = x.unnoted.storeLanes e bb v ∧ (x.storeLanes e bb v).taint = x.taint := by
  simp only [Dec.storeLanes_eq_decoded]
  split
  · next hslot => exact ⟨(if_pos hslot).symm, rfl⟩
  · next hslot => exact ⟨(if_neg hslot).symm, rfl⟩

/-- Decoder `d` has decoded `k` records of the words of its run, noted or not, the words below `wc` all existing. -/
structure State.RunReached (s : State) (d : DecId) (words : Nat → Word) (wc vc : Count) (k : Nat) : Prop where
  stream : s.runWords d = words
  cap : wc.toNat ≤ s.wmemCap
  dec : (s.dec d).unnoted.Reached words wc vc k

/-- Decoder `d` is in `FAULT`, and the `vc` records of the words do not end within the first `wc`. -/
structure State.RunOut (s : State) (d : DecId) (words : Nat → Word) (wc vc : Count) : Prop where
  fault : (s.dec d).state = .fault
  short : 32 * wc.toNat < recordStart words vc.toNat

section
variable {s : State} {d : DecId} {words : Nat → Word} {wc vc : Count} {k : Nat}

theorem State.RunReached.setDec {x : Dec} {m : Nat} (h : s.RunReached d words wc vc k)
    (hx : x.unnoted.Reached words wc vc m) (ht : x.taint = (s.dec d).taint) :
    (({ s with actor := d }).setDec d x).RunReached d words wc vc m where
  stream := by rw [State.runWords_setDec ht, h.stream]
  cap := by rw [State.setDec_wmemCap]; exact h.cap
  dec := by rw [State.setDec_dec_same]; exact hx

theorem State.RunReached.wordAt_eq (h : s.RunReached d words wc vc k) (i : Nat) (w : Word)
    (hw : s.wordAt d i = some w) : w = words i := by
  rw [← h.stream]
  exact State.wordAt_eq_runWords hw

theorem State.RunReached.wordAt_isSome (h : s.RunReached d words wc vc k) (i : Nat) (hi : i < wc.toNat) :
    (s.wordAt d i).isSome :=
  s.wordAt_isSome d (lt_of_lt_of_le hi h.cap)

theorem State.runOut_takeUnderrun (b : BB) (h : 32 * wc.toNat < recordStart words vc.toNat) :
    (({ s with actor := d }).takeUnderrun d b).RunOut d words wc vc :=
  ⟨by rw [State.takeUnderrun, State.setDec_dec_same, Dec.raiseUnderrun_state], h⟩

/-- The records decoded so far end within the words. -/
theorem State.RunReached.recordStart_le (h : s.RunReached d words wc vc k) : recordStart words k ≤ 32 * wc.toNat := by
  have hleft := h.dec.inv.left_add_pos
  rw [h.dec.pos] at hleft
  omega

/-- Where the window of a batch-mode step is not there, the records do not end within the words: 16 of them, which such a
step has at least, are longer than the window (R193, R194). -/
theorem State.RunReached.short_of_window (h : s.RunReached d words wc vc k) (hk : k ≤ vc.toNat)
    (hb : (s.dec d).batchMode d = true) (hl : (s.dec d).bitsLeft < Config.windowBits) :
    32 * wc.toNat < recordStart words vc.toNat := by
  have hlast : recordStart words (k + 16) ≤ recordStart words vc.toNat :=
    recordStart_mono words (h.dec.batch_room (d := d) hk hb)
  have hbits := recordStart_add words k 16
  have hleft : (s.dec d).bb.left wc + (s.dec d).bb.pos = 32 * wc.toNat := h.dec.inv.left_add_pos
  have hpos : (s.dec d).bb.pos = recordStart words k := h.dec.pos
  have hwc : (s.dec d).wordCount = wc := h.dec.wordCount
  rw [Dec.bitsLeft_eq, hwc, Config.windowBits] at hl
  omega

/-- A step behind its window fill: at least one record more, those of the entry that matches the window or the one at the
cursor; or a fault, where the one at the cursor does not end within the words. -/
theorem State.RunReached.step_of_fill (h : s.RunReached d words wc vc k) (hk : k < vc.toNat) {b : BB}
    (hw : (s.dec d).windowFill d (s.wordAt d) = .ok b) :
    ∃ t, s.decoderStep d = .next t ∧
      ((∃ m, 1 ≤ m ∧ k + m ≤ vc.toNat ∧ t.RunReached d words wc vc (k + m)) ∨ t.RunOut d words wc vc) := by
  have hx := h.dec
  have hen : (s.dec d).enabled = true := hx.enabled hk
  have hwc : (s.dec d).wordCount = wc := hx.wordCount
  obtain ⟨-, hpos, hinv, hwin, hholds⟩ := Dec.windowFill_spec hw
  rw [hwc] at hinv hholds
  replace hpos : b.pos = recordStart words k := hpos.trans hx.pos
  replace hinv : b.Inv wc := hinv hx.inv
  replace hholds : b.Holds words := hholds words h.wordAt_eq hx.inv hx.holds
  by_cases hmatch : ∃ n, (s.dec d).batchMode d = true ∧ kselect (matchMask (b.peek Config.windowBits)) = some n
  · obtain ⟨n, hb, hsel⟩ := hmatch
    obtain rfl : d = .bdec := by
      cases d with
      | sdec => rw [Dec.batchMode_sdec] at hb; cases hb
      | bdec => rfl
    have hroom := hx.batch_room (d := .bdec) hk.le hb
    obtain ⟨m, hone, hle, hnext⟩ := hx.storeLanes hroom hinv hholds hpos (hwin hb) hsel
    obtain ⟨hlanes, hnote⟩ := Dec.unnoted_storeLanes (s.dec .bdec) (patTable.getD n pt0) b
      (extractLanes (patTable.getD n pt0) (b.peek Config.windowBits))
    exact ⟨_, State.decoderStep_of_match hen hb hw hsel,
      .inl ⟨m, hone, by omega, h.setDec (by rw [← State.dec_bdec, hlanes]; exact hnext) hnote⟩⟩
  · have hnone : (s.dec d).batchMode d = true → kselect (matchMask (b.peek Config.windowBits)) = none := fun hb =>
      Option.eq_none_iff_forall_ne_some.2 fun n hn => hmatch ⟨n, hb, hn⟩
    rw [State.decoderStep_of_no_match hen hw hnone, hwc]
    by_cases hfits : (classAt words b.pos).recLen ≤ b.left wc
    · obtain ⟨t, p, b', hrec⟩ := BB.record_complete h.wordAt_eq h.wordAt_isSome hinv hholds hfits
      obtain ⟨hvalue, hnote⟩ := Dec.unnoted_storeValue (s.dec d) b' p
      rw [hrec, State.settleRecord, State.dec_withActor]
      exact ⟨_, rfl, .inl ⟨1, le_rfl, hk,
        h.setDec (by rw [hvalue]; exact hx.storeValue h.wordAt_eq hk hinv hholds hpos hrec) hnote⟩⟩
    · obtain ⟨b', hrec, -⟩ := BB.record_of_left_lt h.wordAt_eq h.wordAt_isSome hinv hholds (not_le.1 hfits)
      have hnext : recordStart words k + (classAt words (recordStart words k)).recLen ≤ recordStart words vc.toNat :=
        recordStart_mono words hk
      have hleft := hinv.left_add_pos
      rw [hpos] at hleft hfits
      rw [hrec, State.settleRecord]
      exact ⟨_, rfl, .inr (State.runOut_takeUnderrun b' (by omega))⟩

/-- Everything a step of a run can do: at least one record more, or a fault where the records do not end within the
words. -/
theorem State.RunReached.step (h : s.RunReached d words wc vc k) (hk : k < vc.toNat) :
    ∃ t, s.decoderStep d = .next t ∧
      ((∃ m, 1 ≤ m ∧ k + m ≤ vc.toNat ∧ t.RunReached d words wc vc (k + m)) ∨ t.RunOut d words wc vc) := by
  have hwc : (s.dec d).wordCount = wc := h.dec.wordCount
  by_cases hwindow : (s.dec d).batchMode d = true → Config.windowBits ≤ (s.dec d).bitsLeft
  · obtain ⟨b, hw⟩ := Dec.windowFill_complete hwindow (by rw [hwc]; exact h.wordAt_isSome)
    exact h.step_of_fill hk hw
  · obtain ⟨hb, hl⟩ := Classical.not_imp.1 hwindow
    have hw := Dec.windowFill_of_left_lt (s.wordAt d) hb (not_le.1 hl)
    exact ⟨_, State.decoderStep_of_underrun (State.fetch_of_window_underrun hw),
      .inr (State.runOut_takeUnderrun _ (h.short_of_window hk.le hb (not_le.1 hl)))⟩

end

theorem State.decSteps_of_disabled {s : State} {d : DecId} (h : (s.dec d).enabled = false) (n : Nat) :
    s.decSteps d n = .next s := by
  cases n with
  | zero => rfl
  | succ n => simp only [State.decSteps, h, Bool.false_eq_true, if_false]

theorem State.decSteps_of_next {s t : State} {d : DecId} (hen : (s.dec d).enabled = true)
    (h : s.decoderStep d = .next t) (n : Nat) : s.decSteps d (n + 1) = t.decSteps d n := by
  simp only [State.decSteps, hen, if_true, h]

/-- As many steps as records are left decode them all, or end in a fault where the records do not end within the words. -/
theorem State.RunReached.decSteps {s : State} {d : DecId} {words : Nat → Word} {wc vc : Count} {k n : Nat}
    (h : s.RunReached d words wc vc k) (hk : k ≤ vc.toNat) (hn : vc.toNat ≤ k + n) :
    ∃ t, s.decSteps d n = .next t ∧ (t.RunReached d words wc vc vc.toNat ∨ t.RunOut d words wc vc) := by
  induction n generalizing s k with
  | zero =>
    obtain rfl : k = vc.toNat := by omega
    exact ⟨s, rfl, .inl h⟩
  | succ n ih =>
    rcases Nat.lt_or_eq_of_le hk with hmore | rfl
    · obtain ⟨u, hstep, ⟨m, hone, hle, hu⟩ | hout⟩ := h.step hmore
      · obtain ⟨t, hrest, ht⟩ := ih hu hle (by omega)
        exact ⟨t, by rw [State.decSteps_of_next (h.dec.enabled hmore) hstep, hrest], ht⟩
      · have hstop : (u.dec d).enabled = false := by simp [Dec.enabled, hout.fault]
        exact ⟨u, by rw [State.decSteps_of_next (h.dec.enabled hmore) hstep, State.decSteps_of_disabled hstop],
          .inr hout⟩
    · have hdone : (s.dec d).state = .done := h.dec.done rfl
      exact ⟨s, State.decSteps_of_disabled (by simp [Dec.enabled, hdone]) _, .inl h⟩

/-- The run of either decoder ends with its first `vc` records decoded, or in `FAULT`, where they do not end within the
words (R180, R214, R252). -/
theorem State.run_ends {s : State} {d : DecId} {wc vc : Count} (hidle : (s.dec d).state ≠ .run)
    (hcap : wc.toNat ≤ s.wmemCap) (hroom : vc.toNat ≤ (s.dec d).voutCap) :
    ∃ t, (s.startDec d wc vc).decSteps d vc.toNat = .next t ∧
      (t.RunReached d (notedWords s.words (s.startNote wc)) wc vc vc.toNat ∨
        t.RunOut d (notedWords s.words (s.startNote wc)) wc vc) := by
  have hstart : (s.startDec d wc vc).RunReached d (notedWords s.words (s.startNote wc)) wc vc 0 := by
    refine ⟨State.runWords_startDec wc vc hidle, ?_, ?_⟩
    · rw [State.startDec_of_not_run wc vc hidle, State.setDec_wmemCap]
      exact hcap
    · rw [State.startDec_dec wc vc hidle]
      exact (Dec.parsed_start (notedWords s.words (s.startNote wc)) wc vc hroom).reached
  exact hstart.decSteps (Nat.zero_le _) (by omega)

/-- Settles O59: both runs are over the same words (`State.run_ends`), and whether the `vc` records end within them decides
for both between `DONE` and `FAULT`. -/
theorem batchedDecoderAgreesWithScalar : Obligations.BatchedDecoderAgreesWithScalar := by
  intro s t wc vc hsidle hbidle hcap hsroom hbroom hrun
  obtain ⟨t', hrun', ht⟩ := State.run_ends (d := .sdec) hsidle hcap hsroom
  obtain rfl : t' = t := by rw [hrun'] at hrun; injection hrun
  obtain ⟨u, hu, hend⟩ := State.run_ends (d := .bdec) hbidle hcap hbroom
  refine ⟨u, hu, fun hdone => ?_, fun hfault => ?_⟩
  · have hs : t'.RunReached .sdec (notedWords s.words (s.startNote wc)) wc vc vc.toNat :=
      ht.resolve_right fun hout => by
        have hstate : t'.sdec.state = .fault := hout.fault
        rw [hdone] at hstate
        cases hstate
    have hb : u.RunReached .bdec (notedWords s.words (s.startNote wc)) wc vc vc.toNat :=
      hend.resolve_right fun hout => not_lt.2 hs.recordStart_le hout.short
    exact ⟨hb.dec.done rfl, hb.dec.pos.trans hs.dec.pos.symm,
      fun k hk => (hb.dec.slots k hk).trans (hs.dec.slots k hk).symm⟩
  · have hs : t'.RunOut .sdec (notedWords s.words (s.startNote wc)) wc vc :=
      ht.resolve_left fun hreached => by
        have hstate : t'.sdec.state = .done := hreached.dec.done rfl
        rw [hfault] at hstate
        cases hstate
    exact (hend.resolve_left fun hreached => not_lt.2 hreached.recordStart_le hs.short).fault

end Sys2Proof.Machine
end

section
/-! PROOFS. The pattern table against every window (R196, R197, R203, R205): which windows an entry matches, and what a
window that no entry matches begins with. -/

namespace Sys2Proof.Machine

/-! ## A window that decodes (R203) -/

/-- Settles O3: the window of the entry that matches it, with the window's fields, is the window (`encode_patInstr`). -/
theorem encodeOfDecodedWindowIsTheWindow : Obligations.EncodeOfDecodedWindowIsTheWindow := fun _ _ =>
  encode_of_decodeWindow

/-! ## The entry of a window (R205) -/

/-- A window matches an entry where it has the entry's bits at the places the entry tests. -/
theorem match_of_bits {win : Word} {e : PatEntry} (bits : List Nat)
    (hwin : bits.map win.getLsbD = bits.map e.expect.getLsbD)
    (htested : ∀ n < 32, if e.mask.getLsbD n then n ∈ bits else e.expect.getLsbD n = false) :
    win &&& e.mask = e.expect := by
  refine BitVec.eq_of_getLsbD_eq fun n hn => ?_
  have ht := htested n hn
  rw [BitVec.getLsbD_and]
  split at ht
  · next hm => rw [hm, Bool.and_true, List.map_inj_left.1 hwin n ht]
  · next hm => rw [ht, Bool.eq_false_iff.2 hm, Bool.and_false]

/-- Some entry of the table matches the window. -/
def SomeMatch (win : Word) : Prop :=
  ∃ i, i < 16 ∧ win &&& (patTable.getD i pt0).mask = (patTable.getD i pt0).expect

section
variable {win : Word}

/-- The windows that begin with the records C0, C0 (R220 to R224): by the next tag, and behind a third C0 by the fourth. -/
theorem someMatch_of_c0_c0 (h31 : win.getLsbD 31 = false) (h30 : win.getLsbD 30 = false) (h25 : win.getLsbD 25 = false)
    (h24 : win.getLsbD 24 = false) : SomeMatch win := by
  cases h19 : win.getLsbD 19 with
  | true => exact ⟨4, by decide, match_of_bits [31, 30, 25, 24, 19] (by simp only [List.map, *]; rfl) (by decide)⟩
  | false =>
    cases h18 : win.getLsbD 18 with
    | true =>
      exact ⟨3, by decide, match_of_bits [31, 30, 25, 24, 19, 18] (by simp only [List.map, *]; rfl) (by decide)⟩
    | false =>
      cases h13 : win.getLsbD 13 with
      | true =>
        exact ⟨2, by decide, match_of_bits [31, 30, 25, 24, 19, 18, 13] (by simp only [List.map, *]; rfl) (by decide)⟩
      | false =>
        cases h12 : win.getLsbD 12 with
        | true => exact ⟨1, by decide,
            match_of_bits [31, 30, 25, 24, 19, 18, 13, 12] (by simp only [List.map, *]; rfl) (by decide)⟩
        | false => exact ⟨0, by decide,
            match_of_bits [31, 30, 25, 24, 19, 18, 13, 12] (by simp only [List.map, *]; rfl) (by decide)⟩

/-- The windows that begin with the records C0, C1 (R225 to R227): by the next tag. -/
theorem someMatch_of_c0_c1 (h31 : win.getLsbD 31 = false) (h30 : win.getLsbD 30 = false) (h25 : win.getLsbD 25 = false)
    (h24 : win.getLsbD 24 = true) : SomeMatch win := by
  cases h12 : win.getLsbD 12 with
  | true => exact ⟨7, by decide, match_of_bits [31, 30, 25, 24, 12] (by simp only [List.map, *]; rfl) (by decide)⟩
  | false =>
    cases h11 : win.getLsbD 11 with
    | true =>
      exact ⟨6, by decide, match_of_bits [31, 30, 25, 24, 12, 11] (by simp only [List.map, *]; rfl) (by decide)⟩
    | false =>
      exact ⟨5, by decide, match_of_bits [31, 30, 25, 24, 12, 11] (by simp only [List.map, *]; rfl) (by decide)⟩

/-- The windows that begin with a C0 (R220 to R229): by the second tag. -/
theorem someMatch_of_c0 (h31 : win.getLsbD 31 = false) (h30 : win.getLsbD 30 = false) : SomeMatch win := by
  cases h25 : win.getLsbD 25 with
  | false =>
    cases h24 : win.getLsbD 24 with
    | false => exact someMatch_of_c0_c0 h31 h30 h25 h24
    | true => exact someMatch_of_c0_c1 h31 h30 h25 h24
  | true =>
    cases h24 : win.getLsbD 24 with
    | false => exact ⟨8, by decide, match_of_bits [31, 30, 25, 24] (by simp only [List.map, *]; rfl) (by decide)⟩
    | true => exact ⟨9, by decide, match_of_bits [31, 30, 25, 24] (by simp only [List.map, *]; rfl) (by decide)⟩

/-- The windows that begin with the records C1, C0 (R230 to R232): by the next tag. -/
theorem someMatch_of_c1_c0 (h31 : win.getLsbD 31 = false) (h30 : win.getLsbD 30 = true) (h18 : win.getLsbD 18 = false)
    (h17 : win.getLsbD 17 = false) : SomeMatch win := by
  cases h12 : win.getLsbD 12 with
  | true => exact ⟨12, by decide, match_of_bits [31, 30, 18, 17, 12] (by simp only [List.map, *]; rfl) (by decide)⟩
  | false =>
    cases h11 : win.getLsbD 11 with
    | true =>
      exact ⟨11, by decide, match_of_bits [31, 30, 18, 17, 12, 11] (by simp only [List.map, *]; rfl) (by decide)⟩
    | false =>
      exact ⟨10, by decide, match_of_bits [31, 30, 18, 17, 12, 11] (by simp only [List.map, *]; rfl) (by decide)⟩

/-- The windows that begin with a C1 (R230 to R234): by the second tag. -/
theorem someMatch_of_c1 (h31 : win.getLsbD 31 = false) (h30 : win.getLsbD 30 = true) : SomeMatch win := by
  cases h18 : win.getLsbD 18 with
  | true => exact ⟨14, by decide, match_of_bits [31, 30, 18] (by simp only [List.map, *]; rfl) (by decide)⟩
  | false =>
    cases h17 : win.getLsbD 17 with
    | true => exact ⟨13, by decide, match_of_bits [31, 30, 18, 17] (by simp only [List.map, *]; rfl) (by decide)⟩
    | false => exact someMatch_of_c1_c0 h31 h30 h18 h17

/-- The windows that begin with a C2 (R235). -/
theorem someMatch_of_c2 (h31 : win.getLsbD 31 = true) (h30 : win.getLsbD 30 = false) : SomeMatch win :=
  ⟨15, by decide, match_of_bits [31, 30] (by simp only [List.map, *]; rfl) (by decide)⟩

/-- The leading tag of a window is its two top bits. -/
theorem leadingTag_eq_three (h31 : win.getLsbD 31 = true) (h30 : win.getLsbD 30 = true) :
    win.extractLsb' 30 2 = 0b11#2 := by
  refine BitVec.eq_of_getLsbD_eq fun n hn => ?_
  rw [BitVec.getLsbD_extractLsb', decide_eq_true hn, Bool.true_and]
  interval_cases n
  · exact h30
  · exact h31

theorem someMatch_of_tag_ne_three (h : win.extractLsb' 30 2 ≠ 0b11#2) : SomeMatch win := by
  cases h31 : win.getLsbD 31 with
  | false =>
    cases h30 : win.getLsbD 30 with
    | false => exact someMatch_of_c0 h31 h30
    | true => exact someMatch_of_c1 h31 h30
  | true =>
    cases h30 : win.getLsbD 30 with
    | false => exact someMatch_of_c2 h31 h30
    | true => exact absurd (leadingTag_eq_three h31 h30) h

/-- Every entry tests the leading tag and expects none of 11 (R205 check b). -/
theorem patTable_leadingTag :
    ∀ e ∈ patTable, e.mask.extractLsb' 30 2 = 0b11#2 ∧ e.expect.extractLsb' 30 2 ≠ 0b11#2 := by decide

theorem not_match_of_tag_three {e : PatEntry} (he : e ∈ patTable) (h : win.extractLsb' 30 2 = 0b11#2) :
    win &&& e.mask ≠ e.expect := by
  intro hm
  obtain ⟨hmask, hexpect⟩ := patTable_leadingTag e he
  refine hexpect ?_
  rw [← hm, BitVec.extractLsb'_and, h, hmask]
  rfl

theorem matchMask_of_tag_three (h : win.extractLsb' 30 2 = 0b11#2) : matchMask win = 0 := by
  refine BitVec.eq_of_getLsbD_eq fun i hi => ?_
  rw [matchMask_getLsbD win i hi, decide_eq_false (not_match_of_tag_three (patTable_getD_mem hi) h)]
  exact (BitVec.getLsbD_zero).symm

/-- Selection finds no entry exactly where the leading tag is 11 (R197, R199, R205). -/
theorem kselect_eq_none_iff : kselect (matchMask win) = none ↔ win.extractLsb' 30 2 = 0b11#2 := by
  refine ⟨fun hnone => ?_, fun h => by rw [matchMask_of_tag_three h]; decide⟩
  by_contra h
  obtain ⟨i, hi, hm⟩ := someMatch_of_tag_ne_three h
  rw [kselect_of_match hi hm] at hnone
  cases hnone

end

/-- Settles O10: a window of tag 11 fails the tag test of every entry (`matchMask_of_tag_three`), any other matches one
(`someMatch_of_tag_ne_three`) and by check (a) no second (`matchMask_of_match`). -/
theorem exactlyOneEntryMatchesUnlessTag11 : Obligations.ExactlyOneEntryMatchesUnlessTag11 := by
  refine ⟨fun win => matchMask_of_tag_three, fun win h => ?_, fun i j hi hj => entries_disjoint i hi j hj,
    patTable_leadingTag, by decide, by decide⟩
  obtain ⟨i, hi, hm⟩ := someMatch_of_tag_ne_three h
  exact ⟨i, hi, matchMask_of_match hi hm⟩

end Sys2Proof.Machine
end

section
/-! PROOFS. BDEC's steps one by one: what it finds at its cursor (R195 to R199), the batch-mode step (R192, R212, R216), the
tail step (R211), the pattern entries (R220 to R235), and the steps in which the bits run out (R194, R252, R257). -/

namespace Sys2Proof.Machine

/-! ## The window against the stream (R97, R154, R195) -/

/-- A field of the stream is its first bits, followed by the others (R154). -/
theorem streamField_add (words : Nat → Word) (p m n : Nat) :
    streamField words p (m + n) = streamField words p m * 2 ^ n + streamField words (p + m) n := by
  simp only [streamField_eq_numOf, bitsFrom_append, numOf_append]
  rw [numOf_acc, length_bitsFrom]

/-- The leading tag of the window is that of the stream's record at `POS` (R103, R195). -/
theorem classAt_of_window {words : Nat → Word} {p : Nat} {win : Word}
    (h : win.toNat = streamField words p Config.windowBits) :
    classAt words p = WClass.ofTag (win.extractLsb' 30 2) := by
  have hfield := streamField_add words p Config.tagBits 30
  have hrest := streamField_lt words (p + Config.tagBits) 30
  rw [classAt]
  congr 1
  refine BitVec.eq_of_toNat_eq ?_
  rw [BitVec.toNat_ofNat, BitVec.extractLsb'_toNat, h, Nat.shiftRight_eq_div_pow]
  change streamField words p Config.windowBits = _ at hfield
  omega

theorem WClass.ofTag_eq_c3_iff (t : BitVec 2) : WClass.ofTag t = .c3 ↔ t = 0b11#2 := by revert t; decide

/-- No entry matches the window exactly where the stream's record at `POS` is a `REC.C3` (R199, R205). -/
theorem kselect_eq_none_iff_c3 {words : Nat → Word} {p : Nat} {win : Word}
    (h : win.toNat = streamField words p Config.windowBits) :
    kselect (matchMask win) = none ↔ classAt words p = .c3 := by
  rw [kselect_eq_none_iff, classAt_of_window h, WClass.ofTag_eq_c3_iff]

/-- Where the window is filled, it is the stream's 32 bits from `POS` on (R194, R195). -/
theorem window_eq_streamField {x : Dec} {d : DecId} {src : Nat → Option Word} {b : BB} {words : Nat → Word}
    (hs : ∀ i w, src i = some w → w = words i) (hi : x.bb.Inv x.wordCount) (hh : x.bb.Holds words)
    (hb : x.batchMode d = true) (hw : x.windowFill d src = .ok b) :
    (b.peek Config.windowBits).toNat = streamField words x.bb.pos Config.windowBits := by
  obtain ⟨-, hpos, -, hwin, hholds⟩ := Dec.windowFill_spec hw
  rw [(hholds words hs hi hh).peek_toNat (by decide) (hwin hb), hpos]

/-! ## What BDEC finds in batch mode (R195 to R199) -/

theorem decodeWindow_of_none {win : Word} (h : kselect (matchMask win) = none) :
    decodeWindow win = .error .noPattern := by
  simp only [decodeWindow, h, Option.bind_none]

theorem decodeWindow_of_some {win : Word} {k : Nat} (h : kselect (matchMask win) = some k) :
    ∃ i, decodeWindow win = .ok i := by
  obtain ⟨i, hi⟩ := patInstr_isSome (match_of_kselect h).1 win
  exact ⟨i, by simp only [decodeWindow, h, Option.bind_some, hi]⟩

theorem State.fetch_of_decodeWindow {s : State} {d : DecId} {b : BB} {i : Instr} (hb : (s.dec d).batchMode d = true)
    (hw : (s.dec d).windowFill d (s.wordAt d) = .ok b) (h : decodeWindow (b.peek Config.windowBits) = .ok i) :
    s.fetch d = .instr i := by
  simp only [State.fetch, hb, if_true, hw, h]

/-- A record found at the cursor is the stream's, its tag and its payload (R103, R104). -/
theorem BB.fetchRecord_stream {bb : BB} {src : Nat → Option Word} {wc : Count} {words : Nat → Word} {i : Instr}
    (hs : ∀ i w, src i = some w → w = words i) (hi : bb.Inv wc) (hh : bb.Holds words)
    (h : bb.fetchRecord src wc = .instr i) :
    ∃ t, WClass.ofTag t = classAt words bb.pos ∧ i = recordInstr t (valueAt words bb.pos) := by
  rcases bb.fetchRecord_eq src wc with ⟨t, p, b, hrec, hf⟩ | ⟨b, -, hf⟩ | ⟨k, -, hf⟩ <;> rw [hf] at h <;> cases h
  obtain ⟨hclass, hvalue⟩ := BB.record_stream hs hi hh hrec
  exact ⟨t, hclass, by rw [hvalue]⟩

/-- Settles O26: the window is the stream's (`window_eq_streamField`); where it does not decode the record at the cursor is a
`REC.C3` (`kselect_eq_none_iff_c3`). -/
theorem fetchedPatternIsTheStreamsWindow : Obligations.FetchedPatternIsTheStreamsWindow := by
  intro s i hb ht hinv hholds hfetch
  have hs : ∀ k w, s.wordAt .bdec k = some w → w = s.words k := fun _ _ => State.wordAt_words (d := .bdec) ht
  cases hw : s.bdec.windowFill .bdec (s.wordAt .bdec) with
  | underrun b => rw [State.fetch_of_window_underrun (d := .bdec) hw] at hfetch; cases hfetch
  | noWord k => rw [State.fetch_of_window_noWord (d := .bdec) hw] at hfetch; cases hfetch
  | ok b =>
    have hwin := window_eq_streamField hs hinv hholds hb hw
    cases hk : kselect (matchMask (b.peek Config.windowBits)) with
    | some k =>
      obtain ⟨j, hj⟩ := decodeWindow_of_some hk
      rw [State.fetch_of_decodeWindow (d := .bdec) hb hw hj] at hfetch
      cases hfetch
      exact .inl ⟨_, hwin, hj⟩
    | none =>
      obtain ⟨-, hpos, hkeeps, -, hstream⟩ := Dec.windowFill_spec hw
      rw [State.fetch_of_no_match (d := .bdec) hw fun _ => hk] at hfetch
      obtain ⟨t, hclass, hi⟩ := BB.fetchRecord_stream hs (hkeeps hinv) (hstream _ hs hinv hholds) hfetch
      rw [hpos] at hclass hi
      rw [(kselect_eq_none_iff_c3 hwin).1 hk, WClass.ofTag_eq_c3_iff] at hclass
      subst hclass
      exact .inr ⟨_, hwin, decodeWindow_of_none hk, _, hi, rfl⟩

/-! ## The batch-mode step and the tail step (R192, R211) -/

/-- Settles O28: the window fill, and behind it the matched step (`State.decoderStep_of_match`) or `DEC.record`
(`State.decoderStep_of_no_match`). -/
theorem bdecBatchStepFollowsThePseudocode : Obligations.BdecBatchStepFollowsThePseudocode := by
  intro s hen hb
  have hfill : s.bdec.windowFill .bdec (s.wordAt .bdec) = s.bdec.bb.need (s.wordAt .bdec) s.bdec.wordCount 32 :=
    Dec.windowFill_of_batch _ hb
  rw [← hfill]
  cases hw : s.bdec.windowFill .bdec (s.wordAt .bdec) with
  | underrun b => exact State.decoderStep_of_underrun (State.fetch_of_window_underrun (d := .bdec) hw)
  | noWord i => exact State.decoderStep_of_noWord (State.fetch_of_window_noWord (d := .bdec) hw)
  | ok b =>
    dsimp only
    cases hk : kselect (matchMask (b.peek 32)) with
    | some k => exact State.decoderStep_of_match hen hb hw hk
    | none =>
      rw [State.decoderStep_of_no_match (d := .bdec) hen hw fun _ => hk]
      simp only [State.dec_bdec]
      cases b.record (s.wordAt .bdec) s.bdec.wordCount <;> rfl

/-- A step outside batch mode is `DEC.record` (R172, R211). -/
theorem State.decoderStep_of_not_batch {s : State} {d : DecId} (hen : (s.dec d).enabled = true)
    (hb : (s.dec d).batchMode d = false) :
    s.decoderStep d =
      ({ s with actor := d }).settleRecord d ((s.dec d).bb.record (s.wordAt d) (s.dec d).wordCount) :=
  State.decoderStep_of_no_match hen (Dec.windowFill_of_not_batch _ hb) fun h => by rw [hb] at h; cases h

/-- Settles O29: both are the step outside batch mode, over the same registers and words. -/
theorem tailStepIsTheScalarStep : Obligations.TailStepIsTheScalarStep := by
  intro s t hen htail h
  have hb : s.bdec.batchMode .bdec = false := by rw [Dec.batchMode_bdec, htail]; rfl
  have hscalar : s.swapDecs.decoderStep .sdec =
      ({ s.swapDecs with actor := .sdec }).settleRecord .sdec (s.bdec.bb.record (s.wordAt .bdec) s.bdec.wordCount) :=
    State.decoderStep_of_not_batch (s := s.swapDecs) (d := .sdec) hen (Dec.batchMode_sdec _)
  rw [State.decoderStep_of_not_batch (d := .bdec) hen hb, State.dec_bdec]
  rw [hscalar] at h
  cases hrec : s.bdec.bb.record (s.wordAt .bdec) s.bdec.wordCount with
  | value tag p bb => rw [hrec] at h; cases h; rfl
  | underrun bb => rw [hrec] at h; cases h; rfl
  | noWord i => rw [hrec] at h; cases h

/-! ## The pattern entries (R198, R213, R220 to R235) -/

/-- A pattern entry whose window and whose four slots are there: its lanes in the slots from `OCUR` on, `COUNT` values
decoded, `POS` behind the entry's records. -/
theorem State.matchedStep_decodesTo {s : State} {i : Instr} {e : PatEntry} {win v0 v1 v2 v3 : Word}
    (hlanes : extractLanes e win = ⟨v0, v1, v2, v3⟩) (he : e ∈ patTable) (hexec : exec i s = s.matchedStep e win)
    (hready : s.patternReady) (hinv : s.bdec.bb.Inv s.bdec.wordCount) :
    s.decodesTo i .bdec [v0, v1, v2, v3] e.count e.consumed := by
  obtain ⟨hen, hb, ⟨-, hwindow, hwords⟩, hslots⟩ := hready
  obtain ⟨b, hw⟩ : ∃ b, s.bdec.windowFill .bdec (s.wordAt .bdec) = .ok b :=
    Dec.windowFill_complete hwindow fun k hk => s.wordAt_isSome .bdec (Nat.lt_of_lt_of_le hk hwords)
  obtain ⟨hleft, hpos, hkeeps, hwin, hholds⟩ := Dec.windowFill_spec hw
  obtain ⟨-, -, -, hconsumed⟩ := patTable_bounds he
  have hbits : e.consumed ≤ b.navail.toNat := hconsumed.trans (hwin hb)
  have hpulled : b.navail.toNat ≤ 32 * b.widx.toNat := (hkeeps hinv).2.1
  obtain ⟨hconsumedLeft, hmoved, -⟩ := BB.consume_spec (wc := s.bdec.wordCount) hbits
  obtain ⟨hrun, -⟩ := (Dec.enabled_iff _).1 hen
  refine ⟨b.consume e.consumed, ?_, ?_, ?_, fun ht hh => ?_⟩
  · rw [hexec, State.matchedStep_of_batch e win hen hb, hw, State.settle_ok, hlanes, Dec.storeLanes_eq, if_pos hslots,
      hrun, State.afterDecode, State.dec_bdec]
  · rw [hmoved hpulled, hpos, State.dec_bdec]
  · exact hconsumedLeft.trans (by rw [hleft, State.dec_bdec])
  · exact (hholds _ (fun _ _ => State.wordAt_words (d := .bdec) ht) hinv hh).consume hbits hpulled

/-- Settles O37: the lanes of PAT0 and PAT1. -/
theorem fourValuePatternsDecode : Obligations.FourValuePatternsDecode := fun _ hready hinv =>
  ⟨fun a b c d x => State.matchedStep_decodesTo (extractLanes_pat0 a b c d x) (by decide) rfl hready hinv,
    fun a b c d x => State.matchedStep_decodesTo (extractLanes_pat1 a b c d x) (by decide) rfl hready hinv⟩

/-- Settles O38: the lanes of the three-value entries, the fourth empty. -/
theorem threeValuePatternsDecode : Obligations.ThreeValuePatternsDecode := fun _ hready hinv =>
  ⟨fun a b c x => State.matchedStep_decodesTo (extractLanes_pat2 a b c x) (by decide) rfl hready hinv,
    fun a b c x => State.matchedStep_decodesTo (extractLanes_pat3 a b c x) (by decide) rfl hready hinv,
    fun a b c x => State.matchedStep_decodesTo (extractLanes_pat5 a b c x) (by decide) rfl hready hinv,
    fun a b c => State.matchedStep_decodesTo (extractLanes_pat6 a b c) (by decide) rfl hready hinv,
    fun a b c x => State.matchedStep_decodesTo (extractLanes_pat10 a b c x) (by decide) rfl hready hinv,
    fun a b c => State.matchedStep_decodesTo (extractLanes_pat11 a b c) (by decide) rfl hready hinv⟩

/-- Settles O39: the lanes of the two-value entries, the last two empty. -/
theorem twoValuePatternsDecode : Obligations.TwoValuePatternsDecode := fun _ hready hinv =>
  ⟨fun a b x => State.matchedStep_decodesTo (extractLanes_pat4 a b x) (by decide) rfl hready hinv,
    fun a b x => State.matchedStep_decodesTo (extractLanes_pat7 a b x) (by decide) rfl hready hinv,
    fun a b => State.matchedStep_decodesTo (extractLanes_pat8 a b) (by decide) rfl hready hinv,
    fun a b x => State.matchedStep_decodesTo (extractLanes_pat12 a b x) (by decide) rfl hready hinv,
    fun a b x => State.matchedStep_decodesTo (extractLanes_pat13 a b x) (by decide) rfl hready hinv⟩

/-- Settles O40: the lanes of the one-value entries, the last three empty. -/
theorem oneValuePatternsDecode : Obligations.OneValuePatternsDecode := fun _ hready hinv =>
  ⟨fun a x => State.matchedStep_decodesTo (extractLanes_pat9 a x) (by decide) rfl hready hinv,
    fun a x => State.matchedStep_decodesTo (extractLanes_pat14 a x) (by decide) rfl hready hinv,
    fun a x => State.matchedStep_decodesTo (extractLanes_pat15 a x) (by decide) rfl hready hinv⟩

/-! ## The steps in which the bits run out (R194, R252, R256, R257) -/

/-- Settles O41: the window fill of the matched step raises (`Dec.windowFill_of_left_lt`). -/
theorem patternWithoutWindowTakesWordUnderrun : Obligations.PatternWithoutWindowTakesWordUnderrun := by
  intro s i hi hen hb hleft
  obtain ⟨e, -, win, hexec⟩ := exec_of_isPattern hi
  rw [hexec, State.matchedStep_of_batch e win hen hb, Dec.windowFill_of_left_lt _ hb hleft, State.settle_underrun]
  rfl

/-- R253: where `DEC.record` raises, all words have been pulled. -/
theorem BB.widx_of_record_underrun {bb b : BB} {src : Nat → Option Word} {wc : Count} (hi : bb.Inv wc)
    (h : bb.record src wc = .underrun b) : b.widx = wc := by
  obtain ⟨c, hpass⟩ := BB.record_underrun h
  obtain ⟨-, hout, hkeeps⟩ := BB.passRecord_underrun hpass
  obtain ⟨-, -, hwidx⟩ := hkeeps hi
  exact BitVec.le_antisymm hwidx hout

/-- The fault entry leaves of the machine all but the decoder's bit buffer and state (R256). -/
theorem State.takeUnderrun_withActor (s : State) (d : DecId) (bb : BB) :
    ({ s with actor := d }).takeUnderrun d bb =
      ({ s with actor := d }).setDec d { s.dec d with bb := bb, state := .fault, faultCode := .wordUnderrun } := by
  rw [State.takeUnderrun, State.dec_withActor]
  rfl

/-- The class of a record that is longer than the window (R41). -/
theorem WClass.eq_c3_of_window_lt {c : WClass} (h : Config.windowBits < c.recLen) : c = .c3 := by
  cases c
  case c3 => rfl
  all_goals exact absurd h (by decide)

/-- Settles O24: either the window fill raises, or `DEC.record` behind it (`BB.record_of_left_lt`), which the step comes to
in batch mode too: a record longer than the window matches no entry (`kselect_eq_none_iff_c3`). -/
theorem stepTakesWordUnderrunWhereBitsRunOut : Obligations.StepTakesWordUnderrunWhereBitsRunOut := by
  intro s d hen ht hinv hholds hcap hshort
  have hs : ∀ k w, s.wordAt d k = some w → w = s.words k := fun _ _ => State.wordAt_words ht
  have hsome : ∀ k, k < (s.dec d).wordCount.toNat → (s.wordAt d k).isSome := fun k hk =>
    s.wordAt_isSome d (Nat.lt_of_lt_of_le hk hcap)
  by_cases hwindow : (s.dec d).batchMode d = true → Config.windowBits ≤ (s.dec d).bitsLeft
  · obtain ⟨b, hw⟩ := Dec.windowFill_complete hwindow hsome
    obtain ⟨hleft, hpos, hkeeps, -, hstream⟩ := Dec.windowFill_spec hw
    have hrecord : (s.dec d).bitsLeft < (classAt s.words (s.dec d).bb.pos).recLen :=
      hshort.resolve_right fun ⟨hb, hlt⟩ => not_lt.2 (hwindow hb) hlt
    have hnone : (s.dec d).batchMode d = true → kselect (matchMask (b.peek Config.windowBits)) = none := fun hb =>
      (kselect_eq_none_iff_c3 (window_eq_streamField hs hinv hholds hb hw)).2
        (WClass.eq_c3_of_window_lt ((hwindow hb).trans_lt hrecord))
    obtain ⟨b', hrec, hend⟩ := BB.record_of_left_lt hs hsome (hkeeps hinv) (hstream _ hs hinv hholds)
      (by rw [hleft, hpos]; exact hrecord)
    refine ⟨b', ?_, BB.widx_of_record_underrun (hkeeps hinv) hrec, ?_⟩
    · rw [State.decoderStep_of_no_match hen hw hnone, hrec, State.settleRecord, State.takeUnderrun_withActor]
    · rw [hleft, hpos] at hend
      split at hend
      · next htag => rw [if_pos ⟨htag, hwindow⟩]; exact hend
      · next htag =>
        have hscalar : (s.dec d).batchMode d = false := Bool.eq_false_iff.2 fun hb =>
          htag (le_trans (by decide) (hwindow hb))
        rw [Dec.windowFill_of_not_batch _ hscalar] at hw
        cases hw
        rw [if_neg fun h => htag h.1]
        exact hend
  · obtain ⟨hb, hl⟩ := Classical.not_imp.1 hwindow
    have hw := Dec.windowFill_of_left_lt (s.wordAt d) hb (not_le.1 hl)
    obtain ⟨-, -, -, hout⟩ := Dec.windowFill_underrun hw
    obtain ⟨-, -, hwidx⟩ := hinv
    refine ⟨(s.dec d).bb, ?_, BitVec.le_antisymm hwidx hout, by rw [if_neg fun h => hwindow h.2]⟩
    rw [State.decoderStep_of_underrun (State.fetch_of_window_underrun hw), State.takeUnderrun_withActor]

/-! ## A batch-mode step inside the output (R193, R212, R216) -/

/-- Settles O54: the step has at least 16 values to decode (`Dec.Inv.batch_room`) and takes at most four of them (R292), in a
chunk of four slots. -/
theorem batchStepStaysInsideTheOutput : Obligations.BatchStepStaysInsideTheOutput := by
  intro s t hinv hen hb h
  have hroom := hinv.batch_room hb
  have hframe : s.bdec.Framed t.bdec 4 := (State.decoderStep_framed h).dec
  obtain ⟨-, hvc, -, -⟩ := hframe.sameRun
  have hrest : t.bdec.ocur.toNat ≤ s.bdec.ocur.toNat + 4 → 12 ≤ t.bdec.remaining.toNat := fun hle => by
    have hwithin : t.bdec.ocur ≤ t.bdec.valueCount := by rw [BitVec.le_def, hvc]; omega
    rw [Dec.remaining, BitVec.toNat_sub_of_le hwithin, hvc]
    omega
  have hslots : ∀ a, s.bdec.valueCount.toNat ≤ a → t.bdec.vout.read a = s.bdec.vout.read a := fun a ha =>
    hframe.slots a (by omega)
  have hprogress : s.bdec.Progress t.bdec := everyDecoderStepMakesProgress s t .bdec hinv hen h
  rcases hprogress with ⟨-, hle, -, hstate⟩ | ⟨hfault, -, -⟩ | ⟨-, hrun, hocur⟩
  · have hmore : t.bdec.ocur ≠ s.bdec.valueCount := fun heq => by rw [heq] at hle; omega
    rw [if_neg hmore] at hstate
    exact ⟨by rw [hstate]; decide, fun _ => hrest hle, hslots⟩
  · exact ⟨by rw [hfault]; decide, fun hrun => absurd (hfault.symm.trans hrun) (by decide), hslots⟩
  · exact ⟨by rw [hrun]; decide, fun _ => hrest (by rw [hocur]; omega), hslots⟩

end Sys2Proof.Machine
end

section
/-! PROOFS. A record's step where the bits run out (R152, R194, R252, R256, R257), and the time step in which no agent has an
enabled step (R271). -/

namespace Sys2Proof.Machine

/-! ## No agent has an enabled step (R271) -/

theorem State.ownStep_of_none {s : State} (h : ∀ d, (s.dec d).enabled = false) : s.ownStep = .next s := by
  have hs : s.sdec.enabled = false := h .sdec
  have hb : s.bdec.enabled = false := h .bdec
  simp only [State.ownStep, State.chooseDecoder, hs, hb, Bool.false_eq_true, if_false]

/-- Settles O22: without an action of the host the time step is the decoders' own, and no decoder takes it
(`State.ownStep_of_none`). -/
theorem stepWithoutEnabledDecoderChangesNothing : Obligations.StepWithoutEnabledDecoderChangesNothing := by
  intro s hdis
  refine ⟨fun hin => ?_, fun later hin => ?_⟩
  · rw [step_of_no_input hin, State.ownStep_of_none hdis]
  · rw [step_of_input hin, State.inputStep_none, State.ownStep_of_none]
    intro d
    rw [State.dec_withInputs]; exact hdis d

/-! ## Passing a record where its bits run out (R152, R179, R257) -/

section
variable {bb : BB} {src : Nat → Option Word} {wc : Count}

theorem BB.take_of_left_lt {k : Nat} (hk : k ≤ 32) (h : bb.left wc < k) : bb.take src wc k = .underrun bb := by
  rw [BB.take, BB.need_of_left_lt src hk h, Pull.underrun_andThen]

/-- Passing a record of which not all bits are left raises: with the bit buffer untouched at the tag, two bits past it at
the payload (R257). -/
theorem BB.passRecord_of_left_lt {c : WClass} (hsome : ∀ i, i < wc.toNat → (src i).isSome) (hi : bb.Inv wc)
    (h : bb.left wc < c.recLen) :
    ∃ b, bb.passRecord src wc c = .underrun b ∧ if 2 ≤ bb.left wc then b.pos = bb.pos + 2 else b = bb := by
  by_cases htag : 2 ≤ bb.left wc
  · obtain ⟨b, hb⟩ := BB.take_complete (k := Config.tagBits) htag hsome
    obtain ⟨-, hleft, hmoved, -⟩ := BB.take_spec (by decide) hb
    have hpay : b.left wc < c.width := by
      rw [WClass.recLen_eq] at h
      rw [hleft, Config.tagBits]
      omega
    refine ⟨b, ?_, ?_⟩
    · rw [BB.passRecord, hb, Pull.ok_andThen, BB.take_of_left_lt (WClass.width_le c) hpay]
    · rw [if_pos htag, (hmoved hi).2, Config.tagBits]
  · refine ⟨bb, ?_, by rw [if_neg htag]⟩
    rw [BB.passRecord, BB.take_of_left_lt (k := Config.tagBits) (by decide) (not_le.1 htag), Pull.underrun_andThen]

end

/-! ## The record step where the bits run out (R194, R252, R256, R257) -/

section
variable {s : State} {c : WClass}

/-- In a record step whose window cannot be had the bit buffer stays untouched (R194, R257). -/
theorem State.recordPull_of_no_window (hb : (s.dec s.actor).batchMode s.actor = true)
    (h : (s.dec s.actor).bitsLeft < Config.windowBits) : s.recordPull c = .underrun (s.dec s.actor).bb := by
  rw [State.recordPull, Dec.windowFill_of_left_lt _ hb h, Pull.underrun_andThen]

/-- A record step that gets its window, or needs none, raises where the record's bits run out: with the bit buffer untouched
at the tag, which only a step without a window can lack, two bits past it at the payload (R257). -/
theorem State.recordPull_of_bitsLeft_lt (hinv : (s.dec s.actor).bb.Inv (s.dec s.actor).wordCount)
    (hcap : (s.dec s.actor).wordCount.toNat ≤ s.wmemCap)
    (hwindow : (s.dec s.actor).batchMode s.actor = true → Config.windowBits ≤ (s.dec s.actor).bitsLeft)
    (h : (s.dec s.actor).bitsLeft < c.recLen) :
    ∃ b, s.recordPull c = .underrun b ∧
      if 2 ≤ (s.dec s.actor).bitsLeft then b.pos = (s.dec s.actor).bb.pos + 2 else b = (s.dec s.actor).bb := by
  have hsome : ∀ k, k < (s.dec s.actor).wordCount.toNat → (s.wordAt s.actor k).isSome := fun k hk =>
    s.wordAt_isSome s.actor (hk.trans_le hcap)
  obtain ⟨b, hw⟩ := Dec.windowFill_complete hwindow hsome
  obtain ⟨hleft, hpos, hkeeps, -⟩ := Dec.windowFill_spec hw
  obtain ⟨b', hpass, hend⟩ := BB.passRecord_of_left_lt (c := c) hsome (hkeeps hinv) (by rw [hleft]; exact h)
  refine ⟨b', by rw [State.recordPull, hw, Pull.ok_andThen, hpass], ?_⟩
  rw [hleft, hpos] at hend
  by_cases htag : 2 ≤ (s.dec s.actor).bitsLeft
  · rw [if_pos htag] at hend ⊢
    exact hend
  · have hscalar : (s.dec s.actor).batchMode s.actor = false := Bool.eq_false_iff.2 fun hb =>
      htag (le_trans (by decide) (hwindow hb))
    rw [Dec.windowFill_of_not_batch _ hscalar] at hw
    cases hw
    exact hend

end

/-- Settles O33: the pull of the record step raises at the window (`State.recordPull_of_no_window`) or at the record
(`State.recordPull_of_bitsLeft_lt`), and where it raises all words have been pulled (`State.recordPull_underrun`). -/
theorem recordWithoutBitsTakesWordUnderrun : Obligations.RecordWithoutBitsTakesWordUnderrun := by
  intro s i c hc hen hinv hcap hshort
  obtain ⟨v, hexec⟩ := exec_of_recClass hc
  have hraise : ∀ b, s.recordPull c = .underrun b →
      exec i s = .next (s.setDec s.actor
        { s.dec s.actor with bb := b, state := .fault, faultCode := .wordUnderrun }) ∧
      b.widx = (s.dec s.actor).wordCount := fun b hpull => by
    obtain ⟨hout, hkeeps⟩ := State.recordPull_underrun hpull
    obtain ⟨-, -, hwidx⟩ := hkeeps hinv
    refine ⟨?_, BitVec.le_antisymm hwidx hout⟩
    rw [hexec, State.recordStep_of_enabled c v hen, hpull, State.settle_underrun]
    rfl
  by_cases hwindow : (s.dec s.actor).batchMode s.actor = true → Config.windowBits ≤ (s.dec s.actor).bitsLeft
  · have hrecord : (s.dec s.actor).bitsLeft < c.recLen :=
      hshort.resolve_right fun ⟨hb, hlt⟩ => not_lt.2 (hwindow hb) hlt
    obtain ⟨b, hpull, hend⟩ := State.recordPull_of_bitsLeft_lt hinv hcap hwindow hrecord
    obtain ⟨hstep, hwidx⟩ := hraise b hpull
    exact ⟨b, hstep, hwidx, by simpa only [and_iff_left hwindow] using hend⟩
  · obtain ⟨hb, hl⟩ := Classical.not_imp.1 hwindow
    obtain ⟨hstep, hwidx⟩ := hraise _ (State.recordPull_of_no_window hb (not_le.1 hl))
    exact ⟨(s.dec s.actor).bb, hstep, hwidx, by rw [if_neg fun h => hwindow h.2]⟩

end Sys2Proof.Machine
end

section
/-! PROOFS. The block after RESET (R282): both decoders are in `IDLE`, so none has an enabled step and the machine waits. -/

namespace Sys2Proof.Machine

@[simp] theorem Dec.resetOver_enabled (vout : Mem) (cap : Nat) : (Dec.resetOver vout cap).enabled = false := rfl

theorem State.resetRegisters_enabled (s : State) (d : DecId) : (s.resetRegisters.dec d).enabled = false := by
  rw [State.resetRegisters_dec, Dec.resetOver_enabled]

theorem State.chooseDecoder_of_none {s : State} (h : ∀ d, (s.dec d).enabled = false) : s.chooseDecoder = none := by
  have hs : s.sdec.enabled = false := h .sdec
  have hb : s.bdec.enabled = false := h .bdec
  simp only [State.chooseDecoder, hs, hb, Bool.false_eq_true, if_false]

theorem State.reset_resetRegisters : State.reset.resetRegisters = State.reset := rfl

theorem State.reset_enabled (d : DecId) : (State.reset.dec d).enabled = false := by
  rw [← State.reset_resetRegisters, State.resetRegisters_enabled]

/-- Settles O13: no decoder is enabled behind RESET (`State.resetRegisters_enabled`), so none is chosen, and the machine at
reset, whose timeline is empty, makes the decoders' own step, which changes nothing (`State.ownStep_of_none`). -/
theorem afterResetNoAgentSteps : Obligations.AfterResetNoAgentSteps := by
  refine ⟨State.chooseDecoder_of_none State.reset_enabled, ?_,
    fun s => State.chooseDecoder_of_none s.resetRegisters_enabled⟩
  calc step State.reset = State.reset.ownStep := step_of_no_input rfl
    _ = .next State.reset := State.ownStep_of_none State.reset_enabled

end Sys2Proof.Machine
end
